-- ==== Sys2Proof/Word.lean ====
section
/-! DEFINITION. The word types of HCORE. Every value is unsigned (00_scope.md R9): registers, bus addresses and bus data are
32 bits, bytes are 8 bits, arena indices are 9 bits, byte strobes are 4 bits. -/

namespace Sys2Proof

/-- A 32-bit register, bus address, bus data word or command word (10_state.md section 2, 20_memory.md R60). -/
abbrev Word := BitVec 32

/-- One byte: a symbol, a buffer byte, a code length (10_state.md R46, R50). -/
abbrev Byte := BitVec 8

/-- A 9-bit index or count: ROOT, NSYM, NNODES, DTAB_N, C0, C1 (10_state.md R31 to R33, R38, R47). -/
abbrev Index := BitVec 9

/-- The four byte strobes of a host write; bit k enables lane k (20_memory.md R60). -/
abbrev Strobe := BitVec 4

/-- `ceil8(p) = (p + 7) / 8`, the number of bytes that hold p bits (00_scope.md R9). -/
def ceil8 (p : Nat) : Nat := (p + 7) / 8

end Sys2Proof
end

