-- ==== Sys2Proof/Config.lean ====
section
/-! DEFINITION. What is fixed for one build of HCORE (the parameters of 00_scope.md R7 and the base address of 20_memory.md R76)
and the free values: what the spec leaves open (93_implementation_defined.md I3, I4, I7). A free value is an opaque constant;
nothing in Lean can evaluate it, so a claim holds whatever it is. -/

namespace Sys2Proof

/-- The three byte buffers (10_state.md R50 to R52). -/
inductive Buf where
  | ibuf
  | abuf
  | obuf
  deriving DecidableEq, Repr

/-- The parameters of a build. They are plain data in State, and no step changes them (log entries 1 and 2). -/
structure Params where
  /-- IN_MAX, the capacity of IBUF in bytes (R7). -/
  inMax : Nat
  /-- ART_MAX, the capacity of ABUF in bytes (R7). -/
  artMax : Nat
  /-- OUT_MAX, the capacity of OBUF in bytes (R7). -/
  outMax : Nat
  /-- HCORE_BASE, the base of the map on the platform's bus (20_memory.md R76, 93_implementation_defined.md I11). -/
  base : Word
  deriving DecidableEq, Repr

/-- The default parameters of R7. DESIGN CHOICE: base 0 (log entry 2). -/
def Params.default : Params := { inMax := 65536, artMax := 131072, outMax := 65536, base := 0#32 }

namespace Config

/-- The draw `id` of byte i of buffer b: what a byte holds that nothing has written since power-on (I3), and what a byte holds
that an aborted command could have written (I7). DESIGN CHOICE: free value (log entries 5 and 7). -/
opaque freeByte : Nat → Buf → Nat → Byte

/-- The fresh 32-bit draw number `id`: what a host read during BUSY returns outside the exact list (70_reset_and_hazards.md
R282, I4). DESIGN CHOICE: free value (log entry 6). -/
opaque freeWord : Nat → Word

/-- The weight of an internal node whose children's exact sum does not fit 32 bits. No rule gives it and no run reaches it
(42_tree.md R157). DESIGN CHOICE: free value of the two weights (log entry 8). -/
opaque freeWeight : Word → Word → Word

end Config

end Sys2Proof
end

