-- ==== Sys2Proof/Syntax.lean ====
section
/-! DEFINITION. The ten commands of spec/opcode_table.json. A command carries no register number, immediate or mode field
(30_encoding.md R90, R93), so no constructor has an argument. -/

namespace Sys2Proof

/-- One constructor for each row of the opcode map (30_encoding.md R91). -/
inductive Instr where
  /-- NOP, 0x00 (40_control.md R123). -/
  | nop
  /-- CLEAR, 0x01 (40_control.md R124). -/
  | clear
  /-- FREQ, 0x10 (41_frequency.md R141). -/
  | freq
  /-- BUILD, 0x11 (42_tree.md R151). -/
  | build
  /-- CANON, 0x12 (43_codegen.md R171). -/
  | canon
  /-- ENCODE, 0x13 (45_encoder.md R190). -/
  | encode
  /-- COMPRESS, 0x1F, composite: FREQ, BUILD, CANON, ENCODE (45_encoder.md R198). -/
  | compress
  /-- LOADTAB, 0x20 (46_decoder.md R210). -/
  | loadtab
  /-- DECODE, 0x21 (46_decoder.md R220). -/
  | decode
  /-- DECOMPRESS, 0x2F, composite: LOADTAB, DECODE (46_decoder.md R228). -/
  | decompress
  deriving DecidableEq, Repr

end Sys2Proof
end

