-- ==== Sys2Proof/WellFormed.lean ====
section
/-! DEFINITION. What is well formed: an instruction (always, for it has no operand), a command word (30_encoding.md R90) and the
parameters of a build (00_scope.md R7). -/

namespace Sys2Proof

/-- Every instruction is well formed: no command has an operand to check (30_encoding.md R93, R95; log entry 11). -/
def Instr.wellFormed : Instr → Bool
  | .nop => true
  | .clear => true
  | .freq => true
  | .build => true
  | .canon => true
  | .encode => true
  | .compress => true
  | .loadtab => true
  | .decode => true
  | .decompress => true

/-- A command word is well formed when its OPC is one of the ten of R91 and RSVD = 0 (30_encoding.md R90). -/
def wordWellFormed (w : Word) : Bool :=
  [0x00, 0x01, 0x10, 0x11, 0x12, 0x13, 0x1F, 0x20, 0x21, 0x2F].contains (w.toNat % 256) && w.toNat / 256 == 0

/-- The ranges of 00_scope.md R7: 1 ≤ IN_MAX ≤ 65536, 6 ≤ ART_MAX ≤ 131072, 1 ≤ OUT_MAX ≤ 65536. -/
def Params.wellFormed (p : Params) : Bool :=
  decide (1 ≤ p.inMax) && decide (p.inMax ≤ 65536) && decide (6 ≤ p.artMax) && decide (p.artMax ≤ 131072) &&
    decide (1 ≤ p.outMax) && decide (p.outMax ≤ 65536)

end Sys2Proof
end

