-- ==== Sys2Proof/Decode.lean ====
section
/-! DEFINITION. The command decoder (30_encoding.md R90 to R92), total over 32-bit words, and the encoder after it. Both are
written from the opcode map of R91. -/

namespace Sys2Proof

/-- The field OPC = bits [7:0] of a command word (30_encoding.md R90). -/
def opcField (w : Word) : Byte := w.extractLsb' 0 8

/-- The field RSVD = bits [31:8] of a command word (30_encoding.md R90). -/
def rsvdField (w : Word) : BitVec 24 := w.extractLsb' 8 24

/-- Why a word is illegal (30_encoding.md R92). -/
inductive Illegal where
  /-- OPC is none of the ten of R91: SUB = 0x01. -/
  | undefinedOpc
  /-- OPC is defined and RSVD is not zero: SUB = 0x02. -/
  | reservedBits
  deriving DecidableEq, Repr

/-- The opcode map read from OPC to command (30_encoding.md R91). -/
def ofOpc (opc : Byte) : Option Instr :=
  match opc.toNat with
  | 0x00 => some .nop
  | 0x01 => some .clear
  | 0x10 => some .freq
  | 0x11 => some .build
  | 0x12 => some .canon
  | 0x13 => some .encode
  | 0x1F => some .compress
  | 0x20 => some .loadtab
  | 0x21 => some .decode
  | 0x2F => some .decompress
  | _ => none

/-- Classification of an accepted word, in the order of 30_encoding.md R92: undefined OPC first, then reserved bits. -/
def decodeWord (w : Word) : Except Illegal Instr :=
  match ofOpc (opcField w) with
  | none => .error .undefinedOpc
  | some i => if rsvdField w = 0#24 then .ok i else .error .reservedBits

/-- The decoder on a word numbered as spec/opcode_table.json numbers it. A command is always exactly one 32-bit word
(30_encoding.md R95), so a longer row decodes to nothing. -/
def decodeTableWord (nbits w : Nat) : Option Instr :=
  if nbits ≤ 32 then
    match decodeWord (BitVec.ofNat 32 (w % 2 ^ nbits)) with
    | .ok i => some i
    | .error _ => none
  else none

/-- The OPC of each command (30_encoding.md R91). -/
def Instr.opc : Instr → Byte
  | .nop => 0x00#8
  | .clear => 0x01#8
  | .freq => 0x10#8
  | .build => 0x11#8
  | .canon => 0x12#8
  | .encode => 0x13#8
  | .compress => 0x1F#8
  | .loadtab => 0x20#8
  | .decode => 0x21#8
  | .decompress => 0x2F#8

/-- The word of a command: OPC in bits [7:0], RSVD = 0 (30_encoding.md R90, R91). -/
def encode (i : Instr) : Word := 0#24 ++ i.opc

end Sys2Proof
end

