-- ==== Sys2Proof/Machine/State.lean ====
section
/-! DEFINITION. The architectural state of HCORE (10_state.md R20), as plain data, and its value after a power-on reset
(10_state.md R44, R59). Reserved bits of a register are not stored: they read 0 and ignore writes (10_state.md section 2). -/

namespace Sys2Proof.Machine

/-- A byte memory: (index, byte) pairs in one canonical form, indices strictly rising (Memory.wf, Machine/Ops.lean). An unlisted
index reads as NO VALUE: nothing has written that byte since power-on, and its value is the draw of
93_implementation_defined.md I3 (log entry 5). -/
structure Memory where
  cells : List Host.Cell
  deriving DecidableEq, Repr

/-- An entry of the node arena (10_state.md R47). -/
structure Node where
  w : Word
  leaf : Bool
  sym : Byte
  c0 : Index
  c1 : Index
  deriving DecidableEq, Repr

/-- The all-zero arena entry. -/
def Node.zero : Node := { w := 0#32, leaf := false, sym := 0#8, c0 := 0#9, c1 := 0#9 }

/-- An entry of the decode table (10_state.md R49). -/
structure DEntry where
  v : Bool
  sym : Byte
  len : Byte
  code : Word
  deriving DecidableEq, Repr

/-- The all-zero decode-table entry. -/
def DEntry.zero : DEntry := { v := false, sym := 0#8, len := 0#8, code := 0#32 }

/-- The core phase (10_state.md R53). STATUS.BUSY = 1 exactly in phase BUSY(w). -/
inductive Phase where
  | idle
  | busy (w : Word)
  deriving DecidableEq, Repr

/-- The stored bits of STATUS (10_state.md R23): DONE [1], ERR [2], OVR [3], EMPTY [4]. BUSY [0] is the phase. -/
structure Status where
  done : Bool
  err : Bool
  ovr : Bool
  empty : Bool
  deriving DecidableEq, Repr

/-- The register IE (10_state.md R25): DONE_IE [0], ERR_IE [1]. -/
structure IntEnable where
  doneIe : Bool
  errIe : Bool
  deriving DecidableEq, Repr

/-- ERR_CODE by field, ERR_INFO and ERR_AUX: the record of the last error (10_state.md R26 to R28). -/
structure ErrRegs where
  step : Byte
  sub : Byte
  code : Byte
  info : Word
  aux : Word
  deriving DecidableEq, Repr

/-- The register VALID (10_state.md R41): FREQ [0], TREE [1], CODE [2], DTAB [3]. -/
structure Valid where
  freq : Bool
  tree : Bool
  code : Bool
  dtab : Bool
  deriving DecidableEq, Repr

/-- What can happen next: a transaction of the host (20_memory.md R60, at an address of the platform's bus), a reset
(70_reset_and_hazards.md R270), or the core's turn (40_control.md R121). -/
inductive Event where
  | hostRead (a : Word)
  | hostWrite (a d : Word) (strb : Strobe)
  | reset (powerOn : Bool)
  | coreTurn
  deriving DecidableEq, Repr

structure State where
  /-- The build's parameters (00_scope.md R7); constant. -/
  params : Params
  /-- The core phase (R53). -/
  phase : Phase
  /-- CMD (R22): the last accepted word. -/
  cmd : Word
  /-- STATUS (R23). -/
  status : Status
  /-- IE (R25). -/
  ie : IntEnable
  /-- ERR_CODE, ERR_INFO, ERR_AUX (R26 to R28). -/
  errs : ErrRegs
  /-- IN_LEN (R29). -/
  inLen : Word
  /-- ART_LEN (R30). -/
  artLen : Word
  /-- NSYM (R31). -/
  nsym : Index
  /-- NNODES (R32). -/
  nnodes : Index
  /-- ROOT (R33); 0x1FF means no tree. -/
  root : Index
  /-- PAY_BITS (R34). -/
  payBits : Word
  /-- OUT_LEN (R35). -/
  outLen : Word
  /-- PAY_OFF (R36). -/
  payOff : Word
  /-- PAY_BYTES (R37). -/
  payBytes : Word
  /-- DTAB_N (R38). -/
  dtabN : Index
  /-- OUT_CNT (R39). -/
  outCnt : Word
  /-- DEC_BITS (R40). -/
  decBits : Word
  /-- VALID (R41). -/
  valid : Valid
  /-- FREQ[0..255] (R45). -/
  freq : Vector Word 256
  /-- LEN[0..255] (R46). -/
  len : Vector Byte 256
  /-- NODE[0..510] (R47). -/
  node : Vector Node 511
  /-- CODE[0..255] (R48). -/
  code : Vector Word 256
  /-- DTAB[0..255] (R49). -/
  dtab : Vector DEntry 256
  /-- IBUF (R50). -/
  ibuf : Memory
  /-- ABUF (R51). -/
  abuf : Memory
  /-- OBUF (R52). -/
  obuf : Memory
  /-- The model's own: the draw that the never written buffer bytes hold (log entry 5). -/
  powerOnId : Nat
  /-- The model's own: the next unused draw (log entry 6). -/
  draws : Nat
  /-- The model's own: the data of the host's reads so far, newest first (log entry 4). -/
  reads : List Word
  /-- The model's own: what happens next, in order (log entry 3). -/
  agenda : List Event
  deriving DecidableEq, Repr

/-- Faults: HCORE has none. Every command completes, with or without an error, and every bus transaction completes
(00_scope.md R18, 20_memory.md R60, 60_exceptions.md R252), so the type has no constructor. -/
inductive Fault where
  deriving DecidableEq, Repr

/-- Refusals. -/
inductive Refusal where
  /-- Raised by Machine/Dispatch.lean for a command that has no meaning yet (safe). No arm raises it. -/
  | notModelled (mnemonic : String)
  deriving DecidableEq, Repr

/-- HCORE right after a power-on reset with the default parameters of 00_scope.md R7: every register at its value of
10_state.md R44, every table entry 0, phase IDLE (R59), every buffer byte a draw (nothing listed). -/
def State.reset : State where
  params := Params.default
  phase := .idle
  cmd := 0x00000000#32
  status := { done := false, err := false, ovr := false, empty := false }
  ie := { doneIe := false, errIe := false }
  errs := { step := 0#8, sub := 0#8, code := 0#8, info := 0#32, aux := 0#32 }
  inLen := 0#32
  artLen := 0#32
  nsym := 0#9
  nnodes := 0#9
  root := 0x1FF#9
  payBits := 0#32
  outLen := 0#32
  payOff := 0#32
  payBytes := 0#32
  dtabN := 0#9
  outCnt := 0#32
  decBits := 0#32
  valid := { freq := false, tree := false, code := false, dtab := false }
  freq := Vector.replicate 256 0#32
  len := Vector.replicate 256 0#8
  node := Vector.replicate 511 Node.zero
  code := Vector.replicate 256 0#32
  dtab := Vector.replicate 256 DEntry.zero
  ibuf := { cells := [] }
  abuf := { cells := [] }
  obuf := { cells := [] }
  powerOnId := 0
  draws := 1
  reads := []
  agenda := []

end Sys2Proof.Machine
end

