-- ==== Sys2Proof/Machine/Ops.lean ====
section
/-! DEFINITION. The named operations every meaning is written with: byte memories, the buffers and the core's accesses to them
(00_scope.md R11), tables, the error mechanism `raise` and completion (40_control.md R121, 60_exceptions.md R240 to R251),
acceptance of a command (40_control.md R120) and the register and table reset (70_reset_and_hazards.md R271). -/

namespace Sys2Proof.Machine

/-! ## Byte memories -/

/-- The byte listed at index a, if any. -/
def cellsGet (a : Nat) : List Host.Cell → Option Byte
  | [] => none
  | (b, x) :: rest => if b = a then some x else cellsGet a rest

/-- The list with byte v at index a, kept in rising order. -/
def cellsSet (a : Nat) (v : Byte) : List Host.Cell → List Host.Cell
  | [] => [(a, v)]
  | (b, x) :: rest =>
    if a < b then (a, v) :: (b, x) :: rest
    else if a = b then (a, v) :: rest
    else (b, x) :: cellsSet a v rest

/-- What index a of a memory holds: a written byte, or no value. -/
def Memory.get? (m : Memory) (a : Nat) : Option Byte := cellsGet a m.cells

/-- The memory after writing byte v at index a. -/
def Memory.set (m : Memory) (a : Nat) (v : Byte) : Memory := { cells := cellsSet a v m.cells }

/-- The memory after writing the bytes of the list at indices a, a + 1, ... -/
def Memory.writeBytes (m : Memory) (a : Nat) : List Byte → Memory
  | [] => m
  | b :: bs => (m.set a b).writeBytes (a + 1) bs

/-- The canonical form: indices strictly rising. An unlisted index reads as no value, so no listed byte equals what an unlisted
index reads as, and memories that read alike are equal lists (log entry 5). -/
abbrev Memory.wf (m : Memory) : Prop := (m.cells.map Prod.fst).Pairwise (· < ·)

/-- Every listed index is below the capacity. -/
abbrev Memory.within (m : Memory) (cap : Nat) : Prop := ∀ c ∈ m.cells, c.1 < cap

/-! ## The three buffers -/

/-- The memory of a buffer (10_state.md R50 to R52); the three are distinct (20_memory.md R74). -/
def State.buf (s : State) : Buf → Memory
  | .ibuf => s.ibuf
  | .abuf => s.abuf
  | .obuf => s.obuf

/-- The state with a buffer's memory replaced. -/
def State.setBuf (s : State) (b : Buf) (m : Memory) : State :=
  match b with
  | .ibuf => { s with ibuf := m }
  | .abuf => { s with abuf := m }
  | .obuf => { s with obuf := m }

/-- The capacity of a buffer (00_scope.md R7). -/
def capOf (p : Params) : Buf → Nat
  | .ibuf => p.inMax
  | .abuf => p.artMax
  | .obuf => p.outMax

/-- Byte i of a buffer: the byte written there, or the draw the byte has held since power-on
(93_implementation_defined.md I3). -/
def State.byteAt (s : State) (b : Buf) (i : Nat) : Byte :=
  ((s.buf b).get? i).getD (Config.freeByte s.powerOnId b i)

/-- Bytes a, ..., a + n - 1 of a buffer, in index order. -/
def State.bytesAt (s : State) (b : Buf) (a n : Nat) : List Byte :=
  (List.range n).map fun k => s.byteAt b (a + k)

/-- The number that a byte string spells, first byte most significant (00_scope.md R11). -/
def beNat (bs : List Byte) : Nat := bs.foldl (fun v b => 256 * v + b.toNat) 0

/-- The n bytes of v, first byte most significant (00_scope.md R11). -/
def beBytes (n v : Nat) : List Byte :=
  (List.range n).map fun k => BitVec.ofNat 8 (v >>> (8 * (n - 1 - k)))

/-- `MemRead(B, a, n)` (00_scope.md R11). -/
def State.memRead (s : State) (b : Buf) (a n : Nat) : Nat := beNat (s.bytesAt b a n)

/-- The state after writing a byte string into a buffer at index a. -/
def State.putBytes (s : State) (b : Buf) (a : Nat) (bs : List Byte) : State :=
  s.setBuf b ((s.buf b).writeBytes a bs)

/-- `MemWrite(B, a, n, v)` (00_scope.md R11). -/
def State.memWrite (s : State) (b : Buf) (a n v : Nat) : State := s.putBytes b a (beBytes n v)

/-! ## Tables -/

/-- The table of n entries f 0, ..., f (n - 1). -/
def tabulate {α : Type} (n : Nat) (f : Nat → α) : Vector α n :=
  ⟨((List.range n).map f).toArray, by simp⟩

/-- The indices of a list, counted from k, whose entries satisfy p, ascending. -/
def indicesFrom {α : Type} (p : α → Bool) : Nat → List α → List Nat
  | _, [] => []
  | k, x :: xs => if p x then k :: indicesFrom p (k + 1) xs else indicesFrom p (k + 1) xs

/-- The indices of a table whose entries satisfy p, ascending (00_scope.md R14: loops run in ascending order). -/
def indicesWhere {α : Type} {n : Nat} (p : α → Bool) (v : Vector α n) : List Nat := indicesFrom p 0 v.toList

/-- LMAX, the longest code length (00_scope.md R7). -/
def lMax : Nat := 32

/-! ## Errors -/

/-- The rows of 60_exceptions.md R241 by name. -/
inductive ErrKind where
  | outOfRange
  | truncHdr
  | badCount
  | truncTable
  | badLen
  | badCode
  | badOrder
  | notPrefixFree
  | noLeafPath
  | unknownSymbol
  | undefinedOpc
  | reservedBits
  | missingFreq
  | missingTree
  | missingCode
  | missingDtab
  | overflowIn
  | overflowArt
  | overflowOut
  | codeTooLong
  deriving DecidableEq, Repr

/-- ERR_CODE.CODE of a row (60_exceptions.md R241). -/
def ErrKind.code : ErrKind → Byte
  | .outOfRange => 0x01#8
  | .truncHdr | .badCount | .truncTable | .badLen | .badCode | .badOrder | .notPrefixFree | .noLeafPath => 0x02#8
  | .unknownSymbol => 0x03#8
  | .undefinedOpc | .reservedBits => 0x04#8
  | .missingFreq | .missingTree | .missingCode | .missingDtab => 0x05#8
  | .overflowIn | .overflowArt | .overflowOut => 0x06#8
  | .codeTooLong => 0x07#8

/-- ERR_CODE.SUB of a row (60_exceptions.md R241). -/
def ErrKind.sub : ErrKind → Byte
  | .outOfRange => 0x00#8
  | .truncHdr => 0x01#8
  | .badCount => 0x02#8
  | .truncTable => 0x03#8
  | .badLen => 0x04#8
  | .badCode => 0x05#8
  | .badOrder => 0x06#8
  | .notPrefixFree => 0x07#8
  | .noLeafPath => 0x08#8
  | .unknownSymbol => 0x00#8
  | .undefinedOpc => 0x01#8
  | .reservedBits => 0x02#8
  | .missingFreq => 0x01#8
  | .missingTree => 0x02#8
  | .missingCode => 0x04#8
  | .missingDtab => 0x08#8
  | .overflowIn => 0x01#8
  | .overflowArt => 0x02#8
  | .overflowOut => 0x03#8
  | .codeTooLong => 0x00#8

/-- `raise E(sub, info, aux)` in the simple command of opcode `step` (00_scope.md R12, 60_exceptions.md R250). -/
structure Raise where
  step : Byte
  kind : ErrKind
  info : Nat
  aux : Nat
  deriving DecidableEq, Repr

/-- How a command step ends (40_control.md R126): with its effects, or with an error and the state it keeps. -/
inductive Result where
  | done (s : State)
  | raised (kept : State) (e : Raise)
  deriving DecidableEq, Repr

/-- Composite commands: the next step runs on the committed effects of the one before, and the first error stops
(40_control.md R127). -/
def Result.andThen (r : Result) (f : State → Result) : Result :=
  match r with
  | .done s => f s
  | .raised kept e => .raised kept e

/-- The error registers that an error writes (60_exceptions.md R250). -/
def Raise.record (e : Raise) : ErrRegs where
  step := e.step
  sub := e.kind.sub
  code := e.kind.code
  info := BitVec.ofNat 32 e.info
  aux := BitVec.ofNat 32 e.aux

/-- What every completion sets: phase IDLE (so BUSY = 0) and DONE = 1 (40_control.md R121). -/
def State.complete (s : State) : State :=
  { s with phase := .idle, status := { s.status with done := true } }

/-- TAKING AN ERROR (60_exceptions.md R250): the record is written and ERR is set. -/
def State.recordError (s : State) (e : Raise) : State :=
  { s with errs := e.record, status := { s.status with err := true } }

/-- The completion step's end: the effects, or the kept state and the error, then DONE and IDLE, as one transition
(40_control.md R121). -/
def Result.finish : Result → State
  | .done s => s.complete
  | .raised kept e => (kept.recordError e).complete

/-- Acceptance of the command word w (40_control.md R120): ERR, OVR and EMPTY are unchanged. -/
def State.accept (s : State) (w : Word) : State :=
  { s with phase := .busy w, cmd := w, status := { s.status with done := false } }

/-- The register and table reset of 70_reset_and_hazards.md R271. DONE, BUSY (the phase) and CMD are the caller's; parameters,
buffers and the model's own fields are untouched. -/
def State.resetRegs (s : State) : State :=
  { s with
    status := { s.status with err := false, ovr := false, empty := false }
    ie := { doneIe := false, errIe := false }
    errs := { step := 0#8, sub := 0#8, code := 0#8, info := 0#32, aux := 0#32 }
    inLen := 0#32
    artLen := 0#32
    nsym := 0#9
    nnodes := 0#9
    root := 0x1FF#9
    payBits := 0#32
    outLen := 0#32
    payOff := 0#32
    payBytes := 0#32
    dtabN := 0#9
    outCnt := 0#32
    decBits := 0#32
    valid := { freq := false, tree := false, code := false, dtab := false }
    freq := Vector.replicate 256 0#32
    len := Vector.replicate 256 0#8
    node := Vector.replicate 511 Node.zero
    code := Vector.replicate 256 0#32
    dtab := Vector.replicate 256 DEntry.zero }

end Sys2Proof.Machine
end

