-- ==== Sys2Proof/Machine/Flags.lean ====
section
/-! DEFINITION. Flags: the words STATUS, IE, VALID and ERR_CODE as the host reads them, write-one-to-clear (10_state.md R24),
the VALID table (R57), EMPTY (60_exceptions.md R258) and the interrupt output (10_state.md R58). -/

namespace Sys2Proof.Machine

/-- STATUS.BUSY (10_state.md R53). -/
def State.busy (s : State) : Bool :=
  match s.phase with
  | .idle => false
  | .busy _ => true

/-- A Bool as bit k of a word. -/
def bitAt (k : Nat) (b : Bool) : Word := if b then BitVec.ofNat 32 (2 ^ k) else 0#32

/-- The word STATUS (10_state.md R23). -/
def State.statusWord (s : State) : Word :=
  bitAt 0 s.busy ||| bitAt 1 s.status.done ||| bitAt 2 s.status.err ||| bitAt 3 s.status.ovr ||| bitAt 4 s.status.empty

/-- The word IE (10_state.md R25). -/
def State.ieWord (s : State) : Word := bitAt 0 s.ie.doneIe ||| bitAt 1 s.ie.errIe

/-- The word VALID (10_state.md R41). -/
def State.validWord (s : State) : Word :=
  bitAt 0 s.valid.freq ||| bitAt 1 s.valid.tree ||| bitAt 2 s.valid.code ||| bitAt 3 s.valid.dtab

/-- The word ERR_CODE: {0, STEP, SUB, CODE} (10_state.md R26). -/
def State.errCodeWord (s : State) : Word := 0#8 ++ s.errs.step ++ s.errs.sub ++ s.errs.code

/-- A host write of d to STATUS: W1C of DONE, ERR and OVR; BUSY and EMPTY unchanged (10_state.md R24). -/
def Status.w1c (st : Status) (d : Word) : Status :=
  { st with
    done := st.done && !d.getLsbD 1
    err := st.err && !d.getLsbD 2
    ovr := st.ovr && !d.getLsbD 3 }

/-- The state after a write of d to IE (10_state.md R25). -/
def IntEnable.ofWord (d : Word) : IntEnable := { doneIe := d.getLsbD 0, errIe := d.getLsbD 1 }

/-- EMPTY <- e (60_exceptions.md R258). -/
def Status.setEmpty (st : Status) (e : Bool) : Status := { st with empty := e }

/-- VALID after a successful FREQ (10_state.md R57). -/
def Valid.afterFreq (v : Valid) : Valid := { v with freq := true, tree := false, code := false }

/-- VALID after a successful BUILD (10_state.md R57). -/
def Valid.afterBuild (v : Valid) : Valid := { v with tree := true, code := false }

/-- VALID after a successful CANON (10_state.md R57). -/
def Valid.afterCanon (v : Valid) : Valid := { v with code := true }

/-- VALID after a successful ENCODE (10_state.md R57). -/
def Valid.afterEncode (v : Valid) : Valid := { v with dtab := false }

/-- VALID after a successful LOADTAB (10_state.md R57). -/
def Valid.afterLoadtab (v : Valid) : Valid := { v with dtab := true }

/-- VALID after a LOADTAB error (10_state.md R57). -/
def Valid.afterLoadtabError (v : Valid) : Valid := { v with dtab := false }

/-- The interrupt output IRQ, a level computed from STATUS and IE (10_state.md R58, 60_exceptions.md R256). -/
def State.irq (s : State) : Bool :=
  (s.status.done && s.ie.doneIe) || ((s.status.err || s.status.ovr) && s.ie.errIe)

end Sys2Proof.Machine
end

