-- ==== Sys2Proof/Machine/Operands.lean ====
section
/-! DEFINITION. Where commands take their operands from (30_encoding.md R93): no command has an operand field, so the operand forms
are the input bytes, the table entries and the artifact's fields. The byte lanes of a bus word (20_memory.md R66) stand here too. -/

namespace Sys2Proof.Machine

/-- N = x[IN_LEN] (10_state.md R29). -/
def State.inputLen (s : State) : Nat := s.inLen.toNat

/-- The input bytes IBUF[0..IN_LEN), in order. -/
def State.input (s : State) : List Byte := s.bytesAt .ibuf 0 s.inputLen

/-- FREQ[i] (10_state.md R45). -/
def State.freqAt (s : State) (i : Nat) : Word := s.freq[i]?.getD 0#32

/-- LEN[i] (10_state.md R46). -/
def State.lenAt (s : State) (i : Nat) : Byte := s.len[i]?.getD 0#8

/-- CODE[i] (10_state.md R48). -/
def State.codeAt (s : State) (i : Nat) : Word := s.code[i]?.getD 0#32

/-- NODE[i] (10_state.md R47). -/
def State.nodeAt (s : State) (i : Nat) : Node := s.node[i]?.getD Node.zero

/-- DTAB[j] (10_state.md R49). -/
def State.dtabAt (s : State) (j : Nat) : DEntry := s.dtab[j]?.getD DEntry.zero

/-- The symbols present, ascending: those s with FREQ[s] > 0 (42_tree.md R151, 10_state.md R45). -/
def State.present (s : State) : List Nat := indicesWhere (fun w => decide (0 < w.toNat)) s.freq

/-- The symbols that have a code, ascending: those s with LEN[s] > 0 (45_encoder.md R193). -/
def State.coded (s : State) : List Nat := indicesWhere (fun n => decide (0 < n.toNat)) s.len

/-- The live decode-table entries DTAB[0..DTAB_N) (46_decoder.md R220). -/
def State.liveEntries (s : State) : List DEntry := s.dtab.toList.take s.dtabN.toNat

/-- Table entry j of an artifact in ABUF: symbol, code-length, code-bits at offset 6 + 6j (30_encoding.md R100, R104). -/
structure TabEntry where
  sym : Nat
  len : Nat
  code : Nat
  deriving DecidableEq, Repr

/-- The fields of entry j, read as 46_decoder.md R214 reads them. -/
def State.tabEntry (s : State) (j : Nat) : TabEntry where
  sym := s.memRead .abuf (6 + 6 * j) 1
  len := s.memRead .abuf (6 + 6 * j + 1) 1
  code := s.memRead .abuf (6 + 6 * j + 2) 4

/-- "p is a prefix of q" for codes as (length, value) pairs (00_scope.md R13). -/
def codePrefix (np cp nq cq : Nat) : Bool := decide (np ≤ nq) && decide (cq >>> (nq - np) = cp)

/-! ## Byte lanes of a bus word -/

/-- Lane k of bus data: bits [8k+7:8k] (20_memory.md R60, R66). -/
def laneOf (d : Word) (k : Nat) : Byte := d.extractLsb' (8 * k) 8

/-- The bus word whose lanes 0 to 3 are the given bytes: little-endian (20_memory.md R66). -/
def ofLanes (b0 b1 b2 b3 : Byte) : Word := b3 ++ b2 ++ b1 ++ b0

end Sys2Proof.Machine
end

