-- ==== Sys2Proof/Machine/Bus.lean ====
section
/-! DEFINITION. The host bus (20_memory.md): the address map R62, host reads and host writes, the write-during-BUSY hazard
(70_reset_and_hazards.md R280, R281) and reads during BUSY (R282). Addresses are relative to HCORE_BASE (R76). -/

namespace Sys2Proof.Machine

/-- The control registers (10_state.md R44). -/
inductive Reg where
  | id
  | cmd
  | status
  | ie
  | errCode
  | errInfo
  | errAux
  | inLen
  | artLen
  | nsym
  | nnodes
  | root
  | payBits
  | outLen
  | payOff
  | payBytes
  | dtabN
  | outCnt
  | decBits
  | valid
  | pInMax
  | pArtMax
  | pOutMax
  | pLmax
  deriving DecidableEq, Repr

/-- The offset of a register (10_state.md R44). -/
def Reg.offset : Reg → Nat
  | .id => 0x000
  | .cmd => 0x004
  | .status => 0x008
  | .ie => 0x00C
  | .errCode => 0x010
  | .errInfo => 0x014
  | .errAux => 0x018
  | .inLen => 0x020
  | .artLen => 0x024
  | .nsym => 0x028
  | .nnodes => 0x02C
  | .root => 0x030
  | .payBits => 0x034
  | .outLen => 0x038
  | .payOff => 0x03C
  | .payBytes => 0x040
  | .dtabN => 0x044
  | .outCnt => 0x048
  | .decBits => 0x04C
  | .valid => 0x050
  | .pInMax => 0x060
  | .pArtMax => 0x064
  | .pOutMax => 0x068
  | .pLmax => 0x06C

/-- The register at an offset of the register window; none where the offset is reserved (10_state.md R43, R44). -/
def Reg.ofOffset (off : Nat) : Option Reg :=
  match off with
  | 0x000 => some .id
  | 0x004 => some .cmd
  | 0x008 => some .status
  | 0x00C => some .ie
  | 0x010 => some .errCode
  | 0x014 => some .errInfo
  | 0x018 => some .errAux
  | 0x020 => some .inLen
  | 0x024 => some .artLen
  | 0x028 => some .nsym
  | 0x02C => some .nnodes
  | 0x030 => some .root
  | 0x034 => some .payBits
  | 0x038 => some .outLen
  | 0x03C => some .payOff
  | 0x040 => some .payBytes
  | 0x044 => some .dtabN
  | 0x048 => some .outCnt
  | 0x04C => some .decBits
  | 0x050 => some .valid
  | 0x060 => some .pInMax
  | 0x064 => some .pArtMax
  | 0x068 => some .pOutMax
  | 0x06C => some .pLmax
  | _ => none

/-- What stands at a word address (20_memory.md R62). -/
inductive Loc where
  | reg (r : Reg)
  | freq (i : Nat)
  | code (i : Nat)
  | len (i : Nat)
  | nodeWeight (i : Nat)
  | nodeLinks (i : Nat)
  | dtabCode (j : Nat)
  | dtabInfo (j : Nat)
  | buf (b : Buf) (i : Nat)
  | reserved
  deriving DecidableEq, Repr

/-- The word address `a & 0xFFFFFFFC` (20_memory.md R61). -/
def wordAddr (a : Word) : Nat := (a &&& 0xFFFFFFFC#32).toNat

/-- The address map (20_memory.md R62), on a word address. -/
def locOf (wa : Nat) : Loc :=
  if wa < 0x00400 then
    match Reg.ofOffset wa with
    | some r => .reg r
    | none => .reserved
  else if wa < 0x00800 then .freq ((wa - 0x00400) / 4)
  else if wa < 0x00C00 then .code ((wa - 0x00800) / 4)
  else if wa < 0x00D00 then .len (wa - 0x00C00)
  else if wa < 0x01000 then .reserved
  else if wa < 0x02000 then
    if wa % 8 = 0 then .nodeWeight ((wa - 0x01000) / 8) else .nodeLinks ((wa - 0x01000) / 8)
  else if wa < 0x02800 then
    if wa % 8 = 0 then .dtabCode ((wa - 0x02000) / 8) else .dtabInfo ((wa - 0x02000) / 8)
  else if wa < 0x10000 then .reserved
  else if wa < 0x20000 then .buf .ibuf (wa - 0x10000)
  else if wa < 0x40000 then .buf .abuf (wa - 0x20000)
  else if wa < 0x50000 then .buf .obuf (wa - 0x40000)
  else .reserved

/-- The base of a buffer's window (20_memory.md R62). -/
def windowBase : Buf → Nat
  | .ibuf => 0x10000
  | .abuf => 0x20000
  | .obuf => 0x40000

/-- The word a register reads as (10_state.md R21 to R42). -/
def State.regWord (s : State) : Reg → Word
  | .id => 0x48554646#32
  | .cmd => s.cmd
  | .status => s.statusWord
  | .ie => s.ieWord
  | .errCode => s.errCodeWord
  | .errInfo => s.errs.info
  | .errAux => s.errs.aux
  | .inLen => s.inLen
  | .artLen => s.artLen
  | .nsym => s.nsym.setWidth 32
  | .nnodes => s.nnodes.setWidth 32
  | .root => s.root.setWidth 32
  | .payBits => s.payBits
  | .outLen => s.outLen
  | .payOff => s.payOff
  | .payBytes => s.payBytes
  | .dtabN => s.dtabN.setWidth 32
  | .outCnt => s.outCnt
  | .decBits => s.decBits
  | .valid => s.validWord
  | .pInMax => BitVec.ofNat 32 s.params.inMax
  | .pArtMax => BitVec.ofNat 32 s.params.artMax
  | .pOutMax => BitVec.ofNat 32 s.params.outMax
  | .pLmax => BitVec.ofNat 32 lMax

/-- Word 1 of an arena entry: {LEAF, 0, SYM, C1, C0} (10_state.md R47). -/
def Node.links (n : Node) : Word := BitVec.ofBool n.leaf ++ 0#5 ++ n.sym ++ n.c1 ++ n.c0

/-- Word 1 of a decode-table entry: {V, 0, LEN, SYM} (10_state.md R49). -/
def DEntry.info (e : DEntry) : Word := BitVec.ofBool e.v ++ 0#15 ++ e.len ++ e.sym

/-- One lane of a buffer word: the byte, or 0 at or past the capacity (20_memory.md R65). -/
def State.bufLane (s : State) (b : Buf) (i : Nat) : Byte :=
  if i < capOf s.params b then s.byteAt b i else 0#8

/-- The true word at a location (20_memory.md R62, R64 to R66). Arena entry 511 does not exist and reads 0. -/
def State.locWord (s : State) : Loc → Word
  | .reg r => s.regWord r
  | .freq i => s.freqAt i
  | .code i => s.codeAt i
  | .len i => ofLanes (s.lenAt i) (s.lenAt (i + 1)) (s.lenAt (i + 2)) (s.lenAt (i + 3))
  | .nodeWeight i => (s.nodeAt i).w
  | .nodeLinks i => (s.nodeAt i).links
  | .dtabCode j => (s.dtabAt j).code
  | .dtabInfo j => (s.dtabAt j).info
  | .buf b i => ofLanes (s.bufLane b i) (s.bufLane b (i + 1)) (s.bufLane b (i + 2)) (s.bufLane b (i + 3))
  | .reserved => 0#32

/-- The registers that read exactly during BUSY (70_reset_and_hazards.md R282). -/
def Reg.exactInBusy : Reg → Bool
  | .id | .cmd | .status | .ie | .pInMax | .pArtMax | .pOutMax | .pLmax => true
  | _ => false

/-- The locations that read exactly during BUSY: the list of R282, and reserved space, which reads 0. -/
def Loc.exactInBusy : Loc → Bool
  | .reg r => r.exactInBusy
  | .reserved => true
  | _ => false

/-- A read of this location in this state returns a draw (70_reset_and_hazards.md R282). -/
def State.readDraws (s : State) (l : Loc) : Bool := s.busy && !l.exactInBusy

/-- The data of a host read (20_memory.md R77, 70_reset_and_hazards.md R282). -/
def State.readData (s : State) (a : Word) : Word :=
  if s.readDraws (locOf (wordAddr a)) then Config.freeWord s.draws else s.locWord (locOf (wordAddr a))

/-- `HostRead(a)`: no state of the machine changes (20_memory.md R69); the model notes the data and the draw it used. -/
def hostRead (s : State) (a : Word) : State :=
  { s with
    reads := s.readData a :: s.reads
    draws := if s.readDraws (locOf (wordAddr a)) then s.draws + 1 else s.draws }

/-- Lane k of a write to buffer index i is effective: its strobe is set and the index is below the capacity
(20_memory.md R65, R67). -/
def laneOn (p : Params) (b : Buf) (i : Nat) (strb : Strobe) (k : Nat) : Bool :=
  strb.getLsbD k && decide (i + k < capOf p b)

/-- One lane of a buffer write (20_memory.md R67). -/
def State.writeLane (b : Buf) (i : Nat) (d : Word) (strb : Strobe) (s : State) (k : Nat) : State :=
  if laneOn s.params b i strb k then s.setBuf b ((s.buf b).set (i + k) (laneOf d k)) else s

/-- A write changes state when the core is idle: full strobes to CMD, IN_LEN or ART_LEN, or an effective lane of IBUF or ABUF
(70_reset_and_hazards.md R280). -/
def storesAt (p : Params) (l : Loc) (strb : Strobe) : Bool :=
  match l with
  | .reg .cmd | .reg .inLen | .reg .artLen => strb == 0xF#4
  | .buf .ibuf i => [0, 1, 2, 3].any (laneOn p .ibuf i strb)
  | .buf .abuf i => [0, 1, 2, 3].any (laneOn p .abuf i strb)
  | _ => false

/-- The effect of a storing write while the core is idle (20_memory.md R63, R67; CMD: 40_control.md R120). -/
def State.store (s : State) (l : Loc) (d : Word) (strb : Strobe) : State :=
  match l with
  | .reg .cmd => s.accept d
  | .reg .inLen => { s with inLen := d }
  | .reg .artLen => { s with artLen := d }
  | .buf .ibuf i => [0, 1, 2, 3].foldl (State.writeLane .ibuf i d strb) s
  | .buf .abuf i => [0, 1, 2, 3].foldl (State.writeLane .abuf i d strb) s
  | _ => s

/-- A dropped write sets OVR and changes nothing else (70_reset_and_hazards.md R280). -/
def State.dropWrite (s : State) : State := { s with status := { s.status with ovr := true } }

/-- The effect of a host write on a location: STATUS and IE at any time (R281), a storing write when idle and dropped when BUSY
(R280), and nothing otherwise. -/
def State.writeLoc (s : State) (l : Loc) (d : Word) (strb : Strobe) : State :=
  match l with
  | .reg .status => if strb = 0xF#4 then { s with status := s.status.w1c d } else s
  | .reg .ie => if strb = 0xF#4 then { s with ie := IntEnable.ofWord d } else s
  | l => if storesAt s.params l strb then if s.busy then s.dropWrite else s.store l d strb else s

/-- `HostWrite(a, d, strb)` (20_memory.md R60). -/
def hostWrite (s : State) (a d : Word) (strb : Strobe) : State := s.writeLoc (locOf (wordAddr a)) d strb

end Sys2Proof.Machine
end

