-- ==== Sys2Proof/Machine/Codegen.lean ====
section
/-! DEFINITION. The canonical code table generator: CANON (43_codegen.md). -/

namespace Sys2Proof.Machine

/-- The order "by length then symbol" on (length, symbol) pairs (43_codegen.md R172). -/
abbrev lenSymLe (a b : Nat × Nat) : Prop := a.1 < b.1 ∨ (a.1 = b.1 ∧ a.2 ≤ b.2)

/-- The pairs (LEN[s], s) with LEN[s] > 0, ascending by length, then by symbol (43_codegen.md R172). -/
def State.canonOrder (s : State) : List (Nat × Nat) :=
  (s.coded.map fun i => ((s.lenAt i).toNat, i)).insertionSort lenSymLe

/-- The canonical recurrence after a code c of length nPrev: each code is (c + 1) << (n - nPrev), a natural number; the result
pairs each symbol with its code (43_codegen.md R172). -/
def canonNext (nPrev c : Nat) : List (Nat × Nat) → List (Nat × Nat)
  | [] => []
  | (n, sym) :: rest => (sym, (c + 1) <<< (n - nPrev)) :: canonNext n ((c + 1) <<< (n - nPrev)) rest

/-- The canonical assignment: the first code is 0 (43_codegen.md R172). -/
def canonCodes : List (Nat × Nat) → List (Nat × Nat)
  | [] => []
  | (n, sym) :: rest => (sym, 0) :: canonNext n 0 rest

/-- The code paired with symbol i, 0 when i has none. -/
def codeOf (ps : List (Nat × Nat)) (i : Nat) : Nat :=
  match ps.find? fun p => p.1 == i with
  | none => 0
  | some p => p.2

/-- The table CODE: the canonical codes mod 2^32, 0 for a symbol without one (43_codegen.md R172). -/
def codeTable (ps : List (Nat × Nat)) : Vector Word 256 := tabulate 256 fun i => BitVec.ofNat 32 (codeOf ps i)

/-- The lowest symbol whose code length is above LMAX (43_codegen.md R171). -/
def State.tooLong (s : State) : Option Nat := (indicesWhere (fun n => decide (lMax < n.toNat)) s.len).head?

/-- CANON's effect (43_codegen.md R171): the lowest symbol with LEN > LMAX is reported; nothing is kept on error. -/
def runCanon (s : State) : Result :=
  if s.valid.tree then
    match s.tooLong with
    | some i => .raised s { step := Instr.canon.opc, kind := .codeTooLong, info := i, aux := (s.lenAt i).toNat }
    | none =>
      .done { s with
        code := codeTable (canonCodes s.canonOrder)
        valid := s.valid.afterCanon
        status := s.status.setEmpty (s.nsym == 0#9) }
  else .raised s { step := Instr.canon.opc, kind := .missingTree, info := 0, aux := 0 }

/-- CANON (43_codegen.md R171). -/
def execCanon (s : State) : Host.Outcome State Fault Refusal := .next (runCanon s).finish

end Sys2Proof.Machine
end

