-- ==== Sys2Proof/Machine/Control.lean ====
section
/-! DEFINITION. The control commands NOP and CLEAR and the illegal command (40_control.md R123 to R125). -/

namespace Sys2Proof.Machine

/-- NOP's effect: EMPTY <- 0 (40_control.md R123). -/
def runNop (s : State) : Result := .done { s with status := s.status.setEmpty false }

/-- NOP (40_control.md R123). -/
def execNop (s : State) : Host.Outcome State Fault Refusal := .next (runNop s).finish

/-- CLEAR's effect: the register and table reset, CMD and the buffers kept (40_control.md R124). -/
def runClear (s : State) : Result := .done s.resetRegs

/-- CLEAR (40_control.md R124). -/
def execClear (s : State) : Host.Outcome State Fault Refusal := .next (runClear s).finish

/-- The error row of an illegal word (60_exceptions.md R241). -/
def illegalKind : Illegal → ErrKind
  | .undefinedOpc => .undefinedOpc
  | .reservedBits => .reservedBits

/-- An illegal word w: ILLEGAL_COMMAND with info = w and STEP = w[7:0], and nothing else changes (40_control.md R125). -/
def runIllegal (w : Word) (r : Illegal) (s : State) : Result :=
  .raised s { step := opcField w, kind := illegalKind r, info := w.toNat, aux := 0 }

end Sys2Proof.Machine
end

