-- ==== Sys2Proof/Machine/BitStream.lean ====
section
/-! DEFINITION. The bit-stream writer and reader (44_bitstream.md): most significant bit first, zero padding
(30_encoding.md R110, R111). The writer and the reader are primitives of ENCODE and DECODE; their positions are not architectural
(10_state.md R54). -/

namespace Sys2Proof.Machine

/-- The bits of a code (length n, value c), most significant first: c[n-1], ..., c[0] (00_scope.md R13, 44_bitstream.md R181). -/
def codeBits (n c : Nat) : List Bool := (List.range n).map fun k => c.testBit (n - 1 - k)

/-- The byte whose bits 7, 6, ..., 0 are the given ones. -/
def byteOfBits (b7 b6 b5 b4 b3 b2 b1 b0 : Bool) : Byte :=
  BitVec.ofBool b7 ++ BitVec.ofBool b6 ++ BitVec.ofBool b5 ++ BitVec.ofBool b4 ++
    BitVec.ofBool b3 ++ BitVec.ofBool b2 ++ BitVec.ofBool b1 ++ BitVec.ofBool b0

/-- The bytes the writer leaves for a bit string: bit p in byte p >> 3 at position 7 - (p & 7), the last byte padded with zeros
(30_encoding.md R110, R111; 44_bitstream.md R182). -/
def packBits : List Bool → List Byte
  | [] => []
  | [b7] => [byteOfBits b7 false false false false false false false]
  | [b7, b6] => [byteOfBits b7 b6 false false false false false false]
  | [b7, b6, b5] => [byteOfBits b7 b6 b5 false false false false false]
  | [b7, b6, b5, b4] => [byteOfBits b7 b6 b5 b4 false false false false]
  | [b7, b6, b5, b4, b3] => [byteOfBits b7 b6 b5 b4 b3 false false false]
  | [b7, b6, b5, b4, b3, b2] => [byteOfBits b7 b6 b5 b4 b3 b2 false false]
  | [b7, b6, b5, b4, b3, b2, b1] => [byteOfBits b7 b6 b5 b4 b3 b2 b1 false]
  | b7 :: b6 :: b5 :: b4 :: b3 :: b2 :: b1 :: b0 :: rest => byteOfBits b7 b6 b5 b4 b3 b2 b1 b0 :: packBits rest

/-- The bits of a byte, most significant first. -/
def bitsOfByte (b : Byte) : List Bool :=
  [b.getLsbD 7, b.getLsbD 6, b.getLsbD 5, b.getLsbD 4, b.getLsbD 3, b.getLsbD 2, b.getLsbD 1, b.getLsbD 0]

/-- The bits the reader returns, in order, from the payload bytes: 8 for each byte, which is the reader's limit
(44_bitstream.md R183, R184). -/
def unpackBits (bs : List Byte) : List Bool := bs.flatMap bitsOfByte

/-- The writer as 44_bitstream.md R181 describes it: base index, bit count and the memory written to. -/
structure Writer where
  base : Nat
  p : Nat
  mem : Memory
  deriving DecidableEq, Repr

/-- `PutBit(v)` (44_bitstream.md R181). -/
def Writer.putBit (w : Writer) (v : Bool) : Writer :=
  let j := w.base + w.p / 8
  let m := if w.p % 8 = 0 then w.mem.set j 0x00#8 else w.mem
  let old := (m.get? j).getD 0x00#8
  { w with p := w.p + 1, mem := m.set j (old ||| (BitVec.ofNat 8 v.toNat <<< (7 - w.p % 8))) }

/-- `PutBit` of every bit of a string in turn. -/
def Writer.putBits (w : Writer) (bits : List Bool) : Writer := bits.foldl Writer.putBit w

/-- `GetBit()` at position q of the payload at base index b, without its limit check (44_bitstream.md R183). -/
def State.payloadBit (s : State) (b q : Nat) : Bool := ((s.memRead .abuf (b + q / 8) 1) >>> (7 - q % 8)) % 2 == 1

end Sys2Proof.Machine
end

