-- ==== Sys2Proof/Machine/Decoder.lean ====
section
/-! DEFINITION. The decoder: LOADTAB, DECODE and DECOMPRESS (46_decoder.md). -/

namespace Sys2Proof.Machine

/-! ## LOADTAB -/

/-- The checks of entry j, in the order of 46_decoder.md R214; `last` is the symbol of entry j - 1. -/
def entryError (j : Nat) (last : Option Nat) (e : TabEntry) : Option Raise :=
  if e.len < 1 ∨ lMax < e.len then some { step := Instr.loadtab.opc, kind := .badLen, info := j, aux := e.len }
  else if 2 ^ e.len ≤ e.code then some { step := Instr.loadtab.opc, kind := .badCode, info := j, aux := e.code }
  else
    match last with
    | none => none
    | some p => if e.sym ≤ p then some { step := Instr.loadtab.opc, kind := .badOrder, info := j, aux := e.sym } else none

/-- The first failing entry from entry j on (46_decoder.md R214). -/
def entriesError : Nat → Option Nat → List TabEntry → Option Raise
  | _, _, [] => none
  | j, last, e :: rest =>
    match entryError j last e with
    | some r => some r
    | none => entriesError (j + 1) (some e.sym) rest

/-- The first pair (j, k), j outer and k inner, both ascending, with entry j a prefix of entry k, k ≠ j (46_decoder.md R215). -/
def prefixPair (es : List TabEntry) : Option (Nat × Nat) :=
  es.zipIdx.findSome? fun p =>
    es.zipIdx.findSome? fun q =>
      if q.2 ≠ p.2 ∧ codePrefix p.1.len p.1.code q.1.len q.1.code = true then some (p.2, q.2) else none

/-- A = x[ART_LEN]. -/
def State.artifactLen (s : State) : Nat := s.artLen.toNat

/-- L, the header's original_length (46_decoder.md R210). -/
def State.headerLen (s : State) : Nat := s.memRead .abuf 0 4

/-- K, the header's distinct_symbol_count (46_decoder.md R210). -/
def State.headerCount (s : State) : Nat := s.memRead .abuf 4 2

/-- The K entries of the stored table. -/
def State.tabEntries (s : State) : List TabEntry := (List.range s.headerCount).map s.tabEntry

/-- The first failing check of LOADTAB, in the order of 46_decoder.md R210 to R215. -/
def State.loadtabError (s : State) : Option Raise :=
  if s.params.artMax < s.artifactLen then
    some { step := Instr.loadtab.opc, kind := .overflowArt, info := s.artifactLen, aux := s.params.artMax }
  else if s.artifactLen < 6 then
    some { step := Instr.loadtab.opc, kind := .truncHdr, info := s.artifactLen, aux := 6 }
  else if 256 < s.headerCount then
    some { step := Instr.loadtab.opc, kind := .badCount, info := s.headerCount, aux := 256 }
  else if s.artifactLen < 6 + 6 * s.headerCount then
    some { step := Instr.loadtab.opc, kind := .truncTable, info := s.artifactLen, aux := 6 + 6 * s.headerCount }
  else
    match entriesError 0 none s.tabEntries with
    | some r => some r
    | none =>
      match prefixPair s.tabEntries with
      | some (j, k) => some { step := Instr.loadtab.opc, kind := .notPrefixFree, info := j, aux := k }
      | none => none

/-- DTAB entry of a stored entry (46_decoder.md R216). -/
def TabEntry.toDEntry (e : TabEntry) : DEntry where
  v := true
  sym := BitVec.ofNat 8 e.sym
  len := BitVec.ofNat 8 e.len
  code := BitVec.ofNat 32 e.code

/-- The table DTAB: the stored entries, then all-zero entries (46_decoder.md R216). -/
def dtabTable (es : List TabEntry) : Vector DEntry 256 :=
  tabulate 256 fun j => (es[j]?.map TabEntry.toDEntry).getD DEntry.zero

/-- LOADTAB's effect: commit (46_decoder.md R216), or V.DTAB <- 0 and nothing else kept (R217). -/
def runLoadtab (s : State) : Result :=
  match s.loadtabError with
  | some r => .raised { s with valid := s.valid.afterLoadtabError } r
  | none =>
    .done { s with
      dtab := dtabTable s.tabEntries
      dtabN := BitVec.ofNat 9 s.headerCount
      outLen := BitVec.ofNat 32 s.headerLen
      payOff := BitVec.ofNat 32 (6 + 6 * s.headerCount)
      payBytes := BitVec.ofNat 32 (s.artifactLen - (6 + 6 * s.headerCount))
      valid := s.valid.afterLoadtab
      status := s.status.setEmpty (s.headerLen == 0) }

/-- LOADTAB (46_decoder.md R210). -/
def execLoadtab (s : State) : Host.Outcome State Fault Refusal := .next (runLoadtab s).finish

/-! ## DECODE -/

/-- How the decode loop ends: all symbols emitted, the reader past its limit, or a bit path with no leaf (46_decoder.md R222). -/
inductive DecodeEnd where
  | complete
  | exhausted
  | noLeaf
  deriving DecidableEq, Repr

/-- The end of the loop: its kind, the emitted symbols in order and the bits consumed q. -/
structure Decoded where
  how : DecodeEnd
  out : List Byte
  bits : Nat
  deriving DecidableEq, Repr

/-- One more emitted symbol in front. -/
def Decoded.push (sym : Byte) : Decoded → Decoded
  | { how, out, bits } => { how, out := sym :: out, bits }

/-- The first live entry whose code is (l, acc): the leaf (46_decoder.md R222; at most one matches, R223, log entry 9). -/
def leafAt (tab : List DEntry) (l acc : Nat) : Option DEntry :=
  tab.find? fun e => e.len.toNat == l && e.code.toNat == acc

/-- Some longer live entry's code continues (l, acc) (46_decoder.md R222). -/
def hasPath (tab : List DEntry) (l acc : Nat) : Bool :=
  tab.any fun e => decide (l < e.len.toNat) && e.code.toNat >>> (e.len.toNat - l) == acc

/-- The decode loop (46_decoder.md R222): `left` symbols to emit, the reader's remaining bits, q bits consumed, the partial code
(l, acc). With no bit left the reader is at its limit (44_bitstream.md R183). -/
def decodeLoop (tab : List DEntry) : List Bool → Nat → Nat → Nat → Nat → Decoded
  | _, 0, q, _, _ => { how := .complete, out := [], bits := q }
  | [], _ + 1, q, _, _ => { how := .exhausted, out := [], bits := q }
  | v :: rest, left + 1, q, l, acc =>
    match leafAt tab (l + 1) (2 * acc + v.toNat) with
    | some e => (decodeLoop tab rest left (q + 1) 0 0).push e.sym
    | none =>
      if hasPath tab (l + 1) (2 * acc + v.toNat) then
        decodeLoop tab rest (left + 1) (q + 1) (l + 1) (2 * acc + v.toNat)
      else { how := .noLeaf, out := [], bits := q + 1 }

/-- The payload bytes ABUF[PAY_OFF .. PAY_OFF + PAY_BYTES) (46_decoder.md R220). -/
def State.payload (s : State) : List Byte := s.bytesAt .abuf s.payOff.toNat s.payBytes.toNat

/-- The loop on the state's table, payload and OUT_LEN. -/
def State.decoded (s : State) : Decoded :=
  decodeLoop s.liveEntries (unpackBits s.payload) s.outLen.toNat 0 0 0

/-- The emitted symbols written, OUT_CNT and DEC_BITS set: what both a success and a loop error leave
(46_decoder.md R224, R226). -/
def State.putDecoded (s : State) (d : Decoded) : State :=
  { s.putBytes .obuf 0 d.out with outCnt := BitVec.ofNat 32 d.out.length, decBits := BitVec.ofNat 32 d.bits }

/-- The result of a loop that ended: success (46_decoder.md R224), or its error with the output kept (R226). -/
def State.decodeResult (s : State) (d : Decoded) : Result :=
  match d.how with
  | .complete => .done { s.putDecoded d with status := s.status.setEmpty (s.outLen == 0#32) }
  | .exhausted =>
    .raised (s.putDecoded d) { step := Instr.decode.opc, kind := .outOfRange, info := d.out.length, aux := d.bits }
  | .noLeaf =>
    .raised (s.putDecoded d) { step := Instr.decode.opc, kind := .noLeafPath, info := d.out.length, aux := d.bits }

/-- DECODE's effect (46_decoder.md R220 to R226). -/
def runDecode (s : State) : Result :=
  if s.valid.dtab then
    if s.params.outMax < s.outLen.toNat then
      .raised s { step := Instr.decode.opc, kind := .overflowOut, info := s.outLen.toNat, aux := s.params.outMax }
    else
      s.decodeResult s.decoded
  else .raised s { step := Instr.decode.opc, kind := .missingDtab, info := 0, aux := 0 }

/-- DECODE (46_decoder.md R220). -/
def execDecode (s : State) : Host.Outcome State Fault Refusal := .next (runDecode s).finish

/-- DECOMPRESS's effect: LOADTAB, then DECODE, stopping at the first error (46_decoder.md R228, 40_control.md R127). -/
def runDecompress (s : State) : Result := (runLoadtab s).andThen runDecode

/-- DECOMPRESS (46_decoder.md R228). -/
def execDecompress (s : State) : Host.Outcome State Fault Refusal := .next (runDecompress s).finish

end Sys2Proof.Machine
end

