-- ==== Sys2Proof/Machine/Frequency.lean ====
section
/-! DEFINITION. The frequency table pipeline: FREQ (41_frequency.md). -/

namespace Sys2Proof.Machine

/-- How often symbol i occurs in a byte string. -/
def countOf (bs : List Byte) (i : Nat) : Nat := bs.countP fun b => b.toNat = i

/-- The frequency table of a byte string (41_frequency.md R141). -/
def freqTable (bs : List Byte) : Vector Word 256 := tabulate 256 fun i => BitVec.ofNat 32 (countOf bs i)

/-- FREQ's effect (41_frequency.md R141): nothing is kept on error. -/
def runFreq (s : State) : Result :=
  if s.params.inMax < s.inputLen then
    .raised s { step := Instr.freq.opc, kind := .overflowIn, info := s.inputLen, aux := s.params.inMax }
  else
    .done { s with
      freq := freqTable s.input
      valid := s.valid.afterFreq
      status := s.status.setEmpty (s.inputLen == 0) }

/-- FREQ (41_frequency.md R141). -/
def execFreq (s : State) : Host.Outcome State Fault Refusal := .next (runFreq s).finish

end Sys2Proof.Machine
end

