-- ==== Sys2Proof/Machine/Tree.lean ====
section
/-! DEFINITION. The tree builder: BUILD (42_tree.md). -/

namespace Sys2Proof.Machine

/-- A member of the active set: a node's weight and its arena index, the key that R153 orders by. -/
structure Active where
  w : Word
  idx : Nat
  deriving DecidableEq, Repr

/-- Lexicographic order of (weight, index): lower weight first, then lower index (42_tree.md R153). -/
def Active.before (a b : Active) : Bool := decide (a.w < b.w) || (decide (a.w = b.w) && decide (a.idx < b.idx))

/-- The argmin of the active set (42_tree.md R153). -/
def argmin : List Active → Option Active
  | [] => none
  | a :: rest =>
    match argmin rest with
    | none => some a
    | some b => if b.before a then some b else some a

/-- The leaf of a symbol (42_tree.md R152). -/
def leafNode (w : Word) (sym : Nat) : Node := { w := w, leaf := true, sym := BitVec.ofNat 8 sym, c0 := 0#9, c1 := 0#9 }

/-- The weight of an internal node: the exact sum of its children's weights (42_tree.md R157), a free value where that sum does
not fit 32 bits, which no run reaches (log entry 8). -/
def sumWeight (x y : Word) : Word := if x.toNat + y.toNat < 2 ^ 32 then x + y else Config.freeWeight x y

/-- The internal node over x (extracted first, the zero-child) and y (the one-child) (42_tree.md R153). -/
def innerNode (x y : Active) : Node :=
  { w := sumWeight x.w y.w, leaf := false, sym := 0#8, c0 := BitVec.ofNat 9 x.idx, c1 := BitVec.ofNat 9 y.idx }

/-- Greedy combination (42_tree.md R153): `t` times extract the two least members of the active set, append their parent to the
arena and put it into the active set. -/
def combine : Nat → List Node → List Active → List Node
  | 0, nodes, _ => nodes
  | t + 1, nodes, act =>
    match argmin act with
    | none => nodes
    | some x =>
      match argmin (act.erase x) with
      | none => nodes
      | some y =>
        combine t (nodes ++ [innerNode x y])
          ((act.erase x).erase y ++ [{ w := (innerNode x y).w, idx := nodes.length }])

/-- The leaves NODE[0..K-1], in ascending order of symbol (42_tree.md R152). -/
def State.leaves (s : State) : List Node := s.present.map fun i => leafNode (s.freqAt i) i

/-- The first active set {0, ..., K-1} (42_tree.md R153). -/
def firstActive (leaves : List Node) : List Active := leaves.zipIdx.map fun p => { w := p.1.w, idx := p.2 }

/-- The arena NODE[0..NNODES) that BUILD writes over these leaves: K - 1 combinations (42_tree.md R151 to R153). -/
def arenaOf (leaves : List Node) : List Node := combine (leaves.length - 1) leaves (firstActive leaves)

/-- (symbol, depth) of every leaf below node i, which itself has depth d (42_tree.md R156): each child link adds one. The fuel
bounds the descent; a tree of n nodes needs at most n. -/
def leafDepths (nodes : List Node) : Nat → Nat → Nat → List (Byte × Nat)
  | 0, _, _ => []
  | fuel + 1, i, d =>
    match nodes[i]? with
    | none => []
    | some n =>
      if n.leaf then [(n.sym, d)]
      else leafDepths nodes fuel n.c0.toNat (d + 1) ++ leafDepths nodes fuel n.c1.toNat (d + 1)

/-- NNODES: 0 if K = 0, and 2K - 1 otherwise (10_state.md R32). -/
def nodeCount (k : Nat) : Nat := if k = 0 then 0 else 2 * k - 1

/-- ROOT: 0x1FF if K = 0 (42_tree.md R154), and 2K - 2 otherwise (42_tree.md R151; 0 for K = 1, R155). -/
def rootIndex (k : Nat) : Nat := if k = 0 then 0x1FF else 2 * k - 2

/-- The code lengths BUILD writes, as (symbol, length) pairs: length 1 for a single symbol (42_tree.md R155), the depths of the
leaves for K ≥ 2 (42_tree.md R156). -/
def codeLengths (leaves nodes : List Node) : List (Byte × Nat) :=
  match leaves with
  | [] => []
  | [n] => [(n.sym, 1)]
  | _ => leafDepths nodes nodes.length (rootIndex leaves.length) 0

/-- The length paired with symbol i, 0 when i is absent. -/
def lengthOf (ps : List (Byte × Nat)) (i : Nat) : Nat :=
  match ps.find? fun p => p.1.toNat == i with
  | none => 0
  | some p => p.2

/-- The table NODE: the arena, then all-zero entries (42_tree.md R152). -/
def nodeTable (nodes : List Node) : Vector Node 511 := tabulate 511 fun i => nodes[i]?.getD Node.zero

/-- The table LEN: the code lengths, 0 for an absent symbol (42_tree.md R156). -/
def lenTable (ps : List (Byte × Nat)) : Vector Byte 256 := tabulate 256 fun i => BitVec.ofNat 8 (lengthOf ps i)

/-- What a successful BUILD commits, from the leaves and the arena (42_tree.md R151). -/
def State.commitBuild (s : State) (leaves nodes : List Node) : State :=
  { s with
    node := nodeTable nodes
    len := lenTable (codeLengths leaves nodes)
    nsym := BitVec.ofNat 9 leaves.length
    nnodes := BitVec.ofNat 9 (nodeCount leaves.length)
    root := BitVec.ofNat 9 (rootIndex leaves.length)
    valid := s.valid.afterBuild
    status := s.status.setEmpty (leaves.length == 0) }

/-- BUILD's effect (42_tree.md R151): nothing is kept on error. -/
def runBuild (s : State) : Result :=
  if s.valid.freq then .done (s.commitBuild s.leaves (arenaOf s.leaves))
  else .raised s { step := Instr.build.opc, kind := .missingFreq, info := 0, aux := 0 }

/-- BUILD (42_tree.md R151). -/
def execBuild (s : State) : Host.Outcome State Fault Refusal := .next (runBuild s).finish

end Sys2Proof.Machine
end

