-- ==== Sys2Proof/Machine/Encoder.lean ====
section
/-! DEFINITION. The encoder: ENCODE and COMPRESS (45_encoder.md). -/

namespace Sys2Proof.Machine

/-- The first (lowest) index of the byte string whose symbol has no code, with that symbol (45_encoder.md R190). -/
def State.unknownAt (s : State) (bs : List Byte) : Option (Byte × Nat) :=
  bs.zipIdx.find? fun p => (s.lenAt p.1.toNat).toNat == 0

/-- P, the number of meaningful payload bits: the sum of the code lengths of the input symbols (30_encoding.md R108). -/
def State.payloadSize (s : State) : Nat := (s.input.map fun b => (s.lenAt b.toNat).toNat).sum

/-- T = 6 + 6 K + ceil8(P), the artifact's length (45_encoder.md R190). -/
def State.artifactSize (s : State) : Nat := 6 + 6 * s.coded.length + ceil8 s.payloadSize

/-- The 6 bytes of symbol i's table entry (30_encoding.md R104, 45_encoder.md R193). -/
def State.entryBytes (s : State) (i : Nat) : List Byte :=
  beBytes 1 i ++ beBytes 1 (s.lenAt i).toNat ++ beBytes 4 (s.codeAt i).toNat

/-- The payload's bits: the codes of the input symbols in input order (30_encoding.md R108). -/
def State.payloadBits (s : State) : List Bool :=
  s.input.flatMap fun b => codeBits (s.lenAt b.toNat).toNat (s.codeAt b.toNat).toNat

/-- The artifact: header, table in ascending order of symbol, packed payload (30_encoding.md R100, 45_encoder.md R193). -/
def State.artifact (s : State) : List Byte :=
  beBytes 4 s.inputLen ++ beBytes 2 s.coded.length ++ s.coded.flatMap s.entryBytes ++ packBits s.payloadBits

/-- ENCODE's effect (45_encoder.md R190, R193): every check precedes the first write, so nothing is kept on error (R192). -/
def runEncode (s : State) : Result :=
  if s.valid.code then
    if s.params.inMax < s.inputLen then
      .raised s { step := Instr.encode.opc, kind := .overflowIn, info := s.inputLen, aux := s.params.inMax }
    else
      match s.unknownAt s.input with
      | some (b, i) => .raised s { step := Instr.encode.opc, kind := .unknownSymbol, info := i, aux := b.toNat }
      | none =>
        if s.params.artMax < s.artifactSize then
          .raised s { step := Instr.encode.opc, kind := .overflowArt, info := s.artifactSize, aux := s.params.artMax }
        else
          .done { s.putBytes .abuf 0 s.artifact with
            artLen := BitVec.ofNat 32 s.artifactSize
            payBits := BitVec.ofNat 32 s.payloadSize
            valid := s.valid.afterEncode
            status := s.status.setEmpty (s.inputLen == 0) }
  else .raised s { step := Instr.encode.opc, kind := .missingCode, info := 0, aux := 0 }

/-- ENCODE (45_encoder.md R190). -/
def execEncode (s : State) : Host.Outcome State Fault Refusal := .next (runEncode s).finish

/-- COMPRESS's effect: FREQ, BUILD, CANON, ENCODE, stopping at the first error (45_encoder.md R198, 40_control.md R127). -/
def runCompress (s : State) : Result :=
  (((runFreq s).andThen runBuild).andThen runCanon).andThen runEncode

/-- COMPRESS (45_encoder.md R198). -/
def execCompress (s : State) : Host.Outcome State Fault Refusal := .next (runCompress s).finish

end Sys2Proof.Machine
end

