-- ==== Sys2Proof/Machine/Dispatch.lean ====
section
/-! DEFINITION. One arm per command: the completion step of a legal command (40_control.md R121, R122). -/

namespace Sys2Proof.Machine

def exec (i : Instr) (s : State) : Host.Outcome State Fault Refusal :=
  match i with
  | .nop => Sys2Proof.Machine.execNop s
  | .clear => Sys2Proof.Machine.execClear s
  | .freq => Sys2Proof.Machine.execFreq s
  | .build => Sys2Proof.Machine.execBuild s
  | .canon => Sys2Proof.Machine.execCanon s
  | .encode => Sys2Proof.Machine.execEncode s
  | .compress => Sys2Proof.Machine.execCompress s
  | .loadtab => Sys2Proof.Machine.execLoadtab s
  | .decode => Sys2Proof.Machine.execDecode s
  | .decompress => Sys2Proof.Machine.execDecompress s

end Sys2Proof.Machine
end

