-- ==== Sys2Proof/Machine/Reset.lean ====
section
/-! DEFINITION. The reset event (70_reset_and_hazards.md R270 to R273), also in the middle of a command. -/

namespace Sys2Proof.Machine

/-- How many bytes ABUF[0..n) an ENCODE or COMPRESS with this result writes (45_encoder.md R192, R193): the whole artifact, or
nothing when a check fails. -/
def Result.abufBytes : Result → Nat
  | .done s => s.artLen.toNat
  | .raised _ _ => 0

/-- How many bytes OBUF[0..n) a DECODE or DECOMPRESS with this result writes (46_decoder.md R224, R226). -/
def Result.obufBytes : Result → Nat
  | .done s => s.outCnt.toNat
  | .raised s e =>
    match e.kind with
    | .outOfRange | .noLeafPath => s.outCnt.toNat
    | _ => 0

/-- The first n bytes of a buffer turned into fresh draws (93_implementation_defined.md I7). -/
def State.scramble (s : State) (b : Buf) (n : Nat) : State :=
  { s.putBytes b 0 ((List.range n).map fun i => Config.freeByte s.draws b i) with draws := s.draws + 1 }

/-- What an aborted command w leaves in the buffers: every byte it could have written is a draw
(70_reset_and_hazards.md R272; log entry 7). -/
def State.abort (s : State) (w : Word) : State :=
  match decodeWord w with
  | .ok .encode => s.scramble .abuf (runEncode s).abufBytes
  | .ok .compress => s.scramble .abuf (runCompress s).abufBytes
  | .ok .decode => s.scramble .obuf (runDecode s).obufBytes
  | .ok .decompress => s.scramble .obuf (runDecompress s).obufBytes
  | .ok _ => s
  | .error _ => s

/-- The buffers after a power-on: every byte a draw (70_reset_and_hazards.md R270, 93_implementation_defined.md I3). -/
def State.powerOnBuffers (s : State) : State :=
  { s with ibuf := { cells := [] }, abuf := { cells := [] }, obuf := { cells := [] }, powerOnId := s.draws, draws := s.draws + 1 }

/-- The buffers at a reset (70_reset_and_hazards.md R270). -/
def State.resetBuffers (s : State) (powerOn : Bool) : State :=
  if powerOn then s.powerOnBuffers
  else
    match s.phase with
    | .idle => s
    | .busy w => s.abort w

/-- The registers, tables and phase at a reset: R271, then CMD and STATUS zero and phase IDLE
(70_reset_and_hazards.md R270). -/
def State.resetCore (s : State) : State :=
  { s.resetRegs with
    cmd := 0x00000000#32
    status := { done := false, err := false, ovr := false, empty := false }
    phase := .idle }

/-- The reset event (70_reset_and_hazards.md R270). -/
def resetEvent (s : State) (powerOn : Bool) : State := (s.resetBuffers powerOn).resetCore

end Sys2Proof.Machine
end

