-- ==== Sys2Proof/Machine/Agents.lean ====
section
/-! DEFINITION. The agents (00_scope.md R6) and whose turn it is: the head of the agenda moves; with an empty agenda the core
moves (log entry 3). -/

namespace Sys2Proof.Machine

/-- The completion step on the accepted word w: the effect of the command it decodes to, or an illegal command
(40_control.md R121, R122). -/
def completeWord (w : Word) (s : State) : Host.Outcome State Fault Refusal :=
  match decodeWord w with
  | .ok i => exec i s
  | .error r => .next (runIllegal w r s).finish

/-- The core's turn: the completion step in phase BUSY(w); the core has no step while it is idle (00_scope.md R6). -/
def coreTurn (s : State) : Host.Outcome State Fault Refusal :=
  match s.phase with
  | .idle => .next s
  | .busy w => completeWord w s

/-- An address of the platform's bus relative to HCORE_BASE (20_memory.md R76; log entry 2). -/
def State.relAddr (s : State) (a : Word) : Word := a - s.params.base

/-- What one event does. -/
def perform (s : State) : Event → Host.Outcome State Fault Refusal
  | .hostRead a => .next (hostRead s (s.relAddr a))
  | .hostWrite a d strb => .next (hostWrite s (s.relAddr a) d strb)
  | .reset powerOn => .next (resetEvent s powerOn)
  | .coreTurn => coreTurn s

/-- One step of the whole: the next event of the agenda, or the core's turn when the agenda is empty. -/
def takeTurn (s : State) : Host.Outcome State Fault Refusal :=
  match s.agenda with
  | [] => coreTurn s
  | e :: rest => perform { s with agenda := rest } e

/-- The word of a row, cut to the row's bits, accepted with the core's turn next: the very next step runs it
(log entry 10). -/
def State.withCommand (s : State) (nbits w : Nat) : State :=
  { s.accept (BitVec.ofNat 32 (w % 2 ^ nbits)) with agenda := .coreTurn :: s.agenda }

end Sys2Proof.Machine
end

