-- ==== Sys2Proof/Machine/Step.lean ====
section
/-! DEFINITION. One step of HCORE with its host (Machine/Agents.lean), and how the host of this package places a command word. -/

namespace Sys2Proof.Machine

/-- One step: a host transaction, a reset, or the core's completion step (00_scope.md R6). -/
def step (s : State) : Host.Outcome State Fault Refusal := takeTurn s

/-- The state in which the command word w is accepted and the core moves next (log entry 10). -/
def State.withFetchWord (s : State) (nbits w : Nat) : State := s.withCommand nbits w

end Sys2Proof.Machine
end

