-- ==== Sys2Proof/Machine/Program.lean ====
section
/-! DEFINITION. Host programs: the statements and pseudo-instructions of 30_encoding.md R114 to R116, each as the list of events it
expands to. Labels, branches and name bindings are the host language's own; the data of each RD stands in State.reads.
Where the core's completion step falls among the transactions is open in the spec (70_reset_and_hazards.md R290); a program of this
file says it, inside WAIT or as a statement of its own (log entry 12). -/

namespace Sys2Proof.Machine

/-- A statement of the host notation (30_encoding.md R114, R115). DESIGN CHOICE (log entry 12): `polls` is how many times WAIT
reads STATUS before the core's completion step falls, and `coreStep`, which is no statement of the notation, is a completion step
that falls at this place, between a CMD and its WAIT; a WAIT behind it polls once (polls = 0). -/
inductive Stmt where
  | wr (addr : Nat) (data : Word)
  | wrStrb (addr : Nat) (data : Word) (strb : Strobe)
  | rd (addr : Nat)
  | cmd (i : Instr)
  | cmdw (w : Word)
  | coreStep
  | wait (polls : Nat)
  | run (i : Instr) (polls : Nat)
  | setlen (n : Word)
  | setart (n : Word)
  | put (b : Buf) (o : Nat) (bytes : List Byte)
  | get (b : Buf) (o n : Nat)
  | clrst
  deriving DecidableEq, Repr

/-- The word addresses from (x) & ~3 up to (x + n - 1) & ~3, step 4 (30_encoding.md R115). DESIGN CHOICE: none for n = 0, a case
the notation does not name (log entry 15). -/
def wordsOf (x n : Nat) : List Nat :=
  if n = 0 then [] else (List.range ((x + n - 1) / 4 + 1 - x / 4)).map fun t => 4 * (x / 4 + t)

/-- Byte of the list that PUT places at bus address y, when the list starts at address x (30_encoding.md R115). -/
def placed (x : Nat) (bytes : List Byte) (y : Nat) : Option Byte := if x ≤ y then bytes[y - x]? else none

/-- The strobe whose bit k says that lane k is enabled. -/
def strobeOf (k0 k1 k2 k3 : Bool) : Strobe :=
  BitVec.ofBool k3 ++ BitVec.ofBool k2 ++ BitVec.ofBool k1 ++ BitVec.ofBool k0

/-- The write that PUT makes to the word at wa (30_encoding.md R115). -/
def putWord (base : Word) (x : Nat) (bytes : List Byte) (wa : Nat) : Event :=
  .hostWrite (base + BitVec.ofNat 32 wa)
    (ofLanes ((placed x bytes wa).getD 0#8) ((placed x bytes (wa + 1)).getD 0#8) ((placed x bytes (wa + 2)).getD 0#8)
      ((placed x bytes (wa + 3)).getD 0#8))
    (strobeOf (placed x bytes wa).isSome (placed x bytes (wa + 1)).isSome (placed x bytes (wa + 2)).isSome
      (placed x bytes (wa + 3)).isSome)

/-- A full-strobe write to an offset. -/
def wrEvent (base : Word) (addr : Nat) (data : Word) : Event := .hostWrite (base + BitVec.ofNat 32 addr) data 0xF#4

/-- A read of an offset. -/
def rdEvent (base : Word) (addr : Nat) : Event := .hostRead (base + BitVec.ofNat 32 addr)

/-- WAIT: `polls` reads of STATUS while the command is BUSY, its completion, and the read that sees BUSY = 0
(30_encoding.md R115). DESIGN CHOICE: the completion falls behind the last of these polls (log entry 12); where it fell before, the
core's turn here changes nothing. -/
def waitEvents (base : Word) (polls : Nat) : List Event :=
  List.replicate polls (rdEvent base Reg.status.offset) ++ [.coreTurn, rdEvent base Reg.status.offset]

/-- The events of a statement on a platform with base address `base` (30_encoding.md R114, R115). -/
def Stmt.events (base : Word) : Stmt → List Event
  | .wr addr data => [wrEvent base addr data]
  | .wrStrb addr data strb => [.hostWrite (base + BitVec.ofNat 32 addr) data strb]
  | .rd addr => [rdEvent base addr]
  | .cmd i => [wrEvent base Reg.cmd.offset (encode i)]
  | .cmdw w => [wrEvent base Reg.cmd.offset w]
  | .coreStep => [.coreTurn]
  | .wait polls => waitEvents base polls
  | .run i polls => wrEvent base Reg.cmd.offset (encode i) :: waitEvents base polls
  | .setlen n => [wrEvent base Reg.inLen.offset n]
  | .setart n => [wrEvent base Reg.artLen.offset n]
  | .put b o bytes => (wordsOf (windowBase b + o) bytes.length).map (putWord base (windowBase b + o) bytes)
  | .get b o n => (wordsOf (windowBase b + o) n).map (rdEvent base)
  | .clrst => [wrEvent base Reg.status.offset 0x0000000E#32]

/-- The bytes GET binds: the lanes inside [o, o + n) of the words it read, in index order (30_encoding.md R115). -/
def gotBytes (b : Buf) (o n : Nat) (words : List Word) : List Byte :=
  ((words.flatMap fun w => [laneOf w 0, laneOf w 1, laneOf w 2, laneOf w 3]).drop ((windowBase b + o) % 4)).take n

/-- The agenda of a program: its statements in order (30_encoding.md R114). -/
def programEvents (base : Word) (p : List Stmt) : List Event := p.flatMap (Stmt.events base)

/-- The state with a host program put at the end of the agenda. -/
def State.withProgram (s : State) (p : List Stmt) : State :=
  { s with agenda := s.agenda ++ programEvents s.params.base p }

end Sys2Proof.Machine
end

