-- ==== Sys2Proof/Safety.lean ====
section
/-! DEFINITION. What a safe run of HCORE keeps, in the terms the statements use: each predicate is an invariant of every step, from
every state that meets it, not only from reset. -/

namespace Sys2Proof.Machine

/-- The buffers are in canonical form and hold nothing at or past their capacities (10_state.md R50 to R52, 00_scope.md R11). -/
def State.BuffersOk (s : State) : Prop :=
  ∀ b : Buf, (s.buf b).wf ∧ (s.buf b).within (capOf s.params b)

/-- In phase BUSY(w) the register CMD holds w and DONE is 0 (40_control.md R120, 70_reset_and_hazards.md R280, R281). -/
def State.PhaseOk (s : State) : Prop := ∀ w, s.phase = .busy w → s.cmd = w ∧ s.status.done = false

/-- The VALID bits of the encoder pipeline form a chain: CODE needs TREE, TREE needs FREQ (10_state.md R57). -/
def State.ValidChain (s : State) : Prop :=
  (s.valid.code = true → s.valid.tree = true) ∧ (s.valid.tree = true → s.valid.freq = true)

/-- NSYM, NNODES and ROOT describe one tree (10_state.md R31 to R33). -/
def State.TreeRegsOk (s : State) : Prop :=
  s.nsym.toNat ≤ 256 ∧ s.nnodes.toNat = nodeCount s.nsym.toNat ∧ s.root.toNat = rootIndex s.nsym.toNat

/-- While V.CODE = 1 every code length fits the code entry (43_codegen.md R171, 45_encoder.md R194). -/
def State.LengthsOk (s : State) : Prop := s.valid.code = true → ∀ i < 256, (s.lenAt i).toNat ≤ lMax

/-- While V.DTAB = 1 the decode table is what LOADTAB accepts: DTAB_N live entries with lengths 1 to 32, codes that fit, symbols
strictly ascending and no code a prefix of another, then all-zero entries, and a payload inside ABUF
(46_decoder.md R211 to R216). -/
def State.DtabOk (s : State) : Prop :=
  s.valid.dtab = true →
    s.dtabN.toNat ≤ 256 ∧
    s.payOff.toNat = 6 + 6 * s.dtabN.toNat ∧
    s.payOff.toNat + s.payBytes.toNat ≤ s.params.artMax ∧
    (∀ j < s.dtabN.toNat,
      (s.dtabAt j).v = true ∧ 1 ≤ (s.dtabAt j).len.toNat ∧ (s.dtabAt j).len.toNat ≤ lMax ∧
      (s.dtabAt j).code.toNat < 2 ^ (s.dtabAt j).len.toNat) ∧
    (∀ j < 256, s.dtabN.toNat ≤ j → s.dtabAt j = DEntry.zero) ∧
    (∀ j < s.dtabN.toNat, ∀ k < s.dtabN.toNat, j < k → (s.dtabAt j).sym.toNat < (s.dtabAt k).sym.toNat) ∧
    (∀ j < s.dtabN.toNat, ∀ k < s.dtabN.toNat, j ≠ k →
      codePrefix (s.dtabAt j).len.toNat (s.dtabAt j).code.toNat (s.dtabAt k).len.toNat (s.dtabAt k).code.toNat = false)

/-- The recorded (CODE, SUB) is that of no error, or of a row of 60_exceptions.md R241. -/
def State.ErrorOk (s : State) : Prop :=
  (s.errs.code, s.errs.sub) ∈
    [(0x00#8, 0x00#8), (0x01#8, 0x00#8), (0x02#8, 0x01#8), (0x02#8, 0x02#8), (0x02#8, 0x03#8), (0x02#8, 0x04#8), (0x02#8, 0x05#8),
      (0x02#8, 0x06#8), (0x02#8, 0x07#8), (0x02#8, 0x08#8), (0x03#8, 0x00#8), (0x04#8, 0x01#8), (0x04#8, 0x02#8), (0x05#8, 0x01#8),
      (0x05#8, 0x02#8), (0x05#8, 0x04#8), (0x05#8, 0x08#8), (0x06#8, 0x01#8), (0x06#8, 0x02#8), (0x06#8, 0x03#8), (0x07#8, 0x00#8)]

/-- All of it. -/
structure State.Inv (s : State) : Prop where
  buffers : s.BuffersOk
  phase : s.PhaseOk
  chain : s.ValidChain
  treeRegs : s.TreeRegsOk
  lengths : s.LengthsOk
  dtab : s.DtabOk
  error : s.ErrorOk

/-- The artifact in ABUF[0..ART_LEN) passes every check of LOADTAB (46_decoder.md R211 to R215): lengths, count, then lengths 1
to 32, codes that fit, symbols strictly ascending and no code a prefix of another. -/
def State.StoredTableOk (s : State) : Prop :=
  s.artLen.toNat ≤ s.params.artMax ∧
  6 ≤ s.artLen.toNat ∧
  s.memRead .abuf 4 2 ≤ 256 ∧
  6 + 6 * s.memRead .abuf 4 2 ≤ s.artLen.toNat ∧
  (∀ j < s.memRead .abuf 4 2,
    1 ≤ (s.tabEntry j).len ∧ (s.tabEntry j).len ≤ lMax ∧ (s.tabEntry j).code < 2 ^ (s.tabEntry j).len) ∧
  (∀ j, j + 1 < s.memRead .abuf 4 2 → (s.tabEntry j).sym < (s.tabEntry (j + 1)).sym) ∧
  (∀ j < s.memRead .abuf 4 2, ∀ k < s.memRead .abuf 4 2, j ≠ k →
    codePrefix (s.tabEntry j).len (s.tabEntry j).code (s.tabEntry k).len (s.tabEntry k).code = false)

/-- The codes a command can record, as (STEP, SUB, CODE), in the order of its checks (60_exceptions.md R243). -/
def errorsOf : Instr → List (Byte × Byte × Byte)
  | .nop => []
  | .clear => []
  | .freq => [(0x10#8, 0x01#8, 0x06#8)]
  | .build => [(0x11#8, 0x01#8, 0x05#8)]
  | .canon => [(0x12#8, 0x02#8, 0x05#8), (0x12#8, 0x00#8, 0x07#8)]
  | .encode => [(0x13#8, 0x04#8, 0x05#8), (0x13#8, 0x01#8, 0x06#8), (0x13#8, 0x00#8, 0x03#8), (0x13#8, 0x02#8, 0x06#8)]
  | .compress => [(0x10#8, 0x01#8, 0x06#8), (0x12#8, 0x00#8, 0x07#8), (0x13#8, 0x02#8, 0x06#8)]
  | .loadtab =>
    [(0x20#8, 0x02#8, 0x06#8), (0x20#8, 0x01#8, 0x02#8), (0x20#8, 0x02#8, 0x02#8), (0x20#8, 0x03#8, 0x02#8),
      (0x20#8, 0x04#8, 0x02#8), (0x20#8, 0x05#8, 0x02#8), (0x20#8, 0x06#8, 0x02#8), (0x20#8, 0x07#8, 0x02#8)]
  | .decode => [(0x21#8, 0x08#8, 0x05#8), (0x21#8, 0x03#8, 0x06#8), (0x21#8, 0x00#8, 0x01#8), (0x21#8, 0x08#8, 0x02#8)]
  | .decompress =>
    [(0x20#8, 0x02#8, 0x06#8), (0x20#8, 0x01#8, 0x02#8), (0x20#8, 0x02#8, 0x02#8), (0x20#8, 0x03#8, 0x02#8),
      (0x20#8, 0x04#8, 0x02#8), (0x20#8, 0x05#8, 0x02#8), (0x20#8, 0x06#8, 0x02#8), (0x20#8, 0x07#8, 0x02#8),
      (0x21#8, 0x03#8, 0x06#8), (0x21#8, 0x00#8, 0x01#8), (0x21#8, 0x08#8, 0x02#8)]

end Sys2Proof.Machine
end

