-- ==== Sys2Proof/Certificates/Slice0/Obligations.lean ====
section
/-! DEFINITION. The statements for the provers, from the numbered rules of spec/. Each says which rule it formalises. -/

open Sys2Proof Sys2Proof.Machine

/-! ## Encoding -/

/-- The ten words of the opcode map decode to their commands (30_encoding.md R91), and two illegal words do not decode. -/
def Obligations.OpcodeMapWordsDecode : Prop :=
  decodeWord 0x00000000#32 = .ok .nop ∧ decodeWord 0x00000001#32 = .ok .clear ∧ decodeWord 0x00000010#32 = .ok .freq ∧
  decodeWord 0x00000011#32 = .ok .build ∧ decodeWord 0x00000012#32 = .ok .canon ∧ decodeWord 0x00000013#32 = .ok .encode ∧
  decodeWord 0x0000001F#32 = .ok .compress ∧ decodeWord 0x00000020#32 = .ok .loadtab ∧
  decodeWord 0x00000021#32 = .ok .decode ∧ decodeWord 0x0000002F#32 = .ok .decompress ∧
  decodeWord 0x00000002#32 = .error .undefinedOpc ∧ decodeWord 0xFF000013#32 = .error .reservedBits

/-- Decoding and encoding agree: a word decodes to an instruction exactly when it is the instruction's word
(30_encoding.md R90, R91). -/
def Obligations.DecodingInvertsEncoding : Prop :=
  ∀ (w : Word) (i : Instr), i.wellFormed = true → (decodeWord w = .ok i ↔ w = encode i)

/-- The classification of every word, undefined OPC before reserved bits, then the command of the opcode map
(30_encoding.md R92), and the sub-code an illegal word records at its completion. -/
def Obligations.WordsAreClassifiedInOrder : Prop :=
  ∀ w : Word,
    (decodeWord w = .error .undefinedOpc ↔
      w.toNat % 256 ∉ [0x00, 0x01, 0x10, 0x11, 0x12, 0x13, 0x1F, 0x20, 0x21, 0x2F]) ∧
    (decodeWord w = .error .reservedBits ↔
      w.toNat % 256 ∈ [0x00, 0x01, 0x10, 0x11, 0x12, 0x13, 0x1F, 0x20, 0x21, 0x2F] ∧ w.toNat / 256 ≠ 0) ∧
    (∀ i, decodeWord w = .ok i ↔
      (i, w.toNat) ∈ [(Instr.nop, 0x00), (.clear, 0x01), (.freq, 0x10), (.build, 0x11), (.canon, 0x12), (.encode, 0x13),
        (.compress, 0x1F), (.loadtab, 0x20), (.decode, 0x21), (.decompress, 0x2F)]) ∧
    ((∃ i, decodeWord w = .ok i) ↔
      w.toNat % 256 ∈ [0x00, 0x01, 0x10, 0x11, 0x12, 0x13, 0x1F, 0x20, 0x21, 0x2F] ∧ w.toNat / 256 = 0) ∧
    (∀ s : State, w.toNat % 256 ∉ [0x00, 0x01, 0x10, 0x11, 0x12, 0x13, 0x1F, 0x20, 0x21, 0x2F] →
      ∃ t, completeWord w s = .next t ∧ t.errs.code = 0x04#8 ∧ t.errs.sub = 0x01#8) ∧
    (∀ s : State, w.toNat % 256 ∈ [0x00, 0x01, 0x10, 0x11, 0x12, 0x13, 0x1F, 0x20, 0x21, 0x2F] → w.toNat / 256 ≠ 0 →
      ∃ t, completeWord w s = .next t ∧ t.errs.code = 0x04#8 ∧ t.errs.sub = 0x02#8)

/-! ## The command protocol -/

/-- An illegal word completes with ILLEGAL_COMMAND and changes nothing else (40_control.md R125). -/
def Obligations.IllegalWordCompletesWithItsError : Prop :=
  ∀ (w : Word) (r : Illegal) (s : State), decodeWord w = .error r →
    completeWord w s = .next
      { s with
        phase := .idle
        status := { s.status with done := true, err := true }
        errs := {
          step := w.extractLsb' 0 8
          sub := match r with | .undefinedOpc => 0x01#8 | .reservedBits => 0x02#8
          code := 0x04#8
          info := w
          aux := 0#32 } }

/-- A step of the core runs the command the accepted word decodes to (40_control.md R121, R122), with an empty agenda, at the
core's turn, and after placing a word. -/
def Obligations.StepRunsTheAcceptedCommand : Prop :=
  ∀ (s : State) (w : Word) (i : Instr), i.wellFormed = true → decodeWord w = .ok i →
    (s.phase = .busy w → s.agenda = [] → step s = exec i s) ∧
    (∀ rest, s.phase = .busy w → s.agenda = .coreTurn :: rest → step s = exec i { s with agenda := rest }) ∧
    step (s.withFetchWord 32 w.toNat) = exec i (s.accept w)

/-- One event per step (00_scope.md R6, 20_memory.md R60, R76; the agenda and the base address are the model's own form, log
entries 2 and 3): the head of the agenda is what happens, on the state without it, at the address relative to the base. -/
def Obligations.StepTakesTheNextEvent : Prop :=
  ∀ (s : State) (rest : List Event),
    (∀ a, s.agenda = .hostRead a :: rest → step s = .next (hostRead { s with agenda := rest } (a - s.params.base))) ∧
    (∀ a d strb, s.agenda = .hostWrite a d strb :: rest →
      step s = .next (hostWrite { s with agenda := rest } (a - s.params.base) d strb)) ∧
    (∀ p, s.agenda = .reset p :: rest → step s = .next (resetEvent { s with agenda := rest } p))

/-- Acceptance (40_control.md R120): a full-strobe write to CMD while IDLE stores the word, makes the core BUSY and clears DONE;
ERR, OVR and EMPTY and everything else are unchanged. With other strobes nothing happens, and while BUSY the write is dropped. -/
def Obligations.CommandWriteIsAccepted : Prop :=
  ∀ (s : State) (w : Word) (strb : Strobe),
    (s.phase = .idle → strb = 0xF#4 →
      hostWrite s 0x004#32 w strb = { s with cmd := w, phase := .busy w, status := { s.status with done := false } }) ∧
    (strb ≠ 0xF#4 → hostWrite s 0x004#32 w strb = s) ∧
    (∀ v, s.phase = .busy v → strb = 0xF#4 →
      hostWrite s 0x004#32 w strb = { s with status := { s.status with ovr := true } })

/-- The core has no step while it is idle (00_scope.md R6): with nothing else to happen, nothing happens. -/
def Obligations.IdleCoreStandsStill : Prop :=
  ∀ s : State, s.phase = .idle →
    (s.agenda = [] → step s = .next s) ∧
    (∀ rest, s.agenda = .coreTurn :: rest → step s = .next { s with agenda := rest })

/-- The core never stops working (00_scope.md R18): every step answers a next state, and after every completion, with or without
an error, the core is idle, DONE is set and the next command is accepted. -/
def Obligations.CoreNeverStops : Prop :=
  (∀ s : State, ∃ t, step s = .next t) ∧
  (∀ (w : Word) (s : State), ∃ t, completeWord w s = .next t ∧ t.phase = .idle ∧ t.status.done = true ∧
    ∀ v : Word, (hostWrite t 0x004#32 v 0xF#4).phase = .busy v)

/-! ## Control commands -/

/-- NOP clears EMPTY, sets DONE and changes nothing else (40_control.md R123). -/
def Obligations.NopCompletes : Prop :=
  ∀ s : State, exec .nop s = .next
    { s with phase := .idle, status := { s.status with done := true, empty := false } }

/-- CLEAR puts every register but CMD and every table to its reset value, keeps the buffers and ends with STATUS = 0x00000002
(40_control.md R124, 70_reset_and_hazards.md R271). -/
def Obligations.ClearCompletes : Prop :=
  ∀ s : State, ∃ t, exec .clear s = .next t ∧ t.statusWord = 0x00000002#32 ∧
    t =
      { s with
        phase := .idle
        status := { done := true, err := false, ovr := false, empty := false }
        ie := { doneIe := false, errIe := false }
        errs := { step := 0#8, sub := 0#8, code := 0#8, info := 0#32, aux := 0#32 }
        inLen := 0#32, artLen := 0#32, nsym := 0#9, nnodes := 0#9, root := 0x1FF#9
        payBits := 0#32, outLen := 0#32, payOff := 0#32, payBytes := 0#32, dtabN := 0#9
        outCnt := 0#32, decBits := 0#32
        valid := { freq := false, tree := false, code := false, dtab := false }
        freq := Vector.replicate 256 0#32
        len := Vector.replicate 256 0#8
        node := Vector.replicate 511 { w := 0#32, leaf := false, sym := 0#8, c0 := 0#9, c1 := 0#9 }
        code := Vector.replicate 256 0#32
        dtab := Vector.replicate 256 { v := false, sym := 0#8, len := 0#8, code := 0#32 } }

/-! ## FREQ -/

/-- FREQ (41_frequency.md R141): FREQ[s] is the number of i < N with IBUF[i] = s, or BUFFER_OVERFLOW IN when N > IN_MAX; nothing
else changes but VALID, STATUS and, on error, the error registers. -/
def Obligations.FreqCountsTheInput : Prop :=
  ∀ s : State,
    (s.params.inMax < s.inLen.toNat →
      exec .freq s = .next
        { s with
          phase := .idle
          status := { s.status with done := true, err := true }
          errs := { step := 0x10#8, sub := 0x01#8, code := 0x06#8, info := s.inLen, aux := BitVec.ofNat 32 s.params.inMax } }) ∧
    (s.inLen.toNat ≤ s.params.inMax →
      ∃ fr : Vector Word 256,
        (∀ i < 256, (fr[i]?.getD 0#32).toNat =
          ((List.range s.inLen.toNat).filter fun k => (s.byteAt .ibuf k).toNat = i).length) ∧
        exec .freq s = .next
          { s with
            freq := fr
            phase := .idle
            valid := { s.valid with freq := true, tree := false, code := false }
            status := { s.status with done := true, empty := decide (s.inLen = 0#32) } })

/-- After a successful FREQ the counts add up to the input length, and the symbols with a count are exactly those present
(41_frequency.md R142). -/
def Obligations.FreqTotalsTheInputLength : Prop :=
  ∀ s t : State, s.inLen.toNat ≤ s.params.inMax → exec .freq s = .next t →
    ((List.range 256).map fun i => (t.freqAt i).toNat).sum = s.inLen.toNat ∧
    (∀ i < 256, (t.freqAt i).toNat ≤ s.inLen.toNat ∧
      (0 < (t.freqAt i).toNat ↔ ∃ k < s.inLen.toNat, (s.byteAt .ibuf k).toNat = i))

/-! ## BUILD -/

/-- BUILD (42_tree.md R151): SEQUENCE without a frequency table; otherwise NSYM = K, NNODES and ROOT of K, V.TREE set and V.CODE
cleared, EMPTY for K = 0, and it writes NODE and LEN and nothing else. -/
def Obligations.BuildCompletesOrReports : Prop :=
  ∀ s : State,
    (s.valid.freq = false →
      exec .build s = .next
        { s with
          phase := .idle
          status := { s.status with done := true, err := true }
          errs := { step := 0x11#8, sub := 0x01#8, code := 0x05#8, info := 0#32, aux := 0#32 } }) ∧
    (∀ k : Nat, s.valid.freq = true → k = ((List.range 256).filter fun i => 0 < (s.freqAt i).toNat).length →
      ∃ (nodes : Vector Node 511) (lens : Vector Byte 256),
        exec .build s = .next
          { s with
            node := nodes
            len := lens
            nsym := BitVec.ofNat 9 k
            nnodes := BitVec.ofNat 9 (if k = 0 then 0 else 2 * k - 1)
            root := if k = 0 then 0x1FF#9 else BitVec.ofNat 9 (2 * k - 2)
            phase := .idle
            valid := { s.valid with tree := true, code := false }
            status := { s.status with done := true, empty := decide (k = 0) } })

/-- The node arena (42_tree.md R152): leaves in ascending order of symbol, then the internal nodes, the root last, then all-zero
entries; each node but the root is the child of exactly one node. -/
def Obligations.BuildLaysOutTheArena : Prop :=
  ∀ (s t : State) (syms : List Nat), s.valid.freq = true → exec .build s = .next t →
    syms = ((List.range 256).filter fun i => 0 < (s.freqAt i).toNat) →
    (∀ k (h : k < syms.length), t.nodeAt k =
      { w := s.freqAt syms[k], leaf := true, sym := BitVec.ofNat 8 syms[k], c0 := 0#9, c1 := 0#9 }) ∧
    (∀ i, syms.length ≤ i → i + 1 < 2 * syms.length →
      (t.nodeAt i).leaf = false ∧ (t.nodeAt i).sym = 0#8 ∧ (t.nodeAt i).c0.toNat < i ∧ (t.nodeAt i).c1.toNat < i ∧
      (t.nodeAt i).c0 ≠ (t.nodeAt i).c1) ∧
    (∀ i < 511, 2 * syms.length ≤ i + 1 → t.nodeAt i = { w := 0#32, leaf := false, sym := 0#8, c0 := 0#9, c1 := 0#9 }) ∧
    (∀ j, j + 2 < 2 * syms.length →
      ∃! p, syms.length ≤ p ∧ p + 1 < 2 * syms.length ∧
        ((t.nodeAt p).c0.toNat = j ∨ (t.nodeAt p).c1.toNat = j))

/-- Greedy combination with the tie-break (42_tree.md R153): of the nodes that exist and have no parent yet, combination u takes
the least by (weight, index) as zero-child and the next least as one-child, and its weight is their sum (where that fits 32
bits, as it always does after FREQ, R157). -/
def Obligations.BuildCombinesTheTwoLeast : Prop :=
  ∀ (s t : State) (k u : Nat), s.valid.freq = true → exec .build s = .next t →
    k = ((List.range 256).filter fun i => 0 < (s.freqAt i).toNat).length → u + 1 < k →
    let free : Nat → Prop := fun j =>
      j < k + u ∧ ∀ p, k ≤ p → p < k + u → (t.nodeAt p).c0.toNat ≠ j ∧ (t.nodeAt p).c1.toNat ≠ j
    let less : Nat → Nat → Prop := fun a b =>
      (t.nodeAt a).w.toNat < (t.nodeAt b).w.toNat ∨ ((t.nodeAt a).w = (t.nodeAt b).w ∧ a < b)
    let x := (t.nodeAt (k + u)).c0.toNat
    let y := (t.nodeAt (k + u)).c1.toNat
    free x ∧ free y ∧ less x y ∧ (∀ j, free j → j ≠ x → j ≠ y → less y j) ∧
    ((t.nodeAt x).w.toNat + (t.nodeAt y).w.toNat < 2 ^ 32 →
      (t.nodeAt (k + u)).w.toNat = (t.nodeAt x).w.toNat + (t.nodeAt y).w.toNat)

/-- Code lengths (42_tree.md R156, with R155 for one symbol): the depth of each leaf, between 1 and K - 1; 0 for every absent
symbol; 1 for a single symbol. -/
def Obligations.BuildLengthsAreLeafDepths : Prop :=
  ∀ (s t : State) (syms : List Nat), s.valid.freq = true → exec .build s = .next t →
    syms = ((List.range 256).filter fun i => 0 < (s.freqAt i).toNat) →
    (∀ i < 256, s.freqAt i = 0#32 → t.lenAt i = 0#8) ∧
    (∀ i, syms = [i] → t.lenAt i = 1#8) ∧
    (2 ≤ syms.length →
      ∃ depth : Nat → Nat,
        depth (2 * syms.length - 2) = 0 ∧
        (∀ p, syms.length ≤ p → p + 1 < 2 * syms.length →
          depth (t.nodeAt p).c0.toNat = depth p + 1 ∧ depth (t.nodeAt p).c1.toNat = depth p + 1) ∧
        (∀ k (h : k < syms.length), (t.lenAt syms[k]).toNat = depth k ∧ 1 ≤ depth k ∧ depth k + 1 ≤ syms.length))

/-! ## CANON -/

/-- CANON (43_codegen.md R171): SEQUENCE without a tree, CODE_TOO_LONG at the lowest symbol with a length above 32, and otherwise
it writes CODE, sets V.CODE and EMPTY <- (NSYM = 0), and nothing else. -/
def Obligations.CanonCompletesOrReports : Prop :=
  ∀ s : State,
    (s.valid.tree = false →
      exec .canon s = .next
        { s with
          phase := .idle
          status := { s.status with done := true, err := true }
          errs := { step := 0x12#8, sub := 0x02#8, code := 0x05#8, info := 0#32, aux := 0#32 } }) ∧
    (∀ i < 256, s.valid.tree = true → 32 < (s.lenAt i).toNat → (∀ j < i, (s.lenAt j).toNat ≤ 32) →
      exec .canon s = .next
        { s with
          phase := .idle
          status := { s.status with done := true, err := true }
          errs := { step := 0x12#8, sub := 0x00#8, code := 0x07#8, info := BitVec.ofNat 32 i,
                    aux := (s.lenAt i).setWidth 32 } }) ∧
    (s.valid.tree = true → (∀ i < 256, (s.lenAt i).toNat ≤ 32) →
      ∃ codes : Vector Word 256,
        exec .canon s = .next
          { s with
            code := codes
            phase := .idle
            valid := { s.valid with code := true }
            status := { s.status with done := true, empty := decide (s.nsym = 0#9) } })

/-- The canonical assignment (43_codegen.md R172): along the symbols ordered by length, then by symbol, the first code is 0 and
each next one is (previous + 1) shifted left by the growth in length, reduced mod 2^32 where it is stored; a symbol without a
length has code 0. -/
def Obligations.CanonAssignsCanonicalCodes : Prop :=
  ∀ s t : State, s.valid.tree = true → (∀ i < 256, (s.lenAt i).toNat ≤ 32) → exec .canon s = .next t →
    (∀ i < 256, s.lenAt i = 0#8 → t.codeAt i = 0#32) ∧
    ∃ (order : List Nat) (cs : List Nat),
      (∀ i, i ∈ order ↔ i < 256 ∧ 0 < (s.lenAt i).toNat) ∧
      order.Pairwise (fun a b =>
        (s.lenAt a).toNat < (s.lenAt b).toNat ∨ ((s.lenAt a).toNat = (s.lenAt b).toNat ∧ a < b)) ∧
      cs.length = order.length ∧
      (∀ h : 0 < cs.length, cs[0] = 0) ∧
      (∀ m (h : m + 1 < cs.length) (h' : m + 1 < order.length),
        cs[m + 1] = (cs[m] + 1) <<< ((s.lenAt order[m + 1]).toNat - (s.lenAt order[m]).toNat)) ∧
      (∀ m (h : m < cs.length) (h' : m < order.length), t.codeAt order[m] = BitVec.ofNat 32 cs[m])

/-- BUILD then CANON gives a prefix-free table that codes exactly the present symbols, each code fitting its length
(43_codegen.md R174). -/
def Obligations.CanonicalCodesArePrefixFree : Prop :=
  ∀ s t u : State, s.valid.freq = true → exec .build s = .next t → (∀ i < 256, (t.lenAt i).toNat ≤ 32) →
    exec .canon t = .next u →
    (∀ i < 256, (0 < (u.lenAt i).toNat ↔ 0 < (s.freqAt i).toNat)) ∧
    (∀ i < 256, (u.codeAt i).toNat < 2 ^ (u.lenAt i).toNat) ∧
    (∀ i < 256, ∀ j < 256, i ≠ j → 0 < (u.lenAt i).toNat → 0 < (u.lenAt j).toNat →
      codePrefix (u.lenAt i).toNat (u.codeAt i).toNat (u.lenAt j).toNat (u.codeAt j).toNat = false)

/-! ## Bit stream -/

/-- Packing (30_encoding.md R110, R111): meaningful bit p sits in byte p >> 3 at position 7 - (p & 7); the bytes are ceil8(P) many
and every position past the meaningful bits is 0. -/
def Obligations.PackedBitsPositions : Prop :=
  ∀ bits : List Bool,
    (packBits bits).length = (bits.length + 7) / 8 ∧
    (∀ p (h : p < bits.length), ((packBits bits)[p / 8]?.getD 0#8).getLsbD (7 - p % 8) = bits[p]) ∧
    (∀ p, bits.length ≤ p → p < 8 * (packBits bits).length →
      ((packBits bits)[p / 8]?.getD 0#8).getLsbD (7 - p % 8) = false)

/-- The writer (44_bitstream.md R181): PutBit of every bit in turn leaves the packed bytes at its base index, whatever the memory
held, and counts the bits. -/
def Obligations.WriterLeavesPackedBits : Prop :=
  ∀ (m : Memory) (b : Nat) (bits : List Bool), m.wf →
    ((Writer.mk b 0 m).putBits bits).p = bits.length ∧
    ((Writer.mk b 0 m).putBits bits).mem.wf ∧
    (∀ i, ((Writer.mk b 0 m).putBits bits).mem.get? i = (m.writeBytes b (packBits bits)).get? i)

/-- The reader (44_bitstream.md R183): the bit at position q of the payload bytes, and the bits the writer packed come back in
order. -/
def Obligations.ReaderReturnsTheWrittenBits : Prop :=
  (∀ (s : State) (b n q : Nat), q < 8 * n →
    (unpackBits (s.bytesAt .abuf b n))[q]? = some (s.payloadBit b q) ∧
    s.payloadBit b q = ((((s.byteAt .abuf (b + q / 8)).toNat >>> (7 - q % 8)) % 2) == 1)) ∧
  (∀ bits : List Bool, (unpackBits (packBits bits)).take bits.length = bits)

/-! ## ENCODE and COMPRESS -/

/-- ENCODE writes the artifact (45_encoder.md R193, 30_encoding.md R100 to R108): header (N, K), the entries in ascending order of
symbol, then the codes of the input symbols in input order, MSB first, and zero bits to the end of the last byte; ABUF at T and
above, and everything else but ART_LEN, PAY_BITS, V.DTAB and STATUS, is unchanged. -/
def Obligations.EncodeWritesTheArtifact : Prop :=
  ∀ (s : State) (syms : List Nat) (p size : Nat),
    s.valid.code = true → s.inLen.toNat ≤ s.params.inMax →
    (∀ k < s.inLen.toNat, s.lenAt (s.byteAt .ibuf k).toNat ≠ 0#8) →
    syms = ((List.range 256).filter fun i => s.lenAt i ≠ 0#8) →
    p = ((List.range s.inLen.toNat).map fun k => (s.lenAt (s.byteAt .ibuf k).toNat).toNat).sum →
    size = 6 + 6 * syms.length + (p + 7) / 8 → size ≤ s.params.artMax →
    ∃ t, exec .encode s = .next t ∧
      t =
        { s with
          abuf := t.abuf
          artLen := BitVec.ofNat 32 size
          payBits := BitVec.ofNat 32 p
          phase := .idle
          valid := { s.valid with dtab := false }
          status := { s.status with done := true, empty := decide (s.inLen = 0#32) } } ∧
      (∀ i, size ≤ i → t.byteAt .abuf i = s.byteAt .abuf i) ∧
      t.memRead .abuf 0 4 = s.inLen.toNat ∧
      t.memRead .abuf 4 2 = syms.length ∧
      (∀ j (h : j < syms.length),
        t.memRead .abuf (6 + 6 * j) 1 = syms[j] ∧
        t.memRead .abuf (6 + 6 * j + 1) 1 = (s.lenAt syms[j]).toNat ∧
        t.memRead .abuf (6 + 6 * j + 2) 4 = (s.codeAt syms[j]).toNat) ∧
      unpackBits (t.bytesAt .abuf (6 + 6 * syms.length) ((p + 7) / 8)) =
        ((List.range s.inLen.toNat).flatMap fun k =>
          codeBits (s.lenAt (s.byteAt .ibuf k).toNat).toNat (s.codeAt (s.byteAt .ibuf k).toNat).toNat) ++
          List.replicate (8 * ((p + 7) / 8) - p) false

/-- ENCODE's errors in their check order, each leaving everything but the error registers and STATUS unchanged
(45_encoder.md R190, R192). -/
def Obligations.EncodeReportsItsFirstError : Prop :=
  ∀ (s : State) (p size : Nat),
    p = ((List.range s.inLen.toNat).map fun k => (s.lenAt (s.byteAt .ibuf k).toNat).toNat).sum →
    size = 6 + 6 * ((List.range 256).filter fun i => s.lenAt i ≠ 0#8).length + (p + 7) / 8 →
    let report : Byte → Byte → Word → Word → Prop := fun sub code info aux =>
      exec .encode s = .next
        { s with
          phase := .idle
          status := { s.status with done := true, err := true }
          errs := { step := 0x13#8, sub := sub, code := code, info := info, aux := aux } }
    (s.valid.code = false → report 0x04#8 0x05#8 0#32 0#32) ∧
    (s.valid.code = true → s.params.inMax < s.inLen.toNat →
      report 0x01#8 0x06#8 s.inLen (BitVec.ofNat 32 s.params.inMax)) ∧
    (∀ k < s.inLen.toNat, s.valid.code = true → s.inLen.toNat ≤ s.params.inMax →
      s.lenAt (s.byteAt .ibuf k).toNat = 0#8 → (∀ j < k, s.lenAt (s.byteAt .ibuf j).toNat ≠ 0#8) →
      report 0x00#8 0x03#8 (BitVec.ofNat 32 k) ((s.byteAt .ibuf k).setWidth 32)) ∧
    (s.valid.code = true → s.inLen.toNat ≤ s.params.inMax →
      (∀ k < s.inLen.toNat, s.lenAt (s.byteAt .ibuf k).toNat ≠ 0#8) → s.params.artMax < size →
      report 0x02#8 0x06#8 (BitVec.ofNat 32 size) (BitVec.ofNat 32 s.params.artMax))

/-- ENCODE's artifact is a function of the input bytes, IN_LEN and the code table alone (00_scope.md R17): two successful runs that
agree on these write the same artifact. -/
def Obligations.ArtifactDependsOnOperandsOnly : Prop :=
  ∀ s1 s2 t1 t2 : State, s1.inLen = s2.inLen →
    (∀ k < s1.inLen.toNat, s1.byteAt .ibuf k = s2.byteAt .ibuf k) → s1.len = s2.len → s1.code = s2.code →
    exec .encode s1 = .next t1 → exec .encode s2 = .next t2 →
    s1.status.err = false → t1.status.err = false → s2.status.err = false → t2.status.err = false →
    t1.artLen = t2.artLen ∧ t1.payBits = t2.payBits ∧
    ∀ i < t1.artLen.toNat, t1.byteAt .abuf i = t2.byteAt .abuf i

/-- FREQ, BUILD, CANON and ENCODE are precise (60_exceptions.md R255): a run that records an error changes no table, register or
buffer but the error registers and STATUS, and an error leaves EMPTY as it was. -/
def Obligations.PipelineErrorsArePrecise : Prop :=
  ∀ (i : Instr) (s t : State), i ∈ [Instr.freq, .build, .canon, .encode] → exec i s = .next t →
    (t.status.err = s.status.err ∧ t.errs = s.errs) ∨
    (t = { s with phase := .idle, errs := t.errs, status := { s.status with done := true, err := true } })

/-- A composite command runs its steps in order and stops at the first error (40_control.md R127): its outcome is that of the
single commands run one after the other, up to the first that raises. -/
def Obligations.CompositeCommandsRunTheirSteps : Prop :=
  (∀ s : State, s.params.inMax < s.inLen.toNat → exec .compress s = exec .freq s) ∧
  (∀ s a b c : State, s.inLen.toNat ≤ s.params.inMax →
    exec .freq s = .next a → exec .build a = .next b → exec .canon b = .next c →
    exec .compress s = if ∃ i : Fin 256, 32 < (b.lenAt i).toNat then .next c else exec .encode c) ∧
  (∀ s : State, ¬ s.StoredTableOk → exec .decompress s = exec .loadtab s) ∧
  (∀ s a : State, s.StoredTableOk → exec .loadtab s = .next a → exec .decompress s = exec .decode a)

/-- COMPRESS completes without error on every input that fits IBUF when ABUF has the default bound of 00_scope.md R7 for it
(R16, 45_encoder.md R194, R198): no code is too long, no symbol unknown and the artifact fits. -/
def Obligations.CompressSucceeds : Prop :=
  ∀ s : State, s.params.wellFormed = true → s.inLen.toNat ≤ s.params.inMax →
    6 + 6 * 256 + s.inLen.toNat ≤ s.params.artMax →
    ∃ t, exec .compress s = .next t ∧ t.phase = .idle ∧ t.status.done = true ∧ t.status.err = s.status.err ∧
      t.errs = s.errs ∧ t.valid = { freq := true, tree := true, code := true, dtab := false } ∧
      t.inLen = s.inLen ∧ t.ibuf = s.ibuf ∧ t.obuf = s.obuf ∧ t.dtab = s.dtab ∧
      t.artLen.toNat ≤ 6 + 6 * 256 + s.inLen.toNat ∧
      (∀ i, t.artLen.toNat ≤ i → t.byteAt .abuf i = s.byteAt .abuf i)

/-! ## LOADTAB -/

/-- LOADTAB commits what it read (46_decoder.md R216) and nothing else. -/
def Obligations.LoadtabCommits : Prop :=
  ∀ (s : State) (k : Nat), s.StoredTableOk → k = s.memRead .abuf 4 2 →
    ∃ t, exec .loadtab s = .next t ∧
      t =
        { s with
          dtab := t.dtab
          dtabN := BitVec.ofNat 9 k
          outLen := BitVec.ofNat 32 (s.memRead .abuf 0 4)
          payOff := BitVec.ofNat 32 (6 + 6 * k)
          payBytes := BitVec.ofNat 32 (s.artLen.toNat - (6 + 6 * k))
          phase := .idle
          valid := { s.valid with dtab := true }
          status := { s.status with done := true, empty := decide (s.memRead .abuf 0 4 = 0) } } ∧
      (∀ j < k, t.dtabAt j =
        { v := true
          sym := BitVec.ofNat 8 (s.memRead .abuf (6 + 6 * j) 1)
          len := BitVec.ofNat 8 (s.memRead .abuf (6 + 6 * j + 1) 1)
          code := BitVec.ofNat 32 (s.memRead .abuf (6 + 6 * j + 2) 4) }) ∧
      (∀ j < 256, k ≤ j → t.dtabAt j = { v := false, sym := 0#8, len := 0#8, code := 0#32 })

/-- On any error LOADTAB sets V.DTAB <- 0 and changes nothing else except the error registers (46_decoder.md R217). -/
def Obligations.LoadtabErrorKeepsTheTable : Prop :=
  ∀ s : State, ¬ s.StoredTableOk →
    ∃ t, exec .loadtab s = .next t ∧ t.errs.step = 0x20#8 ∧ (t.errs.code = 0x02#8 ∨ t.errs.code = 0x06#8) ∧
      t =
        { s with
          phase := .idle
          errs := t.errs
          valid := { s.valid with dtab := false }
          status := { s.status with done := true, err := true } }

/-- The capacity, header, count and table-length checks of LOADTAB in their order (46_decoder.md R211 to R213). -/
def Obligations.LoadtabChecksLengthsInOrder : Prop :=
  ∀ (s : State) (a k : Nat), a = s.artLen.toNat → k = s.memRead .abuf 4 2 →
    let report : Byte → Byte → Word → Word → Prop := fun sub code info aux =>
      exec .loadtab s = .next
        { s with
          phase := .idle
          errs := { step := 0x20#8, sub := sub, code := code, info := info, aux := aux }
          valid := { s.valid with dtab := false }
          status := { s.status with done := true, err := true } }
    (s.params.artMax < a → report 0x02#8 0x06#8 s.artLen (BitVec.ofNat 32 s.params.artMax)) ∧
    (a ≤ s.params.artMax → a < 6 → report 0x01#8 0x02#8 s.artLen 6#32) ∧
    (a ≤ s.params.artMax → 6 ≤ a → 256 < k → report 0x02#8 0x02#8 (BitVec.ofNat 32 k) 256#32) ∧
    (a ≤ s.params.artMax → 6 ≤ a → k ≤ 256 → a < 6 + 6 * k →
      report 0x03#8 0x02#8 s.artLen (BitVec.ofNat 32 (6 + 6 * k)))

/-- The entry checks of LOADTAB (46_decoder.md R214): the first entry that fails is reported, by its first failing check. -/
def Obligations.LoadtabReportsTheFirstBadEntry : Prop :=
  ∀ (s : State) (k j : Nat), s.artLen.toNat ≤ s.params.artMax → 6 ≤ s.artLen.toNat → k = s.memRead .abuf 4 2 → k ≤ 256 →
    6 + 6 * k ≤ s.artLen.toNat → j < k →
    (∀ i < j, 1 ≤ (s.tabEntry i).len ∧ (s.tabEntry i).len ≤ 32 ∧ (s.tabEntry i).code < 2 ^ (s.tabEntry i).len ∧
      (0 < i → (s.tabEntry (i - 1)).sym < (s.tabEntry i).sym)) →
    let report : Byte → Word → Prop := fun sub aux =>
      exec .loadtab s = .next
        { s with
          phase := .idle
          errs := { step := 0x20#8, sub := sub, code := 0x02#8, info := BitVec.ofNat 32 j, aux := aux }
          valid := { s.valid with dtab := false }
          status := { s.status with done := true, err := true } }
    let e := s.tabEntry j
    (e.len < 1 ∨ 32 < e.len → report 0x04#8 (BitVec.ofNat 32 e.len)) ∧
    (1 ≤ e.len → e.len ≤ 32 → 2 ^ e.len ≤ e.code → report 0x05#8 (BitVec.ofNat 32 e.code)) ∧
    (1 ≤ e.len → e.len ≤ 32 → e.code < 2 ^ e.len → 0 < j → e.sym ≤ (s.tabEntry (j - 1)).sym →
      report 0x06#8 (BitVec.ofNat 32 e.sym))

/-- The prefix check of LOADTAB (46_decoder.md R215): the first pair (j, k), j outer and k inner, is reported. -/
def Obligations.LoadtabReportsTheFirstPrefixPair : Prop :=
  ∀ (s : State) (n j k : Nat), s.artLen.toNat ≤ s.params.artMax → 6 ≤ s.artLen.toNat → n = s.memRead .abuf 4 2 → n ≤ 256 →
    6 + 6 * n ≤ s.artLen.toNat →
    (∀ i < n, 1 ≤ (s.tabEntry i).len ∧ (s.tabEntry i).len ≤ 32 ∧ (s.tabEntry i).code < 2 ^ (s.tabEntry i).len) →
    (∀ i, i + 1 < n → (s.tabEntry i).sym < (s.tabEntry (i + 1)).sym) →
    let isPair : Nat → Nat → Prop := fun a b =>
      a < n ∧ b < n ∧ a ≠ b ∧ (s.tabEntry a).len ≤ (s.tabEntry b).len ∧
      (s.tabEntry b).code >>> ((s.tabEntry b).len - (s.tabEntry a).len) = (s.tabEntry a).code
    isPair j k → (∀ a b, a < j → ¬ isPair a b) → (∀ b, b < k → ¬ isPair j b) →
    exec .loadtab s = .next
      { s with
        phase := .idle
        errs := { step := 0x20#8, sub := 0x07#8, code := 0x02#8, info := BitVec.ofNat 32 j, aux := BitVec.ofNat 32 k }
        valid := { s.valid with dtab := false }
        status := { s.status with done := true, err := true } }

/-! ## DECODE and DECOMPRESS -/

/-- DECODE emits the coded symbols (46_decoder.md R222, R224): when the payload begins with the codes of OUT_LEN entries of a
prefix-free table, the symbols of those entries stand in OBUF[0..OUT_LEN), OUT_CNT = OUT_LEN, DEC_BITS is the bits of those
codewords, and nothing else changes but STATUS. -/
def Obligations.DecodeEmitsTheCodedSymbols : Prop :=
  ∀ (s : State) (js : List Nat) (bits : List Bool),
    s.valid.dtab = true → s.outLen.toNat ≤ s.params.outMax → s.dtabN.toNat ≤ 256 →
    (∀ j < s.dtabN.toNat, 1 ≤ (s.dtabAt j).len.toNat ∧ (s.dtabAt j).code.toNat < 2 ^ (s.dtabAt j).len.toNat) →
    (∀ j < s.dtabN.toNat, ∀ k < s.dtabN.toNat, j ≠ k →
      codePrefix (s.dtabAt j).len.toNat (s.dtabAt j).code.toNat (s.dtabAt k).len.toNat (s.dtabAt k).code.toNat = false) →
    js.length = s.outLen.toNat → (∀ j ∈ js, j < s.dtabN.toNat) →
    bits = js.flatMap (fun j => codeBits (s.dtabAt j).len.toNat (s.dtabAt j).code.toNat) →
    bits <+: unpackBits (s.bytesAt .abuf s.payOff.toNat s.payBytes.toNat) →
    ∃ t, exec .decode s = .next t ∧
      t =
        { s with
          obuf := t.obuf
          outCnt := s.outLen
          decBits := BitVec.ofNat 32 bits.length
          phase := .idle
          status := { s.status with done := true, empty := decide (s.outLen = 0#32) } } ∧
      (∀ i (h : i < js.length), t.byteAt .obuf i = (s.dtabAt js[i]).sym) ∧
      (∀ i, s.outLen.toNat ≤ i → t.byteAt .obuf i = s.byteAt .obuf i)

/-- DECODE's checks before the loop (46_decoder.md R221), and a DECODE of length 0, which reads no bit whatever DTAB holds
(R227). -/
def Obligations.DecodeChecksBeforeTheLoop : Prop :=
  ∀ s : State,
    (s.valid.dtab = false →
      exec .decode s = .next
        { s with
          phase := .idle
          status := { s.status with done := true, err := true }
          errs := { step := 0x21#8, sub := 0x08#8, code := 0x05#8, info := 0#32, aux := 0#32 } }) ∧
    (s.valid.dtab = true → s.params.outMax < s.outLen.toNat →
      exec .decode s = .next
        { s with
          phase := .idle
          status := { s.status with done := true, err := true }
          errs := { step := 0x21#8, sub := 0x03#8, code := 0x06#8, info := s.outLen, aux := BitVec.ofNat 32 s.params.outMax } }) ∧
    (s.valid.dtab = true → s.outLen = 0#32 →
      exec .decode s = .next
        { s with
          phase := .idle
          outCnt := 0#32
          decBits := 0#32
          status := { s.status with done := true, empty := true } })

/-- The errors of the decode loop (46_decoder.md R222, R226).
On every such error: fewer symbols than OUT_LEN, ERR_INFO = OUT_CNT and ERR_AUX = DEC_BITS; OBUF[0..OUT_CNT) holds the symbols of
live entries whose codes, in order, begin the payload; OBUF from OUT_CNT on is unchanged, and nothing else changed.
When they come, with a prefix-free table: the payload begins with the codes of fewer than OUT_LEN entries, then with `part`, nothing
or a proper beginning of a live code. OUT_OF_RANGE where the payload ends there: DEC_BITS is the limit 8·PAY_BYTES. NO_LEAF_PATH
where one more bit follows with which no live code begins: DEC_BITS counts that bit. -/
def Obligations.DecodeErrorKeepsPartialOutput : Prop :=
  (∀ s t : State, s.valid.dtab = true → s.outLen.toNat ≤ s.params.outMax → s.status.err = false →
    exec .decode s = .next t → t.status.err = true →
    t.outCnt.toNat < s.outLen.toNat ∧
    t.errs.step = 0x21#8 ∧ t.errs.info = t.outCnt ∧ t.errs.aux = t.decBits ∧
    ((t.errs.code = 0x01#8 ∧ t.errs.sub = 0x00#8 ∧ t.decBits = BitVec.ofNat 32 (8 * s.payBytes.toNat)) ∨
      (t.errs.code = 0x02#8 ∧ t.errs.sub = 0x08#8)) ∧
    (∃ js : List Nat, js.length = t.outCnt.toNat ∧ (∀ j ∈ js, j < s.dtabN.toNat) ∧
      (∀ i (h : i < js.length), t.byteAt .obuf i = (s.dtabAt js[i]).sym) ∧
      js.flatMap (fun j => codeBits (s.dtabAt j).len.toNat (s.dtabAt j).code.toNat) <+:
        unpackBits (s.bytesAt .abuf s.payOff.toNat s.payBytes.toNat)) ∧
    (∀ i, t.outCnt.toNat ≤ i → t.byteAt .obuf i = s.byteAt .obuf i) ∧
    t =
      { s with
        obuf := t.obuf
        outCnt := t.outCnt
        decBits := t.decBits
        errs := t.errs
        phase := .idle
        status := { s.status with done := true, err := true } }) ∧
  (∀ (s : State) (js : List Nat) (part : List Bool),
    s.valid.dtab = true → s.outLen.toNat ≤ s.params.outMax → s.dtabN.toNat ≤ 256 →
    (∀ j < s.dtabN.toNat, 1 ≤ (s.dtabAt j).len.toNat ∧ (s.dtabAt j).code.toNat < 2 ^ (s.dtabAt j).len.toNat) →
    (∀ j < s.dtabN.toNat, ∀ k < s.dtabN.toNat, j ≠ k →
      codePrefix (s.dtabAt j).len.toNat (s.dtabAt j).code.toNat (s.dtabAt k).len.toNat (s.dtabAt k).code.toNat = false) →
    js.length < s.outLen.toNat → (∀ j ∈ js, j < s.dtabN.toNat) →
    (part = [] ∨ ∃ j < s.dtabN.toNat, part <+: codeBits (s.dtabAt j).len.toNat (s.dtabAt j).code.toNat ∧
      part.length < (s.dtabAt j).len.toNat) →
    let codes := js.flatMap fun j => codeBits (s.dtabAt j).len.toNat (s.dtabAt j).code.toNat
    let payload := unpackBits (s.bytesAt .abuf s.payOff.toNat s.payBytes.toNat)
    let ends : Byte → Byte → Nat → Prop := fun sub code bits =>
      ∃ t, exec .decode s = .next t ∧
        t =
          { s with
            obuf := t.obuf
            outCnt := BitVec.ofNat 32 js.length
            decBits := BitVec.ofNat 32 bits
            errs := { step := 0x21#8, sub := sub, code := code, info := BitVec.ofNat 32 js.length, aux := BitVec.ofNat 32 bits }
            phase := .idle
            status := { s.status with done := true, err := true } } ∧
        (∀ i (h : i < js.length), t.byteAt .obuf i = (s.dtabAt js[i]).sym) ∧
        (∀ i, js.length ≤ i → t.byteAt .obuf i = s.byteAt .obuf i)
    (payload = codes ++ part → ends 0x00#8 0x01#8 (8 * s.payBytes.toNat)) ∧
    (∀ v : Bool, codes ++ part ++ [v] <+: payload →
      (∀ j < s.dtabN.toNat, ¬ part ++ [v] <+: codeBits (s.dtabAt j).len.toNat (s.dtabAt j).code.toNat) →
      ends 0x08#8 0x02#8 (codes.length + part.length + 1)))

/-- DECOMPRESS completes on every artifact whose table LOADTAB accepts and whose payload begins with the codes of original_length
entries (46_decoder.md R228): OBUF holds the symbols of those entries, OUT_CNT their number. -/
def Obligations.DecompressEmitsTheStoredSymbols : Prop :=
  ∀ (s : State) (js : List Nat) (bits : List Bool) (k : Nat),
    s.params.wellFormed = true → s.StoredTableOk → k = s.memRead .abuf 4 2 →
    s.memRead .abuf 0 4 ≤ s.params.outMax → js.length = s.memRead .abuf 0 4 → (∀ j ∈ js, j < k) →
    bits = js.flatMap (fun j => codeBits (s.tabEntry j).len (s.tabEntry j).code) →
    bits <+: unpackBits (s.bytesAt .abuf (6 + 6 * k) (s.artLen.toNat - (6 + 6 * k))) →
    ∃ t, exec .decompress s = .next t ∧ t.phase = .idle ∧ t.status.done = true ∧ t.status.err = s.status.err ∧
      t.status.empty = decide (js = []) ∧ t.errs = s.errs ∧ t.valid = { s.valid with dtab := true } ∧
      t.abuf = s.abuf ∧ t.ibuf = s.ibuf ∧
      t.outLen.toNat = js.length ∧ t.outCnt.toNat = js.length ∧ t.decBits.toNat = bits.length ∧
      t.payOff.toNat = 6 + 6 * k ∧ t.payBytes.toNat = s.artLen.toNat - (6 + 6 * k) ∧
      (∀ i (h : i < js.length), (t.byteAt .obuf i).toNat = (s.tabEntry js[i]).sym) ∧
      (∀ i, js.length ≤ i → t.byteAt .obuf i = s.byteAt .obuf i)

/-- decode(encode(X)) = X (00_scope.md R16): on a build with the default bound for ABUF, COMPRESS of any input that fits IBUF and
OBUF completes without error, and DECOMPRESS then completes without error and leaves the input in OBUF[0..N) and
OUT_CNT = N. -/
def Obligations.CompressedInputRoundTrips : Prop :=
  ∀ s : State, s.params.wellFormed = true → s.phase = .idle → s.status.err = false →
    s.inLen.toNat ≤ s.params.inMax → s.inLen.toNat ≤ s.params.outMax → 6 + 6 * 256 + s.inLen.toNat ≤ s.params.artMax →
    ∃ t u, exec .compress s = .next t ∧ t.status.err = false ∧ exec .decompress t = .next u ∧ u.status.err = false ∧
      u.outCnt = s.inLen ∧ ∀ i < s.inLen.toNat, u.byteAt .obuf i = s.byteAt .ibuf i

/-! ## The host bus -/

/-- Full-strobe writes to the registers that store (20_memory.md R63): to STATUS, W1C of DONE, ERR and OVR, and to IE, in every phase
(10_state.md R24, R25); to IN_LEN and ART_LEN while IDLE, which store the whole word (10_state.md R29, R30). Each changes nothing
else. -/
def Obligations.RegisterWritesTakeEffect : Prop :=
  ∀ (s : State) (d : Word),
    hostWrite s 0x008#32 d 0xF#4 =
      { s with
        status := {
          done := s.status.done && !d.getLsbD 1
          err := s.status.err && !d.getLsbD 2
          ovr := s.status.ovr && !d.getLsbD 3
          empty := s.status.empty } } ∧
    hostWrite s 0x00C#32 d 0xF#4 = { s with ie := { doneIe := d.getLsbD 0, errIe := d.getLsbD 1 } } ∧
    (s.phase = .idle →
      hostWrite s 0x020#32 d 0xF#4 = { s with inLen := d } ∧ hostWrite s 0x024#32 d 0xF#4 = { s with artLen := d })

/-- While BUSY a write that would change state is dropped and sets OVR (70_reset_and_hazards.md R280): full strobes to CMD, IN_LEN
or ART_LEN, or an enabled lane of IBUF or ABUF below its capacity. -/
def Obligations.BusyDropsStoringWrites : Prop :=
  ∀ (s : State) (w a d : Word) (strb : Strobe), s.phase = .busy w →
    (((a &&& 0xFFFFFFFC#32) ∈ [0x004#32, 0x020#32, 0x024#32] ∧ strb = 0xF#4) ∨
      (∃ k < 4, strb.getLsbD k = true ∧ 0x10000 ≤ (a &&& 0xFFFFFFFC#32).toNat ∧
        (a &&& 0xFFFFFFFC#32).toNat < 0x20000 ∧ (a &&& 0xFFFFFFFC#32).toNat - 0x10000 + k < s.params.inMax) ∨
      (∃ k < 4, strb.getLsbD k = true ∧ 0x20000 ≤ (a &&& 0xFFFFFFFC#32).toNat ∧
        (a &&& 0xFFFFFFFC#32).toNat < 0x40000 ∧ (a &&& 0xFFFFFFFC#32).toNat - 0x20000 + k < s.params.artMax)) →
    hostWrite s a d strb = { s with status := { s.status with ovr := true } }

/-- Writes that change nothing even when IDLE, in every phase, and never set OVR (20_memory.md R63, R64, R67, 10_state.md R43):
partial strobes to the register window, read-only and reserved registers, the table windows, OBUF, reserved addresses, and
writes with no enabled lane below the capacity. -/
def Obligations.OtherWritesChangeNothing : Prop :=
  ∀ (s : State) (a d : Word) (strb : Strobe) (wa : Nat), wa = (a &&& 0xFFFFFFFC#32).toNat →
    ((wa < 0x400 ∧ strb ≠ 0xF#4) ∨
      (wa < 0x400 ∧ wa ∉ [0x004, 0x008, 0x00C, 0x020, 0x024]) ∨
      (0x400 ≤ wa ∧ wa < 0x10000) ∨ 0x40000 ≤ wa ∨
      (0x10000 ≤ wa ∧ wa < 0x20000 ∧ ∀ k < 4, strb.getLsbD k = true → s.params.inMax ≤ wa - 0x10000 + k) ∨
      (0x20000 ≤ wa ∧ wa < 0x40000 ∧ ∀ k < 4, strb.getLsbD k = true → s.params.artMax ≤ wa - 0x20000 + k)) →
    hostWrite s a d strb = s

/-- A buffer write while IDLE (20_memory.md R65, R67): exactly the enabled lanes below the capacity take the data's bytes, every
other byte and everything else is unchanged. A write to OBUF changes nothing, in any phase. -/
def Obligations.BufferWritesSetEnabledLanes : Prop :=
  ∀ (s : State) (a d : Word) (strb : Strobe) (wa : Nat), wa = (a &&& 0xFFFFFFFC#32).toNat →
    (∀ (b : Buf) (lo hi : Nat), s.phase = .idle →
      (b, lo, hi) ∈ [(Buf.ibuf, 0x10000, 0x20000), (Buf.abuf, 0x20000, 0x40000)] → lo ≤ wa → wa < hi →
      (∀ i, (hostWrite s a d strb).byteAt b i =
        if wa - lo ≤ i ∧ i < wa - lo + 4 ∧ strb.getLsbD (i - (wa - lo)) = true ∧ i < capOf s.params b
        then d.extractLsb' (8 * (i - (wa - lo))) 8 else s.byteAt b i) ∧
      hostWrite s a d strb = s.setBuf b ((hostWrite s a d strb).buf b)) ∧
    (0x40000 ≤ wa → wa < 0x50000 → hostWrite s a d strb = s)

/-- A buffer read while IDLE (20_memory.md R65, R66): lane k is the byte at index + k, little-endian, 0 at or past the
capacity. -/
def Obligations.BufferReadsAreLittleEndian : Prop :=
  ∀ (s : State) (a : Word) (b : Buf) (lo hi wa k : Nat), s.phase = .idle →
    (b, lo, hi) ∈ [(Buf.ibuf, 0x10000, 0x20000), (Buf.abuf, 0x20000, 0x40000), (Buf.obuf, 0x40000, 0x50000)] →
    wa = (a &&& 0xFFFFFFFC#32).toNat → lo ≤ wa → wa < hi → k < 4 →
    (s.readData a).extractLsb' (8 * k) 8 =
      if wa - lo + k < capOf s.params b then s.byteAt b (wa - lo + k) else 0#8

/-- Reads change no state of the machine (20_memory.md R69): only the model's record of the read data and its draw counter.
A reserved location reads 0 in every phase and takes no draw: the holes of the register window and the reserved ranges of the map
(10_state.md R43, 20_memory.md R62). While IDLE no read takes a draw. During BUSY (70_reset_and_hazards.md R282) the registers of the
exact list read true and take none, and every other location reads the next draw, which advances the counter by one
(log entry 6). -/
def Obligations.ReadsHaveNoSideEffect : Prop :=
  ∀ (s : State) (a : Word) (wa : Nat), wa = (a &&& 0xFFFFFFFC#32).toNat →
    hostRead s a = { s with reads := s.readData a :: s.reads, draws := (hostRead s a).draws } ∧
    ((wa < 0x400 ∧ wa ∉ [0x000, 0x004, 0x008, 0x00C, 0x010, 0x014, 0x018, 0x020, 0x024, 0x028, 0x02C, 0x030, 0x034, 0x038, 0x03C,
        0x040, 0x044, 0x048, 0x04C, 0x050, 0x060, 0x064, 0x068, 0x06C]) ∨
      (0xD00 ≤ wa ∧ wa < 0x1000) ∨ (0x2800 ≤ wa ∧ wa < 0x10000) ∨ 0x50000 ≤ wa →
      s.readData a = 0#32 ∧ (hostRead s a).draws = s.draws) ∧
    (s.phase = .idle → (hostRead s a).draws = s.draws) ∧
    (∀ w, s.phase = .busy w →
      (∀ x, (wa, x) ∈ [(0x000, 0x48554646#32), (0x004, s.cmd), (0x008, s.statusWord), (0x00C, s.ieWord),
          (0x060, BitVec.ofNat 32 s.params.inMax), (0x064, BitVec.ofNat 32 s.params.artMax),
          (0x068, BitVec.ofNat 32 s.params.outMax), (0x06C, 32#32)] →
        s.readData a = x ∧ (hostRead s a).draws = s.draws) ∧
      (wa ∈ [0x010, 0x014, 0x018, 0x020, 0x024, 0x028, 0x02C, 0x030, 0x034, 0x038, 0x03C, 0x040, 0x044, 0x048, 0x04C, 0x050] ∨
        (0x400 ≤ wa ∧ wa < 0xD00) ∨ (0x1000 ≤ wa ∧ wa < 0x2800) ∨ (0x10000 ≤ wa ∧ wa < 0x50000) →
        s.readData a = Config.freeWord s.draws ∧ (hostRead s a).draws = s.draws + 1))

/-- The bits of STATUS (10_state.md R23) and the registers' offsets and fields as a host reads them while IDLE
(10_state.md R44). -/
def Obligations.RegistersReadTheirFields : Prop :=
  ∀ s : State, s.phase = .idle →
    s.readData 0x000#32 = 0x48554646#32 ∧ s.readData 0x004#32 = s.cmd ∧
    (s.readData 0x008#32).toNat =
      2 * s.status.done.toNat + 4 * s.status.err.toNat + 8 * s.status.ovr.toNat + 16 * s.status.empty.toNat ∧
    (s.readData 0x00C#32).toNat = s.ie.doneIe.toNat + 2 * s.ie.errIe.toNat ∧
    (s.readData 0x010#32).toNat = s.errs.code.toNat + 256 * s.errs.sub.toNat + 65536 * s.errs.step.toNat ∧
    s.readData 0x014#32 = s.errs.info ∧ s.readData 0x018#32 = s.errs.aux ∧
    s.readData 0x020#32 = s.inLen ∧ s.readData 0x024#32 = s.artLen ∧
    (s.readData 0x028#32).toNat = s.nsym.toNat ∧ (s.readData 0x02C#32).toNat = s.nnodes.toNat ∧
    (s.readData 0x030#32).toNat = s.root.toNat ∧ s.readData 0x034#32 = s.payBits ∧ s.readData 0x038#32 = s.outLen ∧
    s.readData 0x03C#32 = s.payOff ∧ s.readData 0x040#32 = s.payBytes ∧
    (s.readData 0x044#32).toNat = s.dtabN.toNat ∧ s.readData 0x048#32 = s.outCnt ∧ s.readData 0x04C#32 = s.decBits ∧
    (s.readData 0x050#32).toNat =
      s.valid.freq.toNat + 2 * s.valid.tree.toNat + 4 * s.valid.code.toNat + 8 * s.valid.dtab.toNat ∧
    s.readData 0x060#32 = BitVec.ofNat 32 s.params.inMax ∧ s.readData 0x064#32 = BitVec.ofNat 32 s.params.artMax ∧
    s.readData 0x068#32 = BitVec.ofNat 32 s.params.outMax ∧ s.readData 0x06C#32 = 32#32 ∧
    (s.readData 0x01C#32 = 0#32 ∧ s.readData 0x054#32 = 0#32 ∧ s.readData 0x3FC#32 = 0#32)

/-- The table windows while IDLE (20_memory.md R62, 10_state.md R47, R49): FREQ, CODE, four LEN entries a word, NODE and DTAB as two
words an entry. -/
def Obligations.TableWindowsReadTheirEntries : Prop :=
  ∀ (s : State) (i : Nat), s.phase = .idle → i < 256 →
    s.readData (BitVec.ofNat 32 (0x400 + 4 * i)) = s.freqAt i ∧
    s.readData (BitVec.ofNat 32 (0x800 + 4 * i)) = s.codeAt i ∧
    (s.readData (BitVec.ofNat 32 (0xC00 + i))).extractLsb' (8 * (i % 4)) 8 = s.lenAt i ∧
    s.readData (BitVec.ofNat 32 (0x2000 + 8 * i)) = (s.dtabAt i).code ∧
    (s.readData (BitVec.ofNat 32 (0x2004 + 8 * i))).toNat =
      2147483648 * (s.dtabAt i).v.toNat + 256 * (s.dtabAt i).len.toNat + (s.dtabAt i).sym.toNat ∧
    (∀ n < 511,
      s.readData (BitVec.ofNat 32 (0x1000 + 8 * n)) = (s.nodeAt n).w ∧
      (s.readData (BitVec.ofNat 32 (0x1004 + 8 * n))).toNat =
        2147483648 * (s.nodeAt n).leaf.toNat + 262144 * (s.nodeAt n).sym.toNat + 512 * (s.nodeAt n).c1.toNat +
          (s.nodeAt n).c0.toNat) ∧
    s.readData 0x1FF8#32 = 0#32 ∧ s.readData 0x1FFC#32 = 0#32

/-- The interrupt output is the level of 10_state.md R58, and it is low after CLEAR and after every reset
(60_exceptions.md R257). -/
def Obligations.IrqIsALevel : Prop :=
  (∀ s : State, s.irq = ((s.status.done && s.ie.doneIe) || ((s.status.err || s.status.ovr) && s.ie.errIe))) ∧
  (∀ s t : State, exec .clear s = .next t → t.irq = false) ∧
  (∀ (s : State) (p : Bool), (resetEvent s p).irq = false)

/-! ## Reset -/

/-- The reset event (70_reset_and_hazards.md R270): registers, tables, STATUS, CMD and phase at their reset values in every case;
after a reset that is not a power-on and finds the core idle, the buffers are unchanged; after a power-on every buffer byte is a
new draw (the draws are the model's free values, log entry 5). -/
def Obligations.ResetEventResetsTheCore : Prop :=
  ∀ (s : State) (p : Bool), ∃ t, resetEvent s p = t ∧
    t =
      { State.reset with
        params := s.params, ibuf := t.ibuf, abuf := t.abuf, obuf := t.obuf
        powerOnId := t.powerOnId, draws := t.draws, reads := s.reads, agenda := s.agenda } ∧
    (p = false → s.phase = .idle → t.ibuf = s.ibuf ∧ t.abuf = s.abuf ∧ t.obuf = s.obuf ∧ t.powerOnId = s.powerOnId) ∧
    (p = false → t.ibuf = s.ibuf ∧ t.powerOnId = s.powerOnId) ∧
    (p = true → t.powerOnId = s.draws ∧ s.draws < t.draws ∧ ∀ b i, t.byteAt b i = Config.freeByte t.powerOnId b i)

/-- After reset every register reads its value of 10_state.md R44, every table entry is 0, the core is IDLE and IRQ is 0
(10_state.md R59). The parameter registers read the default parameters (log entry 1). -/
def Obligations.ResetStateReadsAsSpecified : Prop :=
  (∀ off ∈ [0x004, 0x008, 0x00C, 0x010, 0x014, 0x018, 0x020, 0x024, 0x028, 0x02C, 0x034, 0x038, 0x03C, 0x040, 0x044, 0x048,
    0x04C, 0x050], State.reset.readData (BitVec.ofNat 32 off) = 0#32) ∧
  State.reset.readData 0x000#32 = 0x48554646#32 ∧ State.reset.readData 0x030#32 = 0x1FF#32 ∧
  State.reset.readData 0x060#32 = 65536#32 ∧ State.reset.readData 0x064#32 = 131072#32 ∧
  State.reset.readData 0x068#32 = 65536#32 ∧ State.reset.readData 0x06C#32 = 32#32 ∧
  (∀ i < 256, State.reset.freqAt i = 0#32 ∧ State.reset.lenAt i = 0#8 ∧ State.reset.codeAt i = 0#32 ∧
    State.reset.dtabAt i = { v := false, sym := 0#8, len := 0#8, code := 0#32 }) ∧
  (∀ i < 511, State.reset.nodeAt i = { w := 0#32, leaf := false, sym := 0#8, c0 := 0#9, c1 := 0#9 }) ∧
  State.reset.phase = .idle ∧ State.reset.irq = false

/-- A reset during BUSY (70_reset_and_hazards.md R272; which bytes the aborted command could have written is the model's reading,
log entry 7): IBUF is unchanged, only ENCODE and COMPRESS touch ABUF and only DECODE and DECOMPRESS touch OBUF, and no byte at or
past the end of what the command's completion would have written changes. Every byte below that end is a new draw; a command that
would have failed before its first write touches nothing. What the completion would have done is read off from the state with ERR
clear, which no command tests (40_control.md R128). -/
def Obligations.ResetDuringCommandTouchesItsOutputOnly : Prop :=
  ∀ (s u : State) (w : Word), s.phase = .busy w →
    completeWord w { s with status := { s.status with err := false } } = .next u →
    let t := resetEvent s false
    let loopError := u.errs.step = 0x21#8 ∧ (u.errs.code = 0x01#8 ∨ (u.errs.code = 0x02#8 ∧ u.errs.sub = 0x08#8))
    t.ibuf = s.ibuf ∧
    (w ∉ [0x13#32, 0x1F#32] → t.abuf = s.abuf) ∧
    (w ∉ [0x21#32, 0x2F#32] → t.obuf = s.obuf) ∧
    (w ∈ [0x13#32, 0x1F#32] → u.status.err = true → t.abuf = s.abuf) ∧
    (w ∈ [0x21#32, 0x2F#32] → u.status.err = true → ¬ loopError → t.obuf = s.obuf) ∧
    (w ∈ [0x13#32, 0x1F#32] → u.status.err = false →
      ∀ i, t.byteAt .abuf i = if i < u.artLen.toNat then Config.freeByte s.draws .abuf i else s.byteAt .abuf i) ∧
    (w ∈ [0x21#32, 0x2F#32] → u.status.err = false ∨ loopError →
      ∀ i, t.byteAt .obuf i = if i < u.outCnt.toNat then Config.freeByte s.draws .obuf i else s.byteAt .obuf i)

/-! ## Host programs -/

/-- `RUN M` (30_encoding.md R115) from an idle core with nothing else to happen, however many polls see BUSY = 1
(70_reset_and_hazards.md R290, log entry 12): the command runs once from its acceptance, each poll during it reads BUSY = 1 and the
last poll reads the STATUS that the command left. -/
def Obligations.RunCompletesItsCommand : Prop :=
  ∀ (s v : State) (i : Instr) (polls : Nat), s.phase = .idle → s.agenda = [] → exec i (s.accept (encode i)) = .next v →
    Sys2Proof.core.run (polls + 3) (s.withProgram [.run i polls]) = .next
      { v with reads := v.statusWord :: (List.replicate polls (s.accept (encode i)).statusWord ++ s.reads) } ∧
    (s.accept (encode i)).statusWord.getLsbD 0 = true ∧ v.statusWord.getLsbD 0 = false

/-- `PUT W, o, bytes` (30_encoding.md R115) into IBUF or ABUF from an idle core: exactly the listed bytes stand at o, o + 1, ...
afterwards, and nothing else changed. -/
def Obligations.PutStoresItsBytes : Prop :=
  ∀ (s : State) (b : Buf) (o : Nat) (bytes : List Byte), s.params.wellFormed = true → s.phase = .idle → s.agenda = [] →
    b ∈ [Buf.ibuf, Buf.abuf] → o + bytes.length ≤ capOf s.params b →
    ∃ t n, Sys2Proof.core.run n (s.withProgram [.put b o bytes]) = .next t ∧ t.agenda = [] ∧
      t = s.setBuf b (t.buf b) ∧
      (∀ k (h : k < bytes.length), t.byteAt b (o + k) = bytes[k]) ∧
      (∀ i, (i < o ∨ o + bytes.length ≤ i) → t.byteAt b i = s.byteAt b i)

/-! ## Invariants -/

/-- State.reset meets the whole invariant. -/
def Obligations.ResetStateMeetsInvariant : Prop := State.reset.Inv

/-- Every step keeps the buffers canonical and within their capacities, and the parameters constant
(00_scope.md R11, 10_state.md R42, R50 to R52). -/
def Obligations.StepKeepsBuffersCanonical : Prop :=
  ∀ s t : State, s.BuffersOk → step s = .next t → t.BuffersOk ∧ t.params = s.params

/-- Every step keeps: in phase BUSY(w), CMD = w and DONE = 0 (40_control.md R120, 70_reset_and_hazards.md R281). -/
def Obligations.StepKeepsPhaseCoherent : Prop :=
  ∀ s t : State, s.PhaseOk → step s = .next t → t.PhaseOk

/-- Every step keeps the chain of VALID bits, the registers that describe the tree, and lengths up to 32 while V.CODE = 1
(10_state.md R57, R31 to R33, 45_encoder.md R194). -/
def Obligations.StepKeepsPipelineState : Prop :=
  ∀ s t : State, s.ValidChain ∧ s.TreeRegsOk ∧ s.LengthsOk → step s = .next t → t.ValidChain ∧ t.TreeRegsOk ∧ t.LengthsOk

/-- Every step keeps: while V.DTAB = 1 the decode table is prefix-free, ordered and bounded, and the payload lies inside ABUF
(46_decoder.md R211 to R216, R223). -/
def Obligations.StepKeepsDecodeTable : Prop :=
  ∀ s t : State, s.DtabOk → step s = .next t → t.DtabOk

/-- The command and error matrix (60_exceptions.md R243): a command that sets ERR records a (STEP, SUB, CODE) of its row. And an
invariant of every step: the recorded (CODE, SUB) is that of no error or of a row of 60_exceptions.md R241. -/
def Obligations.CommandsRecordOnlyTheirErrors : Prop :=
  (∀ (i : Instr) (s t : State), s.status.err = false → exec i s = .next t → t.status.err = true →
    (t.errs.step, t.errs.sub, t.errs.code) ∈ errorsOf i) ∧
  (∀ s t : State, s.ErrorOk → step s = .next t → t.ErrorOk)

/-- The latency is finite (70_reset_and_hazards.md R290; the agenda is the model's own form, log entry 3). An accepted command whose
agenda holds only the host's reads and writes is still BUSY, on the same word, when these are done, and the next step completes
it: DONE is set. And whatever the agenda holds, resets and core turns included, one step after it the core is idle. -/
def Obligations.AcceptedCommandCompletes : Prop :=
  ∀ s : State,
    (∀ w, s.phase = .busy w →
      (∀ e ∈ s.agenda, (∃ a, e = .hostRead a) ∨ ∃ a d strb, e = .hostWrite a d strb) →
      ∃ u t, Sys2Proof.core.run s.agenda.length s = .next u ∧ u.phase = .busy w ∧ u.agenda = [] ∧
        completeWord w u = .next t ∧ Sys2Proof.core.run (s.agenda.length + 1) s = .next t ∧
        t.phase = .idle ∧ t.status.done = true) ∧
    ∃ t, Sys2Proof.core.run (s.agenda.length + 1) s = .next t ∧ t.phase = .idle ∧ t.agenda = []
end

