-- ==== Sys2Proof/Laws/State.lean ====
section
/-! SUPPORT. For each named update of State, one lemma a field: what the field holds after it. All true by rfl. -/

namespace Sys2Proof.Machine

namespace State

/-! ## Completion (40_control.md R121) -/

@[simp] theorem complete_params (s : State) : (s.complete).params = s.params := rfl
@[simp] theorem complete_phase (s : State) : (s.complete).phase = .idle := rfl
@[simp] theorem complete_cmd (s : State) : (s.complete).cmd = s.cmd := rfl
@[simp] theorem complete_status (s : State) : (s.complete).status = { s.status with done := true } := rfl
@[simp] theorem complete_ie (s : State) : (s.complete).ie = s.ie := rfl
@[simp] theorem complete_errs (s : State) : (s.complete).errs = s.errs := rfl
@[simp] theorem complete_inLen (s : State) : (s.complete).inLen = s.inLen := rfl
@[simp] theorem complete_artLen (s : State) : (s.complete).artLen = s.artLen := rfl
@[simp] theorem complete_nsym (s : State) : (s.complete).nsym = s.nsym := rfl
@[simp] theorem complete_nnodes (s : State) : (s.complete).nnodes = s.nnodes := rfl
@[simp] theorem complete_root (s : State) : (s.complete).root = s.root := rfl
@[simp] theorem complete_payBits (s : State) : (s.complete).payBits = s.payBits := rfl
@[simp] theorem complete_outLen (s : State) : (s.complete).outLen = s.outLen := rfl
@[simp] theorem complete_payOff (s : State) : (s.complete).payOff = s.payOff := rfl
@[simp] theorem complete_payBytes (s : State) : (s.complete).payBytes = s.payBytes := rfl
@[simp] theorem complete_dtabN (s : State) : (s.complete).dtabN = s.dtabN := rfl
@[simp] theorem complete_outCnt (s : State) : (s.complete).outCnt = s.outCnt := rfl
@[simp] theorem complete_decBits (s : State) : (s.complete).decBits = s.decBits := rfl
@[simp] theorem complete_valid (s : State) : (s.complete).valid = s.valid := rfl
@[simp] theorem complete_freq (s : State) : (s.complete).freq = s.freq := rfl
@[simp] theorem complete_len (s : State) : (s.complete).len = s.len := rfl
@[simp] theorem complete_node (s : State) : (s.complete).node = s.node := rfl
@[simp] theorem complete_code (s : State) : (s.complete).code = s.code := rfl
@[simp] theorem complete_dtab (s : State) : (s.complete).dtab = s.dtab := rfl
@[simp] theorem complete_ibuf (s : State) : (s.complete).ibuf = s.ibuf := rfl
@[simp] theorem complete_abuf (s : State) : (s.complete).abuf = s.abuf := rfl
@[simp] theorem complete_obuf (s : State) : (s.complete).obuf = s.obuf := rfl
@[simp] theorem complete_powerOnId (s : State) : (s.complete).powerOnId = s.powerOnId := rfl
@[simp] theorem complete_draws (s : State) : (s.complete).draws = s.draws := rfl
@[simp] theorem complete_reads (s : State) : (s.complete).reads = s.reads := rfl
@[simp] theorem complete_agenda (s : State) : (s.complete).agenda = s.agenda := rfl

/-! ## The error record (60_exceptions.md R250) -/

@[simp] theorem recordError_params (s : State) (e : Raise) : (s.recordError e).params = s.params := rfl
@[simp] theorem recordError_phase (s : State) (e : Raise) : (s.recordError e).phase = s.phase := rfl
@[simp] theorem recordError_cmd (s : State) (e : Raise) : (s.recordError e).cmd = s.cmd := rfl
@[simp] theorem recordError_status (s : State) (e : Raise) : (s.recordError e).status = { s.status with err := true } := rfl
@[simp] theorem recordError_ie (s : State) (e : Raise) : (s.recordError e).ie = s.ie := rfl
@[simp] theorem recordError_errs (s : State) (e : Raise) : (s.recordError e).errs = e.record := rfl
@[simp] theorem recordError_inLen (s : State) (e : Raise) : (s.recordError e).inLen = s.inLen := rfl
@[simp] theorem recordError_artLen (s : State) (e : Raise) : (s.recordError e).artLen = s.artLen := rfl
@[simp] theorem recordError_nsym (s : State) (e : Raise) : (s.recordError e).nsym = s.nsym := rfl
@[simp] theorem recordError_nnodes (s : State) (e : Raise) : (s.recordError e).nnodes = s.nnodes := rfl
@[simp] theorem recordError_root (s : State) (e : Raise) : (s.recordError e).root = s.root := rfl
@[simp] theorem recordError_payBits (s : State) (e : Raise) : (s.recordError e).payBits = s.payBits := rfl
@[simp] theorem recordError_outLen (s : State) (e : Raise) : (s.recordError e).outLen = s.outLen := rfl
@[simp] theorem recordError_payOff (s : State) (e : Raise) : (s.recordError e).payOff = s.payOff := rfl
@[simp] theorem recordError_payBytes (s : State) (e : Raise) : (s.recordError e).payBytes = s.payBytes := rfl
@[simp] theorem recordError_dtabN (s : State) (e : Raise) : (s.recordError e).dtabN = s.dtabN := rfl
@[simp] theorem recordError_outCnt (s : State) (e : Raise) : (s.recordError e).outCnt = s.outCnt := rfl
@[simp] theorem recordError_decBits (s : State) (e : Raise) : (s.recordError e).decBits = s.decBits := rfl
@[simp] theorem recordError_valid (s : State) (e : Raise) : (s.recordError e).valid = s.valid := rfl
@[simp] theorem recordError_freq (s : State) (e : Raise) : (s.recordError e).freq = s.freq := rfl
@[simp] theorem recordError_len (s : State) (e : Raise) : (s.recordError e).len = s.len := rfl
@[simp] theorem recordError_node (s : State) (e : Raise) : (s.recordError e).node = s.node := rfl
@[simp] theorem recordError_code (s : State) (e : Raise) : (s.recordError e).code = s.code := rfl
@[simp] theorem recordError_dtab (s : State) (e : Raise) : (s.recordError e).dtab = s.dtab := rfl
@[simp] theorem recordError_ibuf (s : State) (e : Raise) : (s.recordError e).ibuf = s.ibuf := rfl
@[simp] theorem recordError_abuf (s : State) (e : Raise) : (s.recordError e).abuf = s.abuf := rfl
@[simp] theorem recordError_obuf (s : State) (e : Raise) : (s.recordError e).obuf = s.obuf := rfl
@[simp] theorem recordError_powerOnId (s : State) (e : Raise) : (s.recordError e).powerOnId = s.powerOnId := rfl
@[simp] theorem recordError_draws (s : State) (e : Raise) : (s.recordError e).draws = s.draws := rfl
@[simp] theorem recordError_reads (s : State) (e : Raise) : (s.recordError e).reads = s.reads := rfl
@[simp] theorem recordError_agenda (s : State) (e : Raise) : (s.recordError e).agenda = s.agenda := rfl

/-! ## Acceptance (40_control.md R120) -/

@[simp] theorem accept_params (s : State) (w : Word) : (s.accept w).params = s.params := rfl
@[simp] theorem accept_phase (s : State) (w : Word) : (s.accept w).phase = .busy w := rfl
@[simp] theorem accept_cmd (s : State) (w : Word) : (s.accept w).cmd = w := rfl
@[simp] theorem accept_status (s : State) (w : Word) : (s.accept w).status = { s.status with done := false } := rfl
@[simp] theorem accept_ie (s : State) (w : Word) : (s.accept w).ie = s.ie := rfl
@[simp] theorem accept_errs (s : State) (w : Word) : (s.accept w).errs = s.errs := rfl
@[simp] theorem accept_inLen (s : State) (w : Word) : (s.accept w).inLen = s.inLen := rfl
@[simp] theorem accept_artLen (s : State) (w : Word) : (s.accept w).artLen = s.artLen := rfl
@[simp] theorem accept_nsym (s : State) (w : Word) : (s.accept w).nsym = s.nsym := rfl
@[simp] theorem accept_nnodes (s : State) (w : Word) : (s.accept w).nnodes = s.nnodes := rfl
@[simp] theorem accept_root (s : State) (w : Word) : (s.accept w).root = s.root := rfl
@[simp] theorem accept_payBits (s : State) (w : Word) : (s.accept w).payBits = s.payBits := rfl
@[simp] theorem accept_outLen (s : State) (w : Word) : (s.accept w).outLen = s.outLen := rfl
@[simp] theorem accept_payOff (s : State) (w : Word) : (s.accept w).payOff = s.payOff := rfl
@[simp] theorem accept_payBytes (s : State) (w : Word) : (s.accept w).payBytes = s.payBytes := rfl
@[simp] theorem accept_dtabN (s : State) (w : Word) : (s.accept w).dtabN = s.dtabN := rfl
@[simp] theorem accept_outCnt (s : State) (w : Word) : (s.accept w).outCnt = s.outCnt := rfl
@[simp] theorem accept_decBits (s : State) (w : Word) : (s.accept w).decBits = s.decBits := rfl
@[simp] theorem accept_valid (s : State) (w : Word) : (s.accept w).valid = s.valid := rfl
@[simp] theorem accept_freq (s : State) (w : Word) : (s.accept w).freq = s.freq := rfl
@[simp] theorem accept_len (s : State) (w : Word) : (s.accept w).len = s.len := rfl
@[simp] theorem accept_node (s : State) (w : Word) : (s.accept w).node = s.node := rfl
@[simp] theorem accept_code (s : State) (w : Word) : (s.accept w).code = s.code := rfl
@[simp] theorem accept_dtab (s : State) (w : Word) : (s.accept w).dtab = s.dtab := rfl
@[simp] theorem accept_ibuf (s : State) (w : Word) : (s.accept w).ibuf = s.ibuf := rfl
@[simp] theorem accept_abuf (s : State) (w : Word) : (s.accept w).abuf = s.abuf := rfl
@[simp] theorem accept_obuf (s : State) (w : Word) : (s.accept w).obuf = s.obuf := rfl
@[simp] theorem accept_powerOnId (s : State) (w : Word) : (s.accept w).powerOnId = s.powerOnId := rfl
@[simp] theorem accept_draws (s : State) (w : Word) : (s.accept w).draws = s.draws := rfl
@[simp] theorem accept_reads (s : State) (w : Word) : (s.accept w).reads = s.reads := rfl
@[simp] theorem accept_agenda (s : State) (w : Word) : (s.accept w).agenda = s.agenda := rfl

/-! ## The register and table reset (70_reset_and_hazards.md R271) -/

@[simp] theorem resetRegs_params (s : State) : (s.resetRegs).params = s.params := rfl
@[simp] theorem resetRegs_phase (s : State) : (s.resetRegs).phase = s.phase := rfl
@[simp] theorem resetRegs_cmd (s : State) : (s.resetRegs).cmd = s.cmd := rfl
@[simp] theorem resetRegs_status (s : State) : (s.resetRegs).status = { s.status with err := false, ovr := false, empty := false } := rfl
@[simp] theorem resetRegs_ie (s : State) : (s.resetRegs).ie = { doneIe := false, errIe := false } := rfl
@[simp] theorem resetRegs_errs (s : State) : (s.resetRegs).errs = { step := 0#8, sub := 0#8, code := 0#8, info := 0#32, aux := 0#32 } := rfl
@[simp] theorem resetRegs_inLen (s : State) : (s.resetRegs).inLen = 0#32 := rfl
@[simp] theorem resetRegs_artLen (s : State) : (s.resetRegs).artLen = 0#32 := rfl
@[simp] theorem resetRegs_nsym (s : State) : (s.resetRegs).nsym = 0#9 := rfl
@[simp] theorem resetRegs_nnodes (s : State) : (s.resetRegs).nnodes = 0#9 := rfl
@[simp] theorem resetRegs_root (s : State) : (s.resetRegs).root = 0x1FF#9 := rfl
@[simp] theorem resetRegs_payBits (s : State) : (s.resetRegs).payBits = 0#32 := rfl
@[simp] theorem resetRegs_outLen (s : State) : (s.resetRegs).outLen = 0#32 := rfl
@[simp] theorem resetRegs_payOff (s : State) : (s.resetRegs).payOff = 0#32 := rfl
@[simp] theorem resetRegs_payBytes (s : State) : (s.resetRegs).payBytes = 0#32 := rfl
@[simp] theorem resetRegs_dtabN (s : State) : (s.resetRegs).dtabN = 0#9 := rfl
@[simp] theorem resetRegs_outCnt (s : State) : (s.resetRegs).outCnt = 0#32 := rfl
@[simp] theorem resetRegs_decBits (s : State) : (s.resetRegs).decBits = 0#32 := rfl
@[simp] theorem resetRegs_valid (s : State) : (s.resetRegs).valid = { freq := false, tree := false, code := false, dtab := false } := rfl
@[simp] theorem resetRegs_freq (s : State) : (s.resetRegs).freq = Vector.replicate 256 0#32 := rfl
@[simp] theorem resetRegs_len (s : State) : (s.resetRegs).len = Vector.replicate 256 0#8 := rfl
@[simp] theorem resetRegs_node (s : State) : (s.resetRegs).node = Vector.replicate 511 Node.zero := rfl
@[simp] theorem resetRegs_code (s : State) : (s.resetRegs).code = Vector.replicate 256 0#32 := rfl
@[simp] theorem resetRegs_dtab (s : State) : (s.resetRegs).dtab = Vector.replicate 256 DEntry.zero := rfl
@[simp] theorem resetRegs_ibuf (s : State) : (s.resetRegs).ibuf = s.ibuf := rfl
@[simp] theorem resetRegs_abuf (s : State) : (s.resetRegs).abuf = s.abuf := rfl
@[simp] theorem resetRegs_obuf (s : State) : (s.resetRegs).obuf = s.obuf := rfl
@[simp] theorem resetRegs_powerOnId (s : State) : (s.resetRegs).powerOnId = s.powerOnId := rfl
@[simp] theorem resetRegs_draws (s : State) : (s.resetRegs).draws = s.draws := rfl
@[simp] theorem resetRegs_reads (s : State) : (s.resetRegs).reads = s.reads := rfl
@[simp] theorem resetRegs_agenda (s : State) : (s.resetRegs).agenda = s.agenda := rfl

/-! ## BUILD's commit (42_tree.md R151) -/

@[simp] theorem commitBuild_params (s : State) (ls ns : List Node) : (s.commitBuild ls ns).params = s.params := rfl
@[simp] theorem commitBuild_phase (s : State) (ls ns : List Node) : (s.commitBuild ls ns).phase = s.phase := rfl
@[simp] theorem commitBuild_cmd (s : State) (ls ns : List Node) : (s.commitBuild ls ns).cmd = s.cmd := rfl
@[simp] theorem commitBuild_status (s : State) (ls ns : List Node) : (s.commitBuild ls ns).status = s.status.setEmpty (ls.length == 0) := rfl
@[simp] theorem commitBuild_ie (s : State) (ls ns : List Node) : (s.commitBuild ls ns).ie = s.ie := rfl
@[simp] theorem commitBuild_errs (s : State) (ls ns : List Node) : (s.commitBuild ls ns).errs = s.errs := rfl
@[simp] theorem commitBuild_inLen (s : State) (ls ns : List Node) : (s.commitBuild ls ns).inLen = s.inLen := rfl
@[simp] theorem commitBuild_artLen (s : State) (ls ns : List Node) : (s.commitBuild ls ns).artLen = s.artLen := rfl
@[simp] theorem commitBuild_nsym (s : State) (ls ns : List Node) : (s.commitBuild ls ns).nsym = BitVec.ofNat 9 ls.length := rfl
@[simp] theorem commitBuild_nnodes (s : State) (ls ns : List Node) : (s.commitBuild ls ns).nnodes = BitVec.ofNat 9 (nodeCount ls.length) := rfl
@[simp] theorem commitBuild_root (s : State) (ls ns : List Node) : (s.commitBuild ls ns).root = BitVec.ofNat 9 (rootIndex ls.length) := rfl
@[simp] theorem commitBuild_payBits (s : State) (ls ns : List Node) : (s.commitBuild ls ns).payBits = s.payBits := rfl
@[simp] theorem commitBuild_outLen (s : State) (ls ns : List Node) : (s.commitBuild ls ns).outLen = s.outLen := rfl
@[simp] theorem commitBuild_payOff (s : State) (ls ns : List Node) : (s.commitBuild ls ns).payOff = s.payOff := rfl
@[simp] theorem commitBuild_payBytes (s : State) (ls ns : List Node) : (s.commitBuild ls ns).payBytes = s.payBytes := rfl
@[simp] theorem commitBuild_dtabN (s : State) (ls ns : List Node) : (s.commitBuild ls ns).dtabN = s.dtabN := rfl
@[simp] theorem commitBuild_outCnt (s : State) (ls ns : List Node) : (s.commitBuild ls ns).outCnt = s.outCnt := rfl
@[simp] theorem commitBuild_decBits (s : State) (ls ns : List Node) : (s.commitBuild ls ns).decBits = s.decBits := rfl
@[simp] theorem commitBuild_valid (s : State) (ls ns : List Node) : (s.commitBuild ls ns).valid = s.valid.afterBuild := rfl
@[simp] theorem commitBuild_freq (s : State) (ls ns : List Node) : (s.commitBuild ls ns).freq = s.freq := rfl
@[simp] theorem commitBuild_len (s : State) (ls ns : List Node) : (s.commitBuild ls ns).len = lenTable (codeLengths ls ns) := rfl
@[simp] theorem commitBuild_node (s : State) (ls ns : List Node) : (s.commitBuild ls ns).node = nodeTable ns := rfl
@[simp] theorem commitBuild_code (s : State) (ls ns : List Node) : (s.commitBuild ls ns).code = s.code := rfl
@[simp] theorem commitBuild_dtab (s : State) (ls ns : List Node) : (s.commitBuild ls ns).dtab = s.dtab := rfl
@[simp] theorem commitBuild_ibuf (s : State) (ls ns : List Node) : (s.commitBuild ls ns).ibuf = s.ibuf := rfl
@[simp] theorem commitBuild_abuf (s : State) (ls ns : List Node) : (s.commitBuild ls ns).abuf = s.abuf := rfl
@[simp] theorem commitBuild_obuf (s : State) (ls ns : List Node) : (s.commitBuild ls ns).obuf = s.obuf := rfl
@[simp] theorem commitBuild_powerOnId (s : State) (ls ns : List Node) : (s.commitBuild ls ns).powerOnId = s.powerOnId := rfl
@[simp] theorem commitBuild_draws (s : State) (ls ns : List Node) : (s.commitBuild ls ns).draws = s.draws := rfl
@[simp] theorem commitBuild_reads (s : State) (ls ns : List Node) : (s.commitBuild ls ns).reads = s.reads := rfl
@[simp] theorem commitBuild_agenda (s : State) (ls ns : List Node) : (s.commitBuild ls ns).agenda = s.agenda := rfl

/-! ## A dropped write (70_reset_and_hazards.md R280) -/

@[simp] theorem dropWrite_params (s : State) : (s.dropWrite).params = s.params := rfl
@[simp] theorem dropWrite_phase (s : State) : (s.dropWrite).phase = s.phase := rfl
@[simp] theorem dropWrite_cmd (s : State) : (s.dropWrite).cmd = s.cmd := rfl
@[simp] theorem dropWrite_status (s : State) : (s.dropWrite).status = { s.status with ovr := true } := rfl
@[simp] theorem dropWrite_ie (s : State) : (s.dropWrite).ie = s.ie := rfl
@[simp] theorem dropWrite_errs (s : State) : (s.dropWrite).errs = s.errs := rfl
@[simp] theorem dropWrite_inLen (s : State) : (s.dropWrite).inLen = s.inLen := rfl
@[simp] theorem dropWrite_artLen (s : State) : (s.dropWrite).artLen = s.artLen := rfl
@[simp] theorem dropWrite_nsym (s : State) : (s.dropWrite).nsym = s.nsym := rfl
@[simp] theorem dropWrite_nnodes (s : State) : (s.dropWrite).nnodes = s.nnodes := rfl
@[simp] theorem dropWrite_root (s : State) : (s.dropWrite).root = s.root := rfl
@[simp] theorem dropWrite_payBits (s : State) : (s.dropWrite).payBits = s.payBits := rfl
@[simp] theorem dropWrite_outLen (s : State) : (s.dropWrite).outLen = s.outLen := rfl
@[simp] theorem dropWrite_payOff (s : State) : (s.dropWrite).payOff = s.payOff := rfl
@[simp] theorem dropWrite_payBytes (s : State) : (s.dropWrite).payBytes = s.payBytes := rfl
@[simp] theorem dropWrite_dtabN (s : State) : (s.dropWrite).dtabN = s.dtabN := rfl
@[simp] theorem dropWrite_outCnt (s : State) : (s.dropWrite).outCnt = s.outCnt := rfl
@[simp] theorem dropWrite_decBits (s : State) : (s.dropWrite).decBits = s.decBits := rfl
@[simp] theorem dropWrite_valid (s : State) : (s.dropWrite).valid = s.valid := rfl
@[simp] theorem dropWrite_freq (s : State) : (s.dropWrite).freq = s.freq := rfl
@[simp] theorem dropWrite_len (s : State) : (s.dropWrite).len = s.len := rfl
@[simp] theorem dropWrite_node (s : State) : (s.dropWrite).node = s.node := rfl
@[simp] theorem dropWrite_code (s : State) : (s.dropWrite).code = s.code := rfl
@[simp] theorem dropWrite_dtab (s : State) : (s.dropWrite).dtab = s.dtab := rfl
@[simp] theorem dropWrite_ibuf (s : State) : (s.dropWrite).ibuf = s.ibuf := rfl
@[simp] theorem dropWrite_abuf (s : State) : (s.dropWrite).abuf = s.abuf := rfl
@[simp] theorem dropWrite_obuf (s : State) : (s.dropWrite).obuf = s.obuf := rfl
@[simp] theorem dropWrite_powerOnId (s : State) : (s.dropWrite).powerOnId = s.powerOnId := rfl
@[simp] theorem dropWrite_draws (s : State) : (s.dropWrite).draws = s.draws := rfl
@[simp] theorem dropWrite_reads (s : State) : (s.dropWrite).reads = s.reads := rfl
@[simp] theorem dropWrite_agenda (s : State) : (s.dropWrite).agenda = s.agenda := rfl

/-! ## Power-on (70_reset_and_hazards.md R270) -/

@[simp] theorem powerOnBuffers_params (s : State) : (s.powerOnBuffers).params = s.params := rfl
@[simp] theorem powerOnBuffers_phase (s : State) : (s.powerOnBuffers).phase = s.phase := rfl
@[simp] theorem powerOnBuffers_cmd (s : State) : (s.powerOnBuffers).cmd = s.cmd := rfl
@[simp] theorem powerOnBuffers_status (s : State) : (s.powerOnBuffers).status = s.status := rfl
@[simp] theorem powerOnBuffers_ie (s : State) : (s.powerOnBuffers).ie = s.ie := rfl
@[simp] theorem powerOnBuffers_errs (s : State) : (s.powerOnBuffers).errs = s.errs := rfl
@[simp] theorem powerOnBuffers_inLen (s : State) : (s.powerOnBuffers).inLen = s.inLen := rfl
@[simp] theorem powerOnBuffers_artLen (s : State) : (s.powerOnBuffers).artLen = s.artLen := rfl
@[simp] theorem powerOnBuffers_nsym (s : State) : (s.powerOnBuffers).nsym = s.nsym := rfl
@[simp] theorem powerOnBuffers_nnodes (s : State) : (s.powerOnBuffers).nnodes = s.nnodes := rfl
@[simp] theorem powerOnBuffers_root (s : State) : (s.powerOnBuffers).root = s.root := rfl
@[simp] theorem powerOnBuffers_payBits (s : State) : (s.powerOnBuffers).payBits = s.payBits := rfl
@[simp] theorem powerOnBuffers_outLen (s : State) : (s.powerOnBuffers).outLen = s.outLen := rfl
@[simp] theorem powerOnBuffers_payOff (s : State) : (s.powerOnBuffers).payOff = s.payOff := rfl
@[simp] theorem powerOnBuffers_payBytes (s : State) : (s.powerOnBuffers).payBytes = s.payBytes := rfl
@[simp] theorem powerOnBuffers_dtabN (s : State) : (s.powerOnBuffers).dtabN = s.dtabN := rfl
@[simp] theorem powerOnBuffers_outCnt (s : State) : (s.powerOnBuffers).outCnt = s.outCnt := rfl
@[simp] theorem powerOnBuffers_decBits (s : State) : (s.powerOnBuffers).decBits = s.decBits := rfl
@[simp] theorem powerOnBuffers_valid (s : State) : (s.powerOnBuffers).valid = s.valid := rfl
@[simp] theorem powerOnBuffers_freq (s : State) : (s.powerOnBuffers).freq = s.freq := rfl
@[simp] theorem powerOnBuffers_len (s : State) : (s.powerOnBuffers).len = s.len := rfl
@[simp] theorem powerOnBuffers_node (s : State) : (s.powerOnBuffers).node = s.node := rfl
@[simp] theorem powerOnBuffers_code (s : State) : (s.powerOnBuffers).code = s.code := rfl
@[simp] theorem powerOnBuffers_dtab (s : State) : (s.powerOnBuffers).dtab = s.dtab := rfl
@[simp] theorem powerOnBuffers_ibuf (s : State) : (s.powerOnBuffers).ibuf = { cells := [] } := rfl
@[simp] theorem powerOnBuffers_abuf (s : State) : (s.powerOnBuffers).abuf = { cells := [] } := rfl
@[simp] theorem powerOnBuffers_obuf (s : State) : (s.powerOnBuffers).obuf = { cells := [] } := rfl
@[simp] theorem powerOnBuffers_powerOnId (s : State) : (s.powerOnBuffers).powerOnId = s.draws := rfl
@[simp] theorem powerOnBuffers_draws (s : State) : (s.powerOnBuffers).draws = s.draws + 1 := rfl
@[simp] theorem powerOnBuffers_reads (s : State) : (s.powerOnBuffers).reads = s.reads := rfl
@[simp] theorem powerOnBuffers_agenda (s : State) : (s.powerOnBuffers).agenda = s.agenda := rfl

/-! ## The reset of registers, tables and phase (70_reset_and_hazards.md R270) -/

@[simp] theorem resetCore_params (s : State) : (s.resetCore).params = s.params := rfl
@[simp] theorem resetCore_phase (s : State) : (s.resetCore).phase = .idle := rfl
@[simp] theorem resetCore_cmd (s : State) : (s.resetCore).cmd = 0#32 := rfl
@[simp] theorem resetCore_status (s : State) : (s.resetCore).status = { done := false, err := false, ovr := false, empty := false } := rfl
@[simp] theorem resetCore_ie (s : State) : (s.resetCore).ie = { doneIe := false, errIe := false } := rfl
@[simp] theorem resetCore_errs (s : State) : (s.resetCore).errs = { step := 0#8, sub := 0#8, code := 0#8, info := 0#32, aux := 0#32 } := rfl
@[simp] theorem resetCore_inLen (s : State) : (s.resetCore).inLen = 0#32 := rfl
@[simp] theorem resetCore_artLen (s : State) : (s.resetCore).artLen = 0#32 := rfl
@[simp] theorem resetCore_nsym (s : State) : (s.resetCore).nsym = 0#9 := rfl
@[simp] theorem resetCore_nnodes (s : State) : (s.resetCore).nnodes = 0#9 := rfl
@[simp] theorem resetCore_root (s : State) : (s.resetCore).root = 0x1FF#9 := rfl
@[simp] theorem resetCore_payBits (s : State) : (s.resetCore).payBits = 0#32 := rfl
@[simp] theorem resetCore_outLen (s : State) : (s.resetCore).outLen = 0#32 := rfl
@[simp] theorem resetCore_payOff (s : State) : (s.resetCore).payOff = 0#32 := rfl
@[simp] theorem resetCore_payBytes (s : State) : (s.resetCore).payBytes = 0#32 := rfl
@[simp] theorem resetCore_dtabN (s : State) : (s.resetCore).dtabN = 0#9 := rfl
@[simp] theorem resetCore_outCnt (s : State) : (s.resetCore).outCnt = 0#32 := rfl
@[simp] theorem resetCore_decBits (s : State) : (s.resetCore).decBits = 0#32 := rfl
@[simp] theorem resetCore_valid (s : State) : (s.resetCore).valid = { freq := false, tree := false, code := false, dtab := false } := rfl
@[simp] theorem resetCore_freq (s : State) : (s.resetCore).freq = Vector.replicate 256 0#32 := rfl
@[simp] theorem resetCore_len (s : State) : (s.resetCore).len = Vector.replicate 256 0#8 := rfl
@[simp] theorem resetCore_node (s : State) : (s.resetCore).node = Vector.replicate 511 Node.zero := rfl
@[simp] theorem resetCore_code (s : State) : (s.resetCore).code = Vector.replicate 256 0#32 := rfl
@[simp] theorem resetCore_dtab (s : State) : (s.resetCore).dtab = Vector.replicate 256 DEntry.zero := rfl
@[simp] theorem resetCore_ibuf (s : State) : (s.resetCore).ibuf = s.ibuf := rfl
@[simp] theorem resetCore_abuf (s : State) : (s.resetCore).abuf = s.abuf := rfl
@[simp] theorem resetCore_obuf (s : State) : (s.resetCore).obuf = s.obuf := rfl
@[simp] theorem resetCore_powerOnId (s : State) : (s.resetCore).powerOnId = s.powerOnId := rfl
@[simp] theorem resetCore_draws (s : State) : (s.resetCore).draws = s.draws := rfl
@[simp] theorem resetCore_reads (s : State) : (s.resetCore).reads = s.reads := rfl
@[simp] theorem resetCore_agenda (s : State) : (s.resetCore).agenda = s.agenda := rfl

/-! ## A buffer replaced -/

@[simp] theorem setBuf_params (s : State) (b : Buf) (m : Memory) : (s.setBuf b m).params = s.params := by cases b <;> rfl
@[simp] theorem setBuf_phase (s : State) (b : Buf) (m : Memory) : (s.setBuf b m).phase = s.phase := by cases b <;> rfl
@[simp] theorem setBuf_cmd (s : State) (b : Buf) (m : Memory) : (s.setBuf b m).cmd = s.cmd := by cases b <;> rfl
@[simp] theorem setBuf_status (s : State) (b : Buf) (m : Memory) : (s.setBuf b m).status = s.status := by cases b <;> rfl
@[simp] theorem setBuf_ie (s : State) (b : Buf) (m : Memory) : (s.setBuf b m).ie = s.ie := by cases b <;> rfl
@[simp] theorem setBuf_errs (s : State) (b : Buf) (m : Memory) : (s.setBuf b m).errs = s.errs := by cases b <;> rfl
@[simp] theorem setBuf_inLen (s : State) (b : Buf) (m : Memory) : (s.setBuf b m).inLen = s.inLen := by cases b <;> rfl
@[simp] theorem setBuf_artLen (s : State) (b : Buf) (m : Memory) : (s.setBuf b m).artLen = s.artLen := by cases b <;> rfl
@[simp] theorem setBuf_nsym (s : State) (b : Buf) (m : Memory) : (s.setBuf b m).nsym = s.nsym := by cases b <;> rfl
@[simp] theorem setBuf_nnodes (s : State) (b : Buf) (m : Memory) : (s.setBuf b m).nnodes = s.nnodes := by cases b <;> rfl
@[simp] theorem setBuf_root (s : State) (b : Buf) (m : Memory) : (s.setBuf b m).root = s.root := by cases b <;> rfl
@[simp] theorem setBuf_payBits (s : State) (b : Buf) (m : Memory) : (s.setBuf b m).payBits = s.payBits := by cases b <;> rfl
@[simp] theorem setBuf_outLen (s : State) (b : Buf) (m : Memory) : (s.setBuf b m).outLen = s.outLen := by cases b <;> rfl
@[simp] theorem setBuf_payOff (s : State) (b : Buf) (m : Memory) : (s.setBuf b m).payOff = s.payOff := by cases b <;> rfl
@[simp] theorem setBuf_payBytes (s : State) (b : Buf) (m : Memory) : (s.setBuf b m).payBytes = s.payBytes := by cases b <;> rfl
@[simp] theorem setBuf_dtabN (s : State) (b : Buf) (m : Memory) : (s.setBuf b m).dtabN = s.dtabN := by cases b <;> rfl
@[simp] theorem setBuf_outCnt (s : State) (b : Buf) (m : Memory) : (s.setBuf b m).outCnt = s.outCnt := by cases b <;> rfl
@[simp] theorem setBuf_decBits (s : State) (b : Buf) (m : Memory) : (s.setBuf b m).decBits = s.decBits := by cases b <;> rfl
@[simp] theorem setBuf_valid (s : State) (b : Buf) (m : Memory) : (s.setBuf b m).valid = s.valid := by cases b <;> rfl
@[simp] theorem setBuf_freq (s : State) (b : Buf) (m : Memory) : (s.setBuf b m).freq = s.freq := by cases b <;> rfl
@[simp] theorem setBuf_len (s : State) (b : Buf) (m : Memory) : (s.setBuf b m).len = s.len := by cases b <;> rfl
@[simp] theorem setBuf_node (s : State) (b : Buf) (m : Memory) : (s.setBuf b m).node = s.node := by cases b <;> rfl
@[simp] theorem setBuf_code (s : State) (b : Buf) (m : Memory) : (s.setBuf b m).code = s.code := by cases b <;> rfl
@[simp] theorem setBuf_dtab (s : State) (b : Buf) (m : Memory) : (s.setBuf b m).dtab = s.dtab := by cases b <;> rfl
@[simp] theorem setBuf_powerOnId (s : State) (b : Buf) (m : Memory) : (s.setBuf b m).powerOnId = s.powerOnId := by cases b <;> rfl
@[simp] theorem setBuf_draws (s : State) (b : Buf) (m : Memory) : (s.setBuf b m).draws = s.draws := by cases b <;> rfl
@[simp] theorem setBuf_reads (s : State) (b : Buf) (m : Memory) : (s.setBuf b m).reads = s.reads := by cases b <;> rfl
@[simp] theorem setBuf_agenda (s : State) (b : Buf) (m : Memory) : (s.setBuf b m).agenda = s.agenda := by cases b <;> rfl

/-! ## Bytes written into a buffer -/

@[simp] theorem putBytes_params (s : State) (b : Buf) (a : Nat) (bs : List Byte) : (s.putBytes b a bs).params = s.params := by cases b <;> rfl
@[simp] theorem putBytes_phase (s : State) (b : Buf) (a : Nat) (bs : List Byte) : (s.putBytes b a bs).phase = s.phase := by cases b <;> rfl
@[simp] theorem putBytes_cmd (s : State) (b : Buf) (a : Nat) (bs : List Byte) : (s.putBytes b a bs).cmd = s.cmd := by cases b <;> rfl
@[simp] theorem putBytes_status (s : State) (b : Buf) (a : Nat) (bs : List Byte) : (s.putBytes b a bs).status = s.status := by cases b <;> rfl
@[simp] theorem putBytes_ie (s : State) (b : Buf) (a : Nat) (bs : List Byte) : (s.putBytes b a bs).ie = s.ie := by cases b <;> rfl
@[simp] theorem putBytes_errs (s : State) (b : Buf) (a : Nat) (bs : List Byte) : (s.putBytes b a bs).errs = s.errs := by cases b <;> rfl
@[simp] theorem putBytes_inLen (s : State) (b : Buf) (a : Nat) (bs : List Byte) : (s.putBytes b a bs).inLen = s.inLen := by cases b <;> rfl
@[simp] theorem putBytes_artLen (s : State) (b : Buf) (a : Nat) (bs : List Byte) : (s.putBytes b a bs).artLen = s.artLen := by cases b <;> rfl
@[simp] theorem putBytes_nsym (s : State) (b : Buf) (a : Nat) (bs : List Byte) : (s.putBytes b a bs).nsym = s.nsym := by cases b <;> rfl
@[simp] theorem putBytes_nnodes (s : State) (b : Buf) (a : Nat) (bs : List Byte) : (s.putBytes b a bs).nnodes = s.nnodes := by cases b <;> rfl
@[simp] theorem putBytes_root (s : State) (b : Buf) (a : Nat) (bs : List Byte) : (s.putBytes b a bs).root = s.root := by cases b <;> rfl
@[simp] theorem putBytes_payBits (s : State) (b : Buf) (a : Nat) (bs : List Byte) : (s.putBytes b a bs).payBits = s.payBits := by cases b <;> rfl
@[simp] theorem putBytes_outLen (s : State) (b : Buf) (a : Nat) (bs : List Byte) : (s.putBytes b a bs).outLen = s.outLen := by cases b <;> rfl
@[simp] theorem putBytes_payOff (s : State) (b : Buf) (a : Nat) (bs : List Byte) : (s.putBytes b a bs).payOff = s.payOff := by cases b <;> rfl
@[simp] theorem putBytes_payBytes (s : State) (b : Buf) (a : Nat) (bs : List Byte) : (s.putBytes b a bs).payBytes = s.payBytes := by cases b <;> rfl
@[simp] theorem putBytes_dtabN (s : State) (b : Buf) (a : Nat) (bs : List Byte) : (s.putBytes b a bs).dtabN = s.dtabN := by cases b <;> rfl
@[simp] theorem putBytes_outCnt (s : State) (b : Buf) (a : Nat) (bs : List Byte) : (s.putBytes b a bs).outCnt = s.outCnt := by cases b <;> rfl
@[simp] theorem putBytes_decBits (s : State) (b : Buf) (a : Nat) (bs : List Byte) : (s.putBytes b a bs).decBits = s.decBits := by cases b <;> rfl
@[simp] theorem putBytes_valid (s : State) (b : Buf) (a : Nat) (bs : List Byte) : (s.putBytes b a bs).valid = s.valid := by cases b <;> rfl
@[simp] theorem putBytes_freq (s : State) (b : Buf) (a : Nat) (bs : List Byte) : (s.putBytes b a bs).freq = s.freq := by cases b <;> rfl
@[simp] theorem putBytes_len (s : State) (b : Buf) (a : Nat) (bs : List Byte) : (s.putBytes b a bs).len = s.len := by cases b <;> rfl
@[simp] theorem putBytes_node (s : State) (b : Buf) (a : Nat) (bs : List Byte) : (s.putBytes b a bs).node = s.node := by cases b <;> rfl
@[simp] theorem putBytes_code (s : State) (b : Buf) (a : Nat) (bs : List Byte) : (s.putBytes b a bs).code = s.code := by cases b <;> rfl
@[simp] theorem putBytes_dtab (s : State) (b : Buf) (a : Nat) (bs : List Byte) : (s.putBytes b a bs).dtab = s.dtab := by cases b <;> rfl
@[simp] theorem putBytes_powerOnId (s : State) (b : Buf) (a : Nat) (bs : List Byte) : (s.putBytes b a bs).powerOnId = s.powerOnId := by cases b <;> rfl
@[simp] theorem putBytes_draws (s : State) (b : Buf) (a : Nat) (bs : List Byte) : (s.putBytes b a bs).draws = s.draws := by cases b <;> rfl
@[simp] theorem putBytes_reads (s : State) (b : Buf) (a : Nat) (bs : List Byte) : (s.putBytes b a bs).reads = s.reads := by cases b <;> rfl
@[simp] theorem putBytes_agenda (s : State) (b : Buf) (a : Nat) (bs : List Byte) : (s.putBytes b a bs).agenda = s.agenda := by cases b <;> rfl

/-! ## DECODE's output (46_decoder.md R224, R226) -/

@[simp] theorem putDecoded_params (s : State) (d : Decoded) : (s.putDecoded d).params = s.params := rfl
@[simp] theorem putDecoded_phase (s : State) (d : Decoded) : (s.putDecoded d).phase = s.phase := rfl
@[simp] theorem putDecoded_cmd (s : State) (d : Decoded) : (s.putDecoded d).cmd = s.cmd := rfl
@[simp] theorem putDecoded_status (s : State) (d : Decoded) : (s.putDecoded d).status = s.status := rfl
@[simp] theorem putDecoded_ie (s : State) (d : Decoded) : (s.putDecoded d).ie = s.ie := rfl
@[simp] theorem putDecoded_errs (s : State) (d : Decoded) : (s.putDecoded d).errs = s.errs := rfl
@[simp] theorem putDecoded_inLen (s : State) (d : Decoded) : (s.putDecoded d).inLen = s.inLen := rfl
@[simp] theorem putDecoded_artLen (s : State) (d : Decoded) : (s.putDecoded d).artLen = s.artLen := rfl
@[simp] theorem putDecoded_nsym (s : State) (d : Decoded) : (s.putDecoded d).nsym = s.nsym := rfl
@[simp] theorem putDecoded_nnodes (s : State) (d : Decoded) : (s.putDecoded d).nnodes = s.nnodes := rfl
@[simp] theorem putDecoded_root (s : State) (d : Decoded) : (s.putDecoded d).root = s.root := rfl
@[simp] theorem putDecoded_payBits (s : State) (d : Decoded) : (s.putDecoded d).payBits = s.payBits := rfl
@[simp] theorem putDecoded_outLen (s : State) (d : Decoded) : (s.putDecoded d).outLen = s.outLen := rfl
@[simp] theorem putDecoded_payOff (s : State) (d : Decoded) : (s.putDecoded d).payOff = s.payOff := rfl
@[simp] theorem putDecoded_payBytes (s : State) (d : Decoded) : (s.putDecoded d).payBytes = s.payBytes := rfl
@[simp] theorem putDecoded_dtabN (s : State) (d : Decoded) : (s.putDecoded d).dtabN = s.dtabN := rfl
@[simp] theorem putDecoded_outCnt (s : State) (d : Decoded) : (s.putDecoded d).outCnt = BitVec.ofNat 32 d.out.length := rfl
@[simp] theorem putDecoded_decBits (s : State) (d : Decoded) : (s.putDecoded d).decBits = BitVec.ofNat 32 d.bits := rfl
@[simp] theorem putDecoded_valid (s : State) (d : Decoded) : (s.putDecoded d).valid = s.valid := rfl
@[simp] theorem putDecoded_freq (s : State) (d : Decoded) : (s.putDecoded d).freq = s.freq := rfl
@[simp] theorem putDecoded_len (s : State) (d : Decoded) : (s.putDecoded d).len = s.len := rfl
@[simp] theorem putDecoded_node (s : State) (d : Decoded) : (s.putDecoded d).node = s.node := rfl
@[simp] theorem putDecoded_code (s : State) (d : Decoded) : (s.putDecoded d).code = s.code := rfl
@[simp] theorem putDecoded_dtab (s : State) (d : Decoded) : (s.putDecoded d).dtab = s.dtab := rfl
@[simp] theorem putDecoded_ibuf (s : State) (d : Decoded) : (s.putDecoded d).ibuf = s.ibuf := rfl
@[simp] theorem putDecoded_abuf (s : State) (d : Decoded) : (s.putDecoded d).abuf = s.abuf := rfl
@[simp] theorem putDecoded_obuf (s : State) (d : Decoded) : (s.putDecoded d).obuf = s.obuf.writeBytes 0 d.out := rfl
@[simp] theorem putDecoded_powerOnId (s : State) (d : Decoded) : (s.putDecoded d).powerOnId = s.powerOnId := rfl
@[simp] theorem putDecoded_draws (s : State) (d : Decoded) : (s.putDecoded d).draws = s.draws := rfl
@[simp] theorem putDecoded_reads (s : State) (d : Decoded) : (s.putDecoded d).reads = s.reads := rfl
@[simp] theorem putDecoded_agenda (s : State) (d : Decoded) : (s.putDecoded d).agenda = s.agenda := rfl

/-! ## Bytes turned into draws (70_reset_and_hazards.md R272) -/

@[simp] theorem scramble_params (s : State) (b : Buf) (n : Nat) : (s.scramble b n).params = s.params := by cases b <;> rfl
@[simp] theorem scramble_phase (s : State) (b : Buf) (n : Nat) : (s.scramble b n).phase = s.phase := by cases b <;> rfl
@[simp] theorem scramble_cmd (s : State) (b : Buf) (n : Nat) : (s.scramble b n).cmd = s.cmd := by cases b <;> rfl
@[simp] theorem scramble_status (s : State) (b : Buf) (n : Nat) : (s.scramble b n).status = s.status := by cases b <;> rfl
@[simp] theorem scramble_ie (s : State) (b : Buf) (n : Nat) : (s.scramble b n).ie = s.ie := by cases b <;> rfl
@[simp] theorem scramble_errs (s : State) (b : Buf) (n : Nat) : (s.scramble b n).errs = s.errs := by cases b <;> rfl
@[simp] theorem scramble_inLen (s : State) (b : Buf) (n : Nat) : (s.scramble b n).inLen = s.inLen := by cases b <;> rfl
@[simp] theorem scramble_artLen (s : State) (b : Buf) (n : Nat) : (s.scramble b n).artLen = s.artLen := by cases b <;> rfl
@[simp] theorem scramble_nsym (s : State) (b : Buf) (n : Nat) : (s.scramble b n).nsym = s.nsym := by cases b <;> rfl
@[simp] theorem scramble_nnodes (s : State) (b : Buf) (n : Nat) : (s.scramble b n).nnodes = s.nnodes := by cases b <;> rfl
@[simp] theorem scramble_root (s : State) (b : Buf) (n : Nat) : (s.scramble b n).root = s.root := by cases b <;> rfl
@[simp] theorem scramble_payBits (s : State) (b : Buf) (n : Nat) : (s.scramble b n).payBits = s.payBits := by cases b <;> rfl
@[simp] theorem scramble_outLen (s : State) (b : Buf) (n : Nat) : (s.scramble b n).outLen = s.outLen := by cases b <;> rfl
@[simp] theorem scramble_payOff (s : State) (b : Buf) (n : Nat) : (s.scramble b n).payOff = s.payOff := by cases b <;> rfl
@[simp] theorem scramble_payBytes (s : State) (b : Buf) (n : Nat) : (s.scramble b n).payBytes = s.payBytes := by cases b <;> rfl
@[simp] theorem scramble_dtabN (s : State) (b : Buf) (n : Nat) : (s.scramble b n).dtabN = s.dtabN := by cases b <;> rfl
@[simp] theorem scramble_outCnt (s : State) (b : Buf) (n : Nat) : (s.scramble b n).outCnt = s.outCnt := by cases b <;> rfl
@[simp] theorem scramble_decBits (s : State) (b : Buf) (n : Nat) : (s.scramble b n).decBits = s.decBits := by cases b <;> rfl
@[simp] theorem scramble_valid (s : State) (b : Buf) (n : Nat) : (s.scramble b n).valid = s.valid := by cases b <;> rfl
@[simp] theorem scramble_freq (s : State) (b : Buf) (n : Nat) : (s.scramble b n).freq = s.freq := by cases b <;> rfl
@[simp] theorem scramble_len (s : State) (b : Buf) (n : Nat) : (s.scramble b n).len = s.len := by cases b <;> rfl
@[simp] theorem scramble_node (s : State) (b : Buf) (n : Nat) : (s.scramble b n).node = s.node := by cases b <;> rfl
@[simp] theorem scramble_code (s : State) (b : Buf) (n : Nat) : (s.scramble b n).code = s.code := by cases b <;> rfl
@[simp] theorem scramble_dtab (s : State) (b : Buf) (n : Nat) : (s.scramble b n).dtab = s.dtab := by cases b <;> rfl
@[simp] theorem scramble_powerOnId (s : State) (b : Buf) (n : Nat) : (s.scramble b n).powerOnId = s.powerOnId := by cases b <;> rfl
@[simp] theorem scramble_draws (s : State) (b : Buf) (n : Nat) : (s.scramble b n).draws = s.draws + 1 := rfl
@[simp] theorem scramble_reads (s : State) (b : Buf) (n : Nat) : (s.scramble b n).reads = s.reads := by cases b <;> rfl
@[simp] theorem scramble_agenda (s : State) (b : Buf) (n : Nat) : (s.scramble b n).agenda = s.agenda := by cases b <;> rfl

/-! ## Buffers by name -/

@[simp] theorem buf_ibuf (s : State) : s.buf .ibuf = s.ibuf := rfl

@[simp] theorem buf_abuf (s : State) : s.buf .abuf = s.abuf := rfl

@[simp] theorem buf_obuf (s : State) : s.buf .obuf = s.obuf := rfl

/-- Replacing a buffer replaces that buffer and no other (20_memory.md R74). -/
@[simp] theorem setBuf_buf (s : State) (b c : Buf) (m : Memory) :
    (s.setBuf b m).buf c = if c = b then m else s.buf c := by
  cases b <;> cases c <;> rfl

@[simp] theorem putBytes_buf (s : State) (b c : Buf) (a : Nat) (bs : List Byte) :
    (s.putBytes b a bs).buf c = if c = b then (s.buf b).writeBytes a bs else s.buf c := by
  simp [State.putBytes]

/-! ## Flags -/

@[simp] theorem busy_idle {s : State} (h : s.phase = .idle) : s.busy = false := by simp [State.busy, h]

@[simp] theorem busy_busy {s : State} {w : Word} (h : s.phase = .busy w) : s.busy = true := by simp [State.busy, h]

/-- BUSY = 1 exactly in phase BUSY(w) (10_state.md R53). -/
theorem busy_iff (s : State) : s.busy = true ↔ ∃ w, s.phase = .busy w := by
  cases h : s.phase <;> simp [State.busy, h]

end State

@[simp] theorem setEmpty_done (st : Status) (e : Bool) : (st.setEmpty e).done = st.done := rfl

@[simp] theorem setEmpty_err (st : Status) (e : Bool) : (st.setEmpty e).err = st.err := rfl

@[simp] theorem setEmpty_ovr (st : Status) (e : Bool) : (st.setEmpty e).ovr = st.ovr := rfl

@[simp] theorem setEmpty_empty (st : Status) (e : Bool) : (st.setEmpty e).empty = e := rfl

end Sys2Proof.Machine
end

