-- ==== Sys2Proof/Laws/Memory.lean ====
section
/-! SUPPORT. The laws of byte memories: read after write, writes leave other indices alone, every operation keeps the canonical
form and the capacity, and canonical memories that read alike are equal. -/

namespace Sys2Proof.Machine

/-! ## Read after write -/

theorem cellsGet_cellsSet (a : Nat) (v : Byte) (c : List Host.Cell) (i : Nat) :
    cellsGet i (cellsSet a v c) = if i = a then some v else cellsGet i c := by
  induction c with
  | nil => simp [cellsSet, cellsGet, eq_comm]
  | cons p rest ih =>
    obtain ⟨b, x⟩ := p
    simp only [cellsSet]
    split
    · simp [cellsGet, eq_comm]
    · split
      · subst b
        by_cases h : i = a <;> simp [cellsGet, h, Ne.symm]
      · by_cases hi : i = a
        · subst i; simp_all [cellsGet, eq_comm]
        · by_cases hb : b = i <;> simp [cellsGet, hi, hb, ih]

/-- A read after a write to the same index gives the byte written, any other index reads as before. -/
@[simp] theorem Memory.get?_set (m : Memory) (a : Nat) (v : Byte) (i : Nat) :
    (m.set a v).get? i = if i = a then some v else m.get? i := cellsGet_cellsSet a v m.cells i

/-- Reading after writing a byte string at a: the string's bytes inside [a, a + n), the old bytes outside. -/
theorem Memory.get?_writeBytes (m : Memory) (a : Nat) (bs : List Byte) (i : Nat) :
    (m.writeBytes a bs).get? i = if a ≤ i ∧ i < a + bs.length then bs[i - a]? else m.get? i := by
  induction bs generalizing m a with
  | nil => simp only [writeBytes, List.length_nil, Nat.add_zero]; rw [if_neg (by omega)]
  | cons b rest ih =>
    rw [writeBytes, ih, Memory.get?_set]
    by_cases h0 : i = a
    · subst h0
      rw [if_neg (by omega), if_pos rfl, if_pos (by simp)]
      simp
    · by_cases h1 : a + 1 ≤ i ∧ i < a + 1 + rest.length
      · rw [if_pos h1, if_pos (by simp; omega)]
        obtain ⟨k, hk⟩ : ∃ k, i - a = k + 1 := ⟨i - a - 1, by omega⟩
        rw [hk, List.getElem?_cons_succ]
        congr 1
        omega
      · rw [if_neg h1, if_neg h0, if_neg (by simp; omega)]

theorem Memory.get?_writeBytes_of_lt (m : Memory) (bs : List Byte) (i : Nat) (h : i < bs.length) :
    (m.writeBytes 0 bs).get? i = bs[i]? := by
  rw [Memory.get?_writeBytes, if_pos (by omega)]; simp

theorem Memory.get?_writeBytes_of_le (m : Memory) (bs : List Byte) (i : Nat) (h : bs.length ≤ i) :
    (m.writeBytes 0 bs).get? i = m.get? i := by
  rw [Memory.get?_writeBytes, if_neg (by omega)]

theorem Memory.writeBytes_append (m : Memory) (a : Nat) (xs ys : List Byte) :
    m.writeBytes a (xs ++ ys) = (m.writeBytes a xs).writeBytes (a + xs.length) ys := by
  induction xs generalizing m a with
  | nil => simp [writeBytes]
  | cons x xs ih => simp only [List.cons_append, writeBytes, List.length_cons, ih]; congr 1; omega

/-! ## The canonical form is kept -/

theorem mem_cellsSet (a : Nat) (v : Byte) (c : List Host.Cell) (p : Host.Cell) (h : p ∈ cellsSet a v c) :
    p = (a, v) ∨ p ∈ c := by
  induction c with
  | nil => simpa [cellsSet] using h
  | cons q rest ih =>
    obtain ⟨b, x⟩ := q
    simp only [cellsSet] at h
    split at h
    · simpa using h
    · split at h
      · rcases List.mem_cons.1 h with h | h
        · exact .inl h
        · exact .inr (List.mem_cons_of_mem _ h)
      · rcases List.mem_cons.1 h with h | h
        · exact .inr (by simp [h])
        · rcases ih h with h | h
          · exact .inl h
          · exact .inr (List.mem_cons_of_mem _ h)

theorem cellsSet_pairwise (a : Nat) (v : Byte) (c : List Host.Cell) (h : (c.map Prod.fst).Pairwise (· < ·)) :
    ((cellsSet a v c).map Prod.fst).Pairwise (· < ·) := by
  induction c with
  | nil => simp [cellsSet]
  | cons q rest ih =>
    obtain ⟨b, x⟩ := q
    simp only [List.map_cons, List.pairwise_cons] at h
    simp only [cellsSet]
    split
    · rename_i hab
      simp only [List.map_cons, List.pairwise_cons, List.mem_cons]
      refine ⟨?_, h⟩
      rintro y (rfl | hy)
      · exact hab
      · exact hab.trans (h.1 y hy)
    · split
      · rename_i hab
        subst hab
        simpa using h
      · rename_i hlt hne
        simp only [List.map_cons, List.pairwise_cons]
        refine ⟨fun y hy => ?_, ih h.2⟩
        obtain ⟨p, hp, rfl⟩ := List.mem_map.1 hy
        rcases mem_cellsSet a v rest p hp with rfl | hp
        · show b < a
          omega
        · exact h.1 _ (List.mem_map_of_mem hp)

/-- Writing a byte keeps the canonical form. -/
theorem Memory.wf_set {m : Memory} (h : m.wf) (a : Nat) (v : Byte) : (m.set a v).wf := cellsSet_pairwise a v m.cells h

/-- Writing a byte string keeps the canonical form. -/
theorem Memory.wf_writeBytes {m : Memory} (h : m.wf) (a : Nat) (bs : List Byte) : (m.writeBytes a bs).wf := by
  induction bs generalizing m a with
  | nil => exact h
  | cons b rest ih => exact ih (Memory.wf_set h a b) (a + 1)

/-- The empty memory is canonical. -/
theorem Memory.wf_empty : (Memory.mk []).wf := List.Pairwise.nil

/-- Writing a byte below the capacity keeps every index below the capacity. -/
theorem Memory.within_set {m : Memory} {cap : Nat} (h : m.within cap) {a : Nat} (ha : a < cap) (v : Byte) :
    (m.set a v).within cap := by
  intro p hp
  rcases mem_cellsSet a v m.cells p hp with rfl | hp
  · exact ha
  · exact h p hp

/-- Writing a byte string that ends below the capacity keeps every index below the capacity. -/
theorem Memory.within_writeBytes {m : Memory} {cap : Nat} (h : m.within cap) {a : Nat} {bs : List Byte}
    (ha : a + bs.length ≤ cap) : (m.writeBytes a bs).within cap := by
  induction bs generalizing m a with
  | nil => exact h
  | cons b rest ih =>
    simp only [List.length_cons] at ha
    exact ih (Memory.within_set h (by omega) b) (by omega)

theorem Memory.within_empty (cap : Nat) : (Memory.mk []).within cap := by simp [Memory.within]

/-! ## Equal memories are equal data -/

theorem cellsGet_eq_none_of_lt {a : Nat} {c : List Host.Cell} (h : ∀ p ∈ c, a < p.1) : cellsGet a c = none := by
  induction c with
  | nil => rfl
  | cons p rest ih =>
    obtain ⟨b, x⟩ := p
    have hb : a < b := h (b, x) (by simp)
    rw [cellsGet, if_neg (by omega)]
    exact ih fun q hq => h q (List.mem_cons_of_mem _ hq)

theorem cells_ext {c d : List Host.Cell} (hc : (c.map Prod.fst).Pairwise (· < ·)) (hd : (d.map Prod.fst).Pairwise (· < ·))
    (h : ∀ i, cellsGet i c = cellsGet i d) : c = d := by
  induction c generalizing d with
  | nil =>
    cases d with
    | nil => rfl
    | cons q rest => have := h q.1; simp [cellsGet] at this
  | cons p rest ih =>
    obtain ⟨a, x⟩ := p
    cases d with
    | nil => have := h a; simp [cellsGet] at this
    | cons q rest' =>
      obtain ⟨b, y⟩ := q
      simp only [List.map_cons, List.pairwise_cons, List.mem_map, forall_exists_index, and_imp] at hc hd
      have hc' : ∀ p ∈ rest, a < p.1 := fun p hp => hc.1 _ p hp rfl
      have hd' : ∀ p ∈ rest', b < p.1 := fun p hp => hd.1 _ p hp rfl
      have hab : a = b := by
        rcases Nat.lt_trichotomy a b with hlt | heq | hlt
        · have h1 := h a
          rw [cellsGet, if_pos rfl, cellsGet, if_neg (by omega),
            cellsGet_eq_none_of_lt fun q hq => hlt.trans (hd' q hq)] at h1
          simp at h1
        · exact heq
        · have h1 := h b
          rw [cellsGet, if_neg (by omega), cellsGet_eq_none_of_lt (fun q hq => hlt.trans (hc' q hq)), cellsGet,
            if_pos rfl] at h1
          simp at h1
      subst hab
      have hxy : x = y := by
        have h1 := h a
        simpa [cellsGet] using h1
      subst hxy
      congr 1
      refine ih hc.2 hd.2 fun i => ?_
      by_cases hi : a = i
      · subst hi
        rw [cellsGet_eq_none_of_lt hc', cellsGet_eq_none_of_lt hd']
      · have h1 := h i
        rwa [cellsGet, if_neg hi, cellsGet, if_neg hi] at h1

/-- Canonical memories that read alike are the same list. -/
theorem Memory.ext_of_wf {m n : Memory} (hm : m.wf) (hn : n.wf) (h : ∀ i, m.get? i = n.get? i) : m = n := by
  cases m; cases n
  congr 1
  exact cells_ext hm hn h

/-! ## Tables -/

/-- An entry of a tabulated table. -/
@[simp] theorem tabulate_getElem? {α : Type} (n : Nat) (f : Nat → α) (i : Nat) :
    (tabulate n f)[i]? = if i < n then some (f i) else none := by
  simp only [tabulate, Vector.getElem?_mk, List.getElem?_toArray, List.getElem?_map]
  by_cases h : i < n <;> simp [h]

@[simp] theorem tabulate_getElem {α : Type} (n : Nat) (f : Nat → α) (i : Nat) (h : i < n) : (tabulate n f)[i] = f i := by
  simp [tabulate]

end Sys2Proof.Machine
end

