-- ==== Sys2Proof/Laws/Bits.lean ====
section
/-! SUPPORT. Laws of the bit stream and of big-endian fields: reading gives back what was written. -/

namespace Sys2Proof.Machine

/-! ## Codes and packing -/

@[simp] theorem codeBits_length (n c : Nat) : (codeBits n c).length = n := by simp [codeBits]

theorem bitsOfByte_byteOfBits (b7 b6 b5 b4 b3 b2 b1 b0 : Bool) :
    bitsOfByte (byteOfBits b7 b6 b5 b4 b3 b2 b1 b0) = [b7, b6, b5, b4, b3, b2, b1, b0] := by
  cases b7 <;> cases b6 <;> cases b5 <;> cases b4 <;> cases b3 <;> cases b2 <;> cases b1 <;> cases b0 <;> rfl

@[simp] theorem bitsOfByte_length (b : Byte) : (bitsOfByte b).length = 8 := rfl

@[simp] theorem unpackBits_length (bs : List Byte) : (unpackBits bs).length = 8 * bs.length := by
  induction bs with
  | nil => rfl
  | cons b bs ih =>
    simp only [unpackBits, List.flatMap_cons, List.length_append, bitsOfByte_length, List.length_cons] at *
    omega

theorem unpackBits_append (xs ys : List Byte) : unpackBits (xs ++ ys) = unpackBits xs ++ unpackBits ys := by
  simp [unpackBits]

/-- The payload of P bits has ceil8(P) bytes (30_encoding.md R107, R111). -/
@[simp] theorem packBits_length (bits : List Bool) : (packBits bits).length = ceil8 bits.length := by
  unfold ceil8
  induction bits using packBits.induct with
  | case9 b7 b6 b5 b4 b3 b2 b1 b0 rest ih => simp only [packBits, List.length_cons, ih]; omega
  | _ => simp [packBits]

/-- The reader gives back the writer's bits, then the zero padding (44_bitstream.md R182, R183). -/
theorem unpackBits_packBits (bits : List Bool) :
    ∃ n, n < 8 ∧ unpackBits (packBits bits) = bits ++ List.replicate n false := by
  induction bits using packBits.induct with
  | case1 => exact ⟨0, by omega, rfl⟩
  | case9 b7 b6 b5 b4 b3 b2 b1 b0 rest ih =>
    obtain ⟨n, hn, h⟩ := ih
    refine ⟨n, hn, ?_⟩
    simp only [unpackBits] at h
    simp only [packBits, unpackBits, List.flatMap_cons, bitsOfByte_byteOfBits, h]
    rfl
  | case2 b7 => exact ⟨7, by omega, by simp only [packBits, unpackBits, List.flatMap_cons, bitsOfByte_byteOfBits]; rfl⟩
  | case3 b7 b6 => exact ⟨6, by omega, by simp only [packBits, unpackBits, List.flatMap_cons, bitsOfByte_byteOfBits]; rfl⟩
  | case4 b7 b6 b5 => exact ⟨5, by omega, by simp only [packBits, unpackBits, List.flatMap_cons, bitsOfByte_byteOfBits]; rfl⟩
  | case5 b7 b6 b5 b4 => exact ⟨4, by omega, by simp only [packBits, unpackBits, List.flatMap_cons, bitsOfByte_byteOfBits]; rfl⟩
  | case6 b7 b6 b5 b4 b3 => exact ⟨3, by omega, by simp only [packBits, unpackBits, List.flatMap_cons, bitsOfByte_byteOfBits]; rfl⟩
  | case7 b7 b6 b5 b4 b3 b2 =>
    exact ⟨2, by omega, by simp only [packBits, unpackBits, List.flatMap_cons, bitsOfByte_byteOfBits]; rfl⟩
  | case8 b7 b6 b5 b4 b3 b2 b1 =>
    exact ⟨1, by omega, by simp only [packBits, unpackBits, List.flatMap_cons, bitsOfByte_byteOfBits]; rfl⟩

/-! ## Big-endian fields (00_scope.md R11) -/

@[simp] theorem beBytes_length (n v : Nat) : (beBytes n v).length = n := by simp [beBytes]

theorem beBytes_succ (n v : Nat) : beBytes (n + 1) v = BitVec.ofNat 8 (v >>> (8 * n)) :: beBytes n v := by
  simp only [beBytes, List.range_succ_eq_map, List.map_cons, List.map_map, Nat.add_sub_cancel, Nat.sub_zero]
  congr 1
  apply List.map_congr_left
  intro k _
  simp only [Function.comp_apply]
  congr 3
  omega

theorem beNat_from (v : Nat) (bs : List Byte) :
    bs.foldl (fun v b => 256 * v + b.toNat) v = v * 256 ^ bs.length + beNat bs := by
  induction bs generalizing v with
  | nil => simp [beNat]
  | cons b bs ih =>
    simp only [beNat, List.foldl_cons, List.length_cons] at *
    rw [ih (256 * v + b.toNat), ih (256 * 0 + b.toNat)]
    ring

theorem beNat_cons (b : Byte) (bs : List Byte) : beNat (b :: bs) = b.toNat * 256 ^ bs.length + beNat bs := by
  have := beNat_from b.toNat bs
  simpa [beNat] using this

theorem beNat_lt (bs : List Byte) : beNat bs < 256 ^ bs.length := by
  induction bs with
  | nil => simp [beNat]
  | cons b bs ih =>
    rw [beNat_cons, List.length_cons, pow_succ]
    have := b.isLt
    nlinarith

/-- A field reads back the number that was written, cut to its width. -/
theorem beNat_beBytes (n v : Nat) : beNat (beBytes n v) = v % 256 ^ n := by
  induction n with
  | zero => simp [beBytes, beNat, Nat.mod_one]
  | succ n ih =>
    rw [beBytes_succ, beNat_cons, ih, beBytes_length, BitVec.toNat_ofNat, Nat.shiftRight_eq_div_pow, pow_mul,
      show (2 : Nat) ^ 8 = 256 by norm_num, pow_succ, Nat.mod_mul]
    ring

/-! ## Bytes of a buffer after a write -/

@[simp] theorem State.bytesAt_length (s : State) (b : Buf) (a n : Nat) : (s.bytesAt b a n).length = n := by
  simp [State.bytesAt]

theorem State.buf_putBytes_same (s : State) (b : Buf) (a : Nat) (bs : List Byte) :
    (s.putBytes b a bs).buf b = (s.buf b).writeBytes a bs := by cases b <;> rfl

theorem State.buf_putBytes_ne (s : State) {b b' : Buf} (h : b' ≠ b) (a : Nat) (bs : List Byte) :
    (s.putBytes b a bs).buf b' = s.buf b' := by cases b <;> cases b' <;> first | rfl | exact absurd rfl h

/-- A byte of a buffer after a byte string was written into it. -/
theorem State.byteAt_putBytes (s : State) (b : Buf) (bs : List Byte) (i : Nat) :
    (s.putBytes b 0 bs).byteAt b i = if h : i < bs.length then bs[i] else s.byteAt b i := by
  unfold State.byteAt
  rw [State.buf_putBytes_same, State.putBytes_powerOnId]
  split
  · rename_i h
    rw [Memory.get?_writeBytes_of_lt _ _ _ h, List.getElem?_eq_getElem h]; rfl
  · rename_i h
    rw [Memory.get?_writeBytes_of_le _ _ _ (by omega)]

theorem State.byteAt_putBytes_ne (s : State) {b b' : Buf} (h : b' ≠ b) (a : Nat) (bs : List Byte) (i : Nat) :
    (s.putBytes b a bs).byteAt b' i = s.byteAt b' i := by
  unfold State.byteAt
  rw [State.buf_putBytes_ne s h, State.putBytes_powerOnId]

/-- Bytes of a buffer inside what was just written. -/
theorem State.bytesAt_putBytes (s : State) (b : Buf) (xs ys zs : List Byte) :
    (s.putBytes b 0 (xs ++ ys ++ zs)).bytesAt b xs.length ys.length = ys := by
  apply List.ext_getElem
  · simp
  · intro i h1 h2
    simp only [State.bytesAt, List.getElem_map, List.getElem_range, State.byteAt_putBytes]
    have h3 : xs.length + i < (xs ++ ys ++ zs).length := by simp; omega
    rw [dif_pos h3, List.getElem_append_left (by simp; omega), List.getElem_append_right (by omega)]
    simp

/-- Two states with the same buffers read the same bytes. -/
theorem State.bytesAt_congr {s t : State} {b : Buf} (h : ∀ i, s.byteAt b i = t.byteAt b i) (a n : Nat) :
    s.bytesAt b a n = t.bytesAt b a n := by
  unfold State.bytesAt
  exact List.map_congr_left fun k _ => h (a + k)

end Sys2Proof.Machine
end

