-- ==== Sys2Proof/Laws/Tables.lean ====
section
/-! SUPPORT. The lists of indices that a table's entries select: the symbols present and the symbols coded. -/

namespace Sys2Proof.Machine

/-! ## Index lists -/

theorem indicesFrom_eq {α : Type} (p : α → Bool) (l : List α) (k : Nat) (d : α) :
    indicesFrom p k l = (List.range' k l.length).filter fun i => p (l[i - k]?.getD d) := by
  induction l generalizing k with
  | nil => rfl
  | cons x xs ih =>
    have hrest : (List.range' (k + 1) xs.length).filter (fun i => p (((x :: xs)[i - k]?).getD d)) =
        (List.range' (k + 1) xs.length).filter fun i => p ((xs[i - (k + 1)]?).getD d) := by
      apply List.filter_congr
      intro i hi
      rw [List.mem_range'_1] at hi
      rw [show i - k = (i - (k + 1)) + 1 by omega, List.getElem?_cons_succ]
    simp only [indicesFrom, List.length_cons, List.range'_succ, List.filter_cons, hrest, ih (k + 1)]
    simp

theorem indicesWhere_eq {α : Type} {n : Nat} (p : α → Bool) (v : Vector α n) (d : α) :
    indicesWhere p v = (List.range n).filter fun i => p (v[i]?.getD d) := by
  rw [indicesWhere, indicesFrom_eq p _ 0 d, Vector.length_toList, List.range_eq_range']
  apply List.filter_congr
  intro i _
  simp

/-- The symbols present, ascending (42_tree.md R151). -/
theorem State.present_eq (s : State) : s.present = (List.range 256).filter fun i => 0 < (s.freqAt i).toNat :=
  indicesWhere_eq _ _ 0#32

/-- The coded symbols, ascending (45_encoder.md R193). -/
theorem State.coded_eq (s : State) : s.coded = (List.range 256).filter fun i => 0 < (s.lenAt i).toNat :=
  indicesWhere_eq _ _ 0#8

theorem State.mem_present (s : State) (i : Nat) : i ∈ s.present ↔ i < 256 ∧ 0 < (s.freqAt i).toNat := by
  simp [State.present_eq]

theorem State.mem_coded (s : State) (i : Nat) : i ∈ s.coded ↔ i < 256 ∧ 0 < (s.lenAt i).toNat := by
  simp [State.coded_eq]

theorem pairwise_range_filter (n : Nat) (p : Nat → Bool) : ((List.range n).filter p).Pairwise (· < ·) :=
  List.Pairwise.sublist List.filter_sublist List.pairwise_lt_range

theorem State.present_pairwise (s : State) : s.present.Pairwise (· < ·) := by
  rw [State.present_eq]; exact pairwise_range_filter _ _

theorem State.coded_pairwise (s : State) : s.coded.Pairwise (· < ·) := by
  rw [State.coded_eq]; exact pairwise_range_filter _ _

theorem State.present_length_le (s : State) : s.present.length ≤ 256 := by
  rw [State.present_eq]; exact (List.length_filter_le _ _).trans (by simp)

theorem State.coded_length_le (s : State) : s.coded.length ≤ 256 := by
  rw [State.coded_eq]; exact (List.length_filter_le _ _).trans (by simp)

end Sys2Proof.Machine
end

