-- ==== Sys2Proof/Laws/Merging.lean ====
section
/-! SUPPORT. The cost of greedy merging, on multisets of weights: the bound that 93_implementation_defined.md I12 takes from Huffman optimality. -/

namespace Sys2Proof.Machine

/-! ## The cost of greedy merging -/

/-- From the weights A, r times the two least weights are replaced by their sum; A' is left and c is the sum of all the sums. -/
inductive Merges (A : Multiset ℕ) : Multiset ℕ → ℕ → ℕ → Prop where
  | start : Merges A A 0 0
  | merge {r c x y : ℕ} {R : Multiset ℕ} (h : Merges A (x ::ₘ y ::ₘ R) r c) (hxy : x ≤ y) (hy : ∀ b ∈ R, y ≤ b) :
      Merges A ((x + y) ::ₘ R) (r + 1) (c + (x + y))

namespace Merges

theorem sum_eq {A A' : Multiset ℕ} {r c : ℕ} (h : Merges A A' r c) : A'.sum = A.sum := by
  induction h with
  | start => rfl
  | merge h _ _ ih => simp only [Multiset.sum_cons] at *; omega

theorem card_eq {A A' : Multiset ℕ} {r c : ℕ} (h : Merges A A' r c) : A'.card + r = A.card := by
  induction h with
  | start => rfl
  | merge h _ _ ih => simp only [Multiset.card_cons] at *; omega

/-- Of a part B of the weights at hand, some two weigh at least the two least. -/
theorem drop_two {x y : ℕ} {R B : Multiset ℕ} (hxy : x ≤ y) (hy : ∀ b ∈ R, y ≤ b) (hB : B ≤ x ::ₘ y ::ₘ R)
    (hc : 2 ≤ B.card) : ∃ B', B' ≤ R ∧ B'.card + 2 = B.card ∧ x + y + B'.sum ≤ B.sum := by
  have pop : ∀ C : Multiset ℕ, 1 ≤ C.card → ∃ b D, C = b ::ₘ D := by
    intro C hC
    obtain ⟨b, hb⟩ := Multiset.card_pos_iff_exists_mem.1 hC
    obtain ⟨D, rfl⟩ := Multiset.exists_cons_of_mem hb
    exact ⟨b, D, rfl⟩
  by_cases hx : x ∈ B
  · obtain ⟨B2, rfl⟩ := Multiset.exists_cons_of_mem hx
    rw [Multiset.cons_le_cons_iff] at hB
    simp only [Multiset.card_cons] at hc
    by_cases hyB : y ∈ B2
    · obtain ⟨B3, rfl⟩ := Multiset.exists_cons_of_mem hyB
      rw [Multiset.cons_le_cons_iff] at hB
      exact ⟨B3, hB, by simp, by simp; omega⟩
    · rw [Multiset.le_cons_of_notMem hyB] at hB
      obtain ⟨b, B3, rfl⟩ := pop B2 (by omega)
      have hb := hy b (Multiset.mem_of_le hB (by simp))
      exact ⟨B3, (Multiset.le_cons_self _ _).trans hB, by simp, by simp; omega⟩
  · rw [Multiset.le_cons_of_notMem hx] at hB
    by_cases hyB : y ∈ B
    · obtain ⟨B2, rfl⟩ := Multiset.exists_cons_of_mem hyB
      rw [Multiset.cons_le_cons_iff] at hB
      simp only [Multiset.card_cons] at hc
      obtain ⟨b, B3, rfl⟩ := pop B2 (by omega)
      have hb := hy b (Multiset.mem_of_le hB (by simp))
      exact ⟨B3, (Multiset.le_cons_self _ _).trans hB, by simp, by simp; omega⟩
    · rw [Multiset.le_cons_of_notMem hyB] at hB
      obtain ⟨b, B2, rfl⟩ := pop B (by omega)
      simp only [Multiset.card_cons] at hc
      obtain ⟨b', B3, rfl⟩ := pop B2 (by omega)
      have hb := hy b (Multiset.mem_of_le hB (by simp))
      have hb' := hy b' (Multiset.mem_of_le hB (by simp))
      exact ⟨B3, ((Multiset.le_cons_self _ _).trans (Multiset.le_cons_self _ _)).trans hB, by simp, by simp; omega⟩

/-- The first merges of a part of the weights cost at most that part. -/
theorem round {A A' B : Multiset ℕ} {r c : ℕ} (h : Merges A A' r c) (hB : B ≤ A) (hr : 2 * r ≤ B.card) :
    ∃ B', B' ≤ A' ∧ B'.card + 2 * r = B.card ∧ c + B'.sum ≤ B.sum := by
  induction h with
  | start => exact ⟨B, hB, by omega, by omega⟩
  | merge h hxy hy ih =>
    obtain ⟨B1, hB1, hc1, hs1⟩ := ih (by omega)
    obtain ⟨B2, hB2, hc2, hs2⟩ := drop_two hxy hy hB1 (by omega)
    exact ⟨B2, hB2.trans (Multiset.le_cons_self _ _), by omega, by omega⟩

theorem split {A A' : Multiset ℕ} {n c : ℕ} (h : Merges A A' n c) (r : ℕ) (hr : r ≤ n) :
    ∃ A1 c1 c2, Merges A A1 r c1 ∧ Merges A1 A' (n - r) c2 ∧ c = c1 + c2 := by
  induction h with
  | start =>
    obtain rfl : r = 0 := by omega
    exact ⟨A, 0, 0, start, start, rfl⟩
  | @merge n c x y R h hxy hy ih =>
    by_cases hrn : r = n + 1
    · subst hrn
      refine ⟨_, _, 0, merge h hxy hy, ?_, rfl⟩
      rw [Nat.sub_self]; exact start
    · obtain ⟨A1, c1, c2, h1, h2, rfl⟩ := ih (by omega)
      refine ⟨A1, c1, c2 + (x + y), h1, ?_, by omega⟩
      rw [show n + 1 - r = (n - r) + 1 by omega]
      exact merge h2 hxy hy

/-- Merging at most 2^e weights down to one costs at most e times their sum (45_encoder.md R197 with e = 8). -/
theorem cost_le {A A' : Multiset ℕ} {n c : ℕ} (h : Merges A A' n c) (e : ℕ) (he : A.card ≤ 2 ^ e) (h1 : 1 ≤ A'.card) :
    c ≤ e * A.sum := by
  induction e generalizing A A' n c with
  | zero =>
    have := h.card_eq
    obtain rfl : n = 0 := by simp at he; omega
    cases h; simp
  | succ e ih =>
    have hc := h.card_eq
    obtain ⟨A1, c1, c2, ha, hb, rfl⟩ := h.split (A.card / 2 ⊓ n) (by simp)
    obtain ⟨B, hB, hcB, hs⟩ := ha.round le_rfl (by omega)
    have hca := ha.card_eq
    have hs1 := ha.sum_eq
    by_cases hn : A.card / 2 ≤ n
    · have := ih hb (by rw [pow_succ] at he; omega) h1
      rw [hs1] at this
      rw [Nat.succ_mul]; omega
    · have h0 : n - A.card / 2 ⊓ n = 0 := by omega
      rw [h0] at hb
      cases hb
      rw [Nat.succ_mul]
      have := Nat.zero_le (e * A.sum)
      omega

end Merges

end Sys2Proof.Machine
end

