-- ==== Sys2Proof/Laws/Tree.lean ====
section
/-! SUPPORT. Laws of BUILD: the argmin of the active set, one combination as a step, the arena and the trees that it holds. -/

namespace Sys2Proof.Machine

/-! ## The argmin -/

theorem Active.before_iff (a b : Active) : a.before b = true ↔ a.w < b.w ∨ (a.w = b.w ∧ a.idx < b.idx) := by
  simp [Active.before]

theorem Active.not_before_iff (a b : Active) :
    a.before b = false ↔ b.w < a.w ∨ (b.w = a.w ∧ b.idx ≤ a.idx) := by
  rw [← Bool.not_eq_true, Active.before_iff]
  simp only [BitVec.lt_def, BitVec.toNat_eq]
  omega

theorem argmin_eq_none {l : List Active} : argmin l = none ↔ l = [] := by
  cases l with
  | nil => simp [argmin]
  | cons a rest =>
    simp only [argmin, reduceCtorEq, iff_false]
    split
    · simp
    · split <;> simp

/-- The argmin is a member, and no member comes before it (42_tree.md R153). -/
theorem argmin_spec {l : List Active} {a : Active} (h : argmin l = some a) : a ∈ l ∧ ∀ b ∈ l, b.before a = false := by
  induction l generalizing a with
  | nil => simp [argmin] at h
  | cons c rest ih =>
    simp only [argmin] at h
    split at h
    · rename_i hn
      rw [argmin_eq_none] at hn
      subst hn
      cases h
      simp [Active.before]
    · rename_i b hb
      obtain ⟨hm, hle⟩ := ih hb
      split at h
      · cases h
        rename_i hlt
        refine ⟨List.mem_cons_of_mem _ hm, ?_⟩
        intro e he
        rcases List.mem_cons.1 he with rfl | he
        · rw [Active.before_iff] at hlt
          rw [Active.not_before_iff]
          simp only [BitVec.lt_def, BitVec.toNat_eq] at *
          omega
        · exact hle e he
      · cases h
        rename_i hlt
        rw [Bool.not_eq_true, Active.not_before_iff] at hlt
        refine ⟨List.mem_cons_self, ?_⟩
        intro e he
        rcases List.mem_cons.1 he with rfl | he
        · simp [Active.before]
        · have := hle e he
          rw [Active.not_before_iff] at *
          simp only [BitVec.lt_def, BitVec.toNat_eq] at *
          omega

/-- The weight of the argmin is the least weight. -/
theorem argmin_le {l : List Active} {a b : Active} (h : argmin l = some a) (hb : b ∈ l) : a.w.toNat ≤ b.w.toNat := by
  have := (argmin_spec h).2 b hb
  rw [Active.not_before_iff] at this
  simp only [BitVec.lt_def, BitVec.toNat_eq] at this
  omega

/-! ## One combination -/

/-- One combination on the arena and the active set, or nothing when fewer than two members are left. -/
def combineStep (p : List Node × List Active) : List Node × List Active :=
  match argmin p.2 with
  | none => p
  | some x =>
    match argmin (p.2.erase x) with
    | none => p
    | some y =>
      (p.1 ++ [innerNode x y], (p.2.erase x).erase y ++ [{ w := (innerNode x y).w, idx := p.1.length }])

/-- The arena and the active set after u combinations. -/
def combineState (nodes : List Node) (act : List Active) (u : Nat) : List Node × List Active :=
  combineStep^[u] (nodes, act)

theorem combineState_zero (nodes : List Node) (act : List Active) : combineState nodes act 0 = (nodes, act) := rfl

theorem combineState_succ (nodes : List Node) (act : List Active) (u : Nat) :
    combineState nodes act (u + 1) = combineStep (combineState nodes act u) := by
  simp [combineState, Function.iterate_succ_apply']

theorem combine_eq_combineState (t : Nat) (nodes : List Node) (act : List Active) :
    combine t nodes act = (combineState nodes act t).1 := by
  induction t generalizing nodes act with
  | zero => rfl
  | succ t ih =>
    have hfix : ∀ p, combineStep p = p → combineStep^[t] p = p := fun p hp => Function.iterate_fixed hp t
    simp only [combine, combineState, Function.iterate_succ_apply]
    cases hx : argmin act with
    | none =>
      have : combineStep (nodes, act) = (nodes, act) := by simp [combineStep, hx]
      simp [this, hfix _ this]
    | some x =>
      cases hy : argmin (act.erase x) with
      | none =>
        have : combineStep (nodes, act) = (nodes, act) := by simp [combineStep, hx, hy]
        simp [hy, this, hfix _ this]
      | some y =>
        have : combineStep (nodes, act) = (nodes ++ [innerNode x y],
            (act.erase x).erase y ++ [{ w := (innerNode x y).w, idx := nodes.length }]) := by simp [combineStep, hx, hy]
        simp only [hy, this]
        exact ih _ _

/-- With two members or more a combination takes the two least members and adds their parent. -/
theorem combineStep_cases (nodes : List Node) (act : List Active) (h : 2 ≤ act.length) :
    ∃ x y, argmin act = some x ∧ argmin (act.erase x) = some y ∧
      combineStep (nodes, act) = (nodes ++ [innerNode x y],
        (act.erase x).erase y ++ [{ w := (innerNode x y).w, idx := nodes.length }]) := by
  cases hx : argmin act with
  | none => rw [argmin_eq_none] at hx; simp [hx] at h
  | some x =>
    have hm := (argmin_spec hx).1
    cases hy : argmin (act.erase x) with
    | none =>
      rw [argmin_eq_none] at hy
      have := List.length_erase_of_mem hm
      simp [hy] at this
      omega
    | some y => exact ⟨x, y, rfl, hy, by simp [combineStep, hx, hy]⟩

/-! ## The arena -/

/-- Entry i of an arena, all-zero past its end (42_tree.md R152). -/
def entryOf (nodes : List Node) (i : Nat) : Node := nodes[i]?.getD Node.zero

theorem entryOf_append_lt {nodes : List Node} {i : Nat} (h : i < nodes.length) (n : Node) :
    entryOf (nodes ++ [n]) i = entryOf nodes i := by simp [entryOf, List.getElem?_append_left h]

theorem entryOf_append_self (nodes : List Node) (n : Node) : entryOf (nodes ++ [n]) nodes.length = n := by simp [entryOf]

/-- Node j is a child of node p. -/
def childOf (nodes : List Node) (p j : Nat) : Prop :=
  (entryOf nodes p).c0.toNat = j ∨ (entryOf nodes p).c1.toNat = j

/-- What every combination keeps: k leaves, then internal nodes whose children come earlier; the active set holds the nodes that
have no parent, with their weights, and every other node has exactly one parent. -/
structure ArenaOk (k : Nat) (nodes : List Node) (act : List Active) : Prop where
  le : k ≤ nodes.length
  leaf : ∀ i < k, (entryOf nodes i).leaf = true
  active_lt : ∀ a ∈ act, a.idx < nodes.length
  active_w : ∀ a ∈ act, (entryOf nodes a.idx).w = a.w
  nodup : (act.map Active.idx).Nodup
  inner : ∀ p, k ≤ p → p < nodes.length →
    (entryOf nodes p).leaf = false ∧ (entryOf nodes p).sym = 0#8 ∧ (entryOf nodes p).c0.toNat < p ∧
      (entryOf nodes p).c1.toNat < p ∧ (entryOf nodes p).c0 ≠ (entryOf nodes p).c1
  parent : ∀ j < nodes.length,
    (j ∈ act.map Active.idx ∧ ∀ p, k ≤ p → p < nodes.length → ¬ childOf nodes p j) ∨
      (j ∉ act.map Active.idx ∧ ∃! p, (k ≤ p ∧ p < nodes.length) ∧ childOf nodes p j)

theorem innerNode_c0 {x : Active} (y : Active) (h : x.idx < 512) : (innerNode x y).c0.toNat = x.idx := by
  simp only [innerNode, BitVec.toNat_ofNat]; omega

theorem innerNode_c1 {y : Active} (x : Active) (h : y.idx < 512) : (innerNode x y).c1.toNat = y.idx := by
  simp only [innerNode, BitVec.toNat_ofNat]; omega

theorem Active.eq_of_idx_eq {k : Nat} {nodes : List Node} {act : List Active} (h : ArenaOk k nodes act) {a b : Active}
    (ha : a ∈ act) (hb : b ∈ act) (hi : a.idx = b.idx) : a = b := by
  have h1 := h.active_w a ha
  have h2 := h.active_w b hb
  cases a; cases b; simp_all

theorem ArenaOk.act_nodup {k : Nat} {nodes : List Node} {act : List Active} (h : ArenaOk k nodes act) : act.Nodup :=
  List.Nodup.of_map _ h.nodup

/-- The members left after taking x and y. -/
theorem ArenaOk.mem_rest {k : Nat} {nodes : List Node} {act : List Active} (h : ArenaOk k nodes act) (x y a : Active) :
    a ∈ (act.erase x).erase y ↔ a ∈ act ∧ a ≠ x ∧ a ≠ y := by
  rw [(h.act_nodup.erase x).mem_erase_iff, h.act_nodup.mem_erase_iff]
  tauto

theorem ArenaOk.combine_next {k : Nat} {nodes : List Node} {act : List Active} (h : ArenaOk k nodes act) {x y : Active}
    (hx : x ∈ act) (hy : y ∈ act) (hxy : x ≠ y) (hlen : nodes.length < 511) :
    ArenaOk k (nodes ++ [innerNode x y])
      ((act.erase x).erase y ++ [{ w := (innerNode x y).w, idx := nodes.length }]) := by
  have hxl := h.active_lt x hx
  have hyl := h.active_lt y hy
  have hidx : x.idx ≠ y.idx := fun e => hxy (Active.eq_of_idx_eq h hx hy e)
  have hc0 := innerNode_c0 (x := x) y (by omega)
  have hc1 := innerNode_c1 (y := y) x (by omega)
  have hmem := h.mem_rest x y
  have hnew : ∀ j, childOf (nodes ++ [innerNode x y]) nodes.length j ↔ x.idx = j ∨ y.idx = j := by
    intro j; unfold childOf; rw [entryOf_append_self, hc0, hc1]
  have hold : ∀ p < nodes.length, ∀ j, childOf (nodes ++ [innerNode x y]) p j ↔ childOf nodes p j := by
    intro p hp j; unfold childOf; rw [entryOf_append_lt hp]
  have hidxmem : ∀ j, j < nodes.length →
      (j ∈ ((act.erase x).erase y ++ [Active.mk (innerNode x y).w nodes.length]).map Active.idx ↔
        j ∈ act.map Active.idx ∧ j ≠ x.idx ∧ j ≠ y.idx) := by
    intro j hj
    simp only [List.map_append, List.map_cons, List.map_nil, List.mem_append, List.mem_singleton, List.mem_map, hmem]
    constructor
    · rintro (⟨a, ⟨ha, hax, hay⟩, rfl⟩ | rfl)
      · exact ⟨⟨a, ha, rfl⟩, fun e => hax (Active.eq_of_idx_eq h ha hx e), fun e => hay (Active.eq_of_idx_eq h ha hy e)⟩
      · omega
    · rintro ⟨⟨a, ha, rfl⟩, h1, h2⟩
      exact Or.inl ⟨a, ⟨ha, fun e => h1 (by rw [e]), fun e => h2 (by rw [e])⟩, rfl⟩
  refine ⟨?_, ?_, ?_, ?_, ?_, ?_, ?_⟩
  · have := h.le; simp; omega
  · intro i hi
    rw [entryOf_append_lt (lt_of_lt_of_le hi h.le)]
    exact h.leaf i hi
  · intro a ha
    rw [List.mem_append, hmem, List.mem_singleton] at ha
    rcases ha with ⟨ha, _⟩ | rfl
    · have := h.active_lt a ha; simp; omega
    · simp
  · intro a ha
    rw [List.mem_append, hmem, List.mem_singleton] at ha
    rcases ha with ⟨ha, _⟩ | rfl
    · rw [entryOf_append_lt (h.active_lt a ha)]; exact h.active_w a ha
    · rw [entryOf_append_self]
  · rw [List.map_append, List.nodup_append]
    refine ⟨?_, by simp, ?_⟩
    · exact (h.nodup.sublist ((List.erase_sublist.trans List.erase_sublist).map _))
    · intro a ha b hb
      rw [List.mem_map] at ha
      obtain ⟨a, ha, rfl⟩ := ha
      rw [hmem] at ha
      have := h.active_lt a ha.1
      simp at hb
      omega
  · intro p hp hpl
    rw [List.length_append, List.length_singleton] at hpl
    by_cases hpe : p = nodes.length
    · subst hpe
      rw [entryOf_append_self, hc0, hc1]
      refine ⟨rfl, rfl, hxl, hyl, fun e => hidx ?_⟩
      rw [← hc0, ← hc1, e]
    · have : p < nodes.length := by omega
      rw [entryOf_append_lt this]
      exact h.inner p hp this
  · intro j hj
    rw [List.length_append, List.length_singleton] at hj
    by_cases hje : j = nodes.length
    · left
      subst hje
      refine ⟨by simp, ?_⟩
      intro p hp hpl
      rw [List.length_append, List.length_singleton] at hpl
      by_cases hpe : p = nodes.length
      · subst hpe; rw [hnew]; omega
      · have hp' : p < nodes.length := by omega
        rw [hold p hp']
        have := h.inner p hp hp'
        unfold childOf; omega
    · have hj' : j < nodes.length := by omega
      rw [hidxmem j hj']
      rcases h.parent j hj' with ⟨hin, hno⟩ | ⟨hout, p, ⟨hp, hpc⟩, huniq⟩
      · by_cases hjx : j = x.idx ∨ j = y.idx
        · right
          refine ⟨by tauto, nodes.length, ⟨⟨h.le, by simp⟩, (hnew j).2 (by tauto)⟩, ?_⟩
          rintro q ⟨⟨hq1, hq2⟩, hqc⟩
          rw [List.length_append, List.length_singleton] at hq2
          by_contra hqe
          have hq' : q < nodes.length := by omega
          exact hno q hq1 hq' ((hold q hq' j).1 hqc)
        · left
          refine ⟨⟨hin, by tauto, by tauto⟩, ?_⟩
          intro q hq1 hq2
          rw [List.length_append, List.length_singleton] at hq2
          by_cases hqe : q = nodes.length
          · subst hqe; rw [hnew]; tauto
          · have hq' : q < nodes.length := by omega
            rw [hold q hq']; exact hno q hq1 hq'
      · right
        refine ⟨fun e => hout e.1, p, ⟨⟨hp.1, by simp; omega⟩, (hold p hp.2 j).2 hpc⟩, ?_⟩
        rintro q ⟨⟨hq1, hq2⟩, hqc⟩
        rw [List.length_append, List.length_singleton] at hq2
        by_cases hqe : q = nodes.length
        · subst hqe
          rw [hnew] at hqc
          rcases hqc with rfl | rfl
          · exact absurd (List.mem_map_of_mem hx) hout
          · exact absurd (List.mem_map_of_mem hy) hout
        · have hq' : q < nodes.length := by omega
          exact huniq q ⟨⟨hq1, hq'⟩, (hold q hq' j).1 hqc⟩

theorem mem_of_argmin_erase {act : List Active} {x y : Active} (hn : act.Nodup)
    (hy : argmin (act.erase x) = some y) : y ∈ act ∧ x ≠ y := by
  have hm := (argmin_spec hy).1
  rw [hn.mem_erase_iff] at hm
  exact ⟨hm.2, fun e => hm.1 e.symm⟩

/-- The state after u combinations, starting from k members over k leaves, keeps the arena, with k - u members left. -/
theorem ArenaOk.after {k : Nat} {nodes : List Node} {act : List Active} (h : ArenaOk k nodes act)
    (hn : nodes.length = k) (ha : act.length = k) (hk : k ≤ 256) (u : Nat) (hu : u + 1 ≤ k) :
    ArenaOk k (combineState nodes act u).1 (combineState nodes act u).2 ∧
      (combineState nodes act u).1.length = k + u ∧ (combineState nodes act u).2.length + u = k := by
  induction u with
  | zero => exact ⟨h, by simpa [combineState_zero] using hn, by simpa [combineState_zero] using ha⟩
  | succ u ih =>
    obtain ⟨hok, hl, hal⟩ := ih (by omega)
    obtain ⟨x, y, hx, hy, he⟩ := combineStep_cases (combineState nodes act u).1 (combineState nodes act u).2
      (by omega)
    obtain ⟨hym, hne⟩ := mem_of_argmin_erase hok.act_nodup hy
    have hxm := (argmin_spec hx).1
    rw [combineState_succ, he]
    refine ⟨hok.combine_next hxm hym hne (by omega), by simp; omega, ?_⟩
    have h1 := List.length_erase_of_mem hxm
    have h2 := List.length_erase_of_mem (argmin_spec hy).1
    simp only [List.length_append, List.length_singleton]
    omega

/-- Combinations only append to the arena. -/
theorem combineState_entry {k : Nat} {nodes : List Node} {act : List Active} (h : ArenaOk k nodes act)
    (hn : nodes.length = k) (ha : act.length = k) (hk : k ≤ 256) {u v : Nat} (huv : u ≤ v) (hv : v + 1 ≤ k) {i : Nat}
    (hi : i < k + u) :
    entryOf (combineState nodes act v).1 i = entryOf (combineState nodes act u).1 i := by
  induction v, huv using Nat.le_induction with
  | base => rfl
  | succ v huv ih =>
    obtain ⟨hok, hl, hal⟩ := h.after hn ha hk v (by omega)
    obtain ⟨x, y, hx, hy, he⟩ := combineStep_cases (combineState nodes act v).1 (combineState nodes act v).2
      (by omega)
    rw [combineState_succ, he, entryOf_append_lt (by omega), ih (by omega)]

/-- The (u + 1)-th combination: its node's children are the two least members of the active set after u combinations. -/
theorem combineState_node {k : Nat} {nodes : List Node} {act : List Active} (h : ArenaOk k nodes act)
    (hn : nodes.length = k) (ha : act.length = k) (hk : k ≤ 256) {u : Nat} (hu : u + 1 < k) :
    ∃ x y, argmin (combineState nodes act u).2 = some x ∧ argmin ((combineState nodes act u).2.erase x) = some y ∧
      x ≠ y ∧ x ∈ (combineState nodes act u).2 ∧ y ∈ (combineState nodes act u).2 ∧
      entryOf (combineState nodes act (k - 1)).1 (k + u) = innerNode x y := by
  obtain ⟨hok, hl, hal⟩ := h.after hn ha hk u (by omega)
  obtain ⟨x, y, hx, hy, he⟩ := combineStep_cases (combineState nodes act u).1 (combineState nodes act u).2
    (by omega)
  obtain ⟨hym, hne⟩ := mem_of_argmin_erase hok.act_nodup hy
  refine ⟨x, y, hx, hy, hne, (argmin_spec hx).1, hym, ?_⟩
  rw [combineState_entry h hn ha hk (u := u + 1) (v := k - 1) (by omega) (by omega) (by omega), combineState_succ, he,
    ← hl, entryOf_append_self]

/-! ## The first arena -/

theorem zipIdx_idx (leaves : List Node) : (firstActive leaves).map Active.idx = List.range leaves.length := by
  simp [firstActive, List.map_map, Function.comp_def, List.range_eq_range']

theorem firstActive_length (leaves : List Node) : (firstActive leaves).length = leaves.length := by simp [firstActive]

theorem ArenaOk.first (leaves : List Node) (h : ∀ n ∈ leaves, n.leaf = true) :
    ArenaOk leaves.length leaves (firstActive leaves) := by
  have hidx := zipIdx_idx leaves
  refine ⟨le_rfl, ?_, ?_, ?_, ?_, ?_, ?_⟩
  · intro i hi
    simp only [entryOf, List.getElem?_eq_getElem hi, Option.getD_some]
    exact h _ (List.getElem_mem hi)
  · intro a ha
    have : a.idx ∈ (firstActive leaves).map Active.idx := List.mem_map_of_mem ha
    rw [hidx, List.mem_range] at this
    exact this
  · intro a ha
    simp only [firstActive, List.mem_map] at ha
    obtain ⟨p, hp, rfl⟩ := ha
    rw [List.mem_zipIdx_iff_getElem?] at hp
    simp [entryOf, hp]
  · rw [hidx]; exact List.nodup_range
  · intro p h1 h2; omega
  · intro j hj
    left
    refine ⟨by rw [hidx]; simpa using hj, fun p h1 h2 => by omega⟩

/-! ## The trees that an arena holds -/

/-- A binary tree of arena indices. -/
inductive ArenaTree where
  | leaf (i : Nat)
  | node (i : Nat) (l r : ArenaTree)

namespace ArenaTree

def root : ArenaTree → Nat
  | leaf i => i
  | node i _ _ => i

/-- The leaves' indices. -/
def leaves : ArenaTree → List Nat
  | leaf i => [i]
  | node _ l r => l.leaves ++ r.leaves

/-- Every index of the tree. -/
def indices : ArenaTree → List Nat
  | leaf i => [i]
  | node i l r => i :: (l.indices ++ r.indices)

/-- Every leaf with its depth, the root's depth being d. -/
def leafDepths : ArenaTree → Nat → List (Nat × Nat)
  | leaf i, d => [(i, d)]
  | node _ l r, d => l.leafDepths (d + 1) ++ r.leafDepths (d + 1)

/-- Every index with its depth. -/
def depths : ArenaTree → Nat → List (Nat × Nat)
  | leaf i, d => [(i, d)]
  | node i l r, d => (i, d) :: (l.depths (d + 1) ++ r.depths (d + 1))

/-- The sum of the leaves' weights. -/
def weight (wt : Nat → Nat) : ArenaTree → Nat
  | leaf i => wt i
  | node _ l r => l.weight wt + r.weight wt

/-- The sum of weight times depth over the leaves, less d times the whole weight: the weights of the internal nodes. -/
def cost (wt : Nat → Nat) : ArenaTree → Nat
  | leaf _ => 0
  | node _ l r => l.cost wt + r.cost wt + (l.weight wt + r.weight wt)

/-- The tree is what the arena says. -/
def Fits (k : Nat) (nodes : List Node) : ArenaTree → Prop
  | leaf i => i < k
  | node i l r =>
    (k ≤ i ∧ i < nodes.length) ∧ l.root = (entryOf nodes i).c0.toNat ∧ r.root = (entryOf nodes i).c1.toNat ∧
      l.Fits k nodes ∧ r.Fits k nodes

theorem leafDepths_fst (t : ArenaTree) (d : Nat) : (t.leafDepths d).map Prod.fst = t.leaves := by
  induction t generalizing d with
  | leaf i => rfl
  | node i l r ihl ihr => simp [leafDepths, leaves, ihl, ihr]

theorem depths_fst (t : ArenaTree) (d : Nat) : (t.depths d).map Prod.fst = t.indices := by
  induction t generalizing d with
  | leaf i => rfl
  | node i l r ihl ihr => simp [depths, indices, ihl, ihr]

theorem root_mem (t : ArenaTree) (d : Nat) : (t.root, d) ∈ t.depths d := by cases t <;> simp [depths, root]

theorem leafDepths_sub (t : ArenaTree) (d : Nat) : ∀ p ∈ t.leafDepths d, p ∈ t.depths d := by
  induction t generalizing d with
  | leaf i => simp [leafDepths, depths]
  | node i l r ihl ihr =>
    intro p hp
    simp only [leafDepths, depths, List.mem_append, List.mem_cons] at *
    rcases hp with hp | hp
    · exact Or.inr (Or.inl (ihl _ p hp))
    · exact Or.inr (Or.inr (ihr _ p hp))

theorem leaves_pos (t : ArenaTree) : 0 < t.leaves.length := by
  induction t with
  | leaf i => simp [leaves]
  | node i l r ihl ihr => simp [leaves]; omega

/-- A leaf's depth is at least the root's and exceeds it by less than the number of leaves. -/
theorem leafDepths_bounds (t : ArenaTree) (d : Nat) : ∀ p ∈ t.leafDepths d, d ≤ p.2 ∧ p.2 + 1 ≤ d + t.leaves.length := by
  induction t generalizing d with
  | leaf i => simp [leafDepths, leaves]
  | node i l r ihl ihr =>
    have hl := l.leaves_pos
    have hr := r.leaves_pos
    intro p hp
    simp only [leafDepths, List.mem_append, leaves, List.length_append] at *
    rcases hp with hp | hp
    · have := ihl _ p hp; omega
    · have := ihr _ p hp; omega

/-- The leaves of a tree with two leaves or more lie below the root. -/
theorem leafDepths_below {t : ArenaTree} (ht : 2 ≤ t.leaves.length) (d : Nat) : ∀ p ∈ t.leafDepths d, d + 1 ≤ p.2 := by
  cases t with
  | leaf i => simp [leaves] at ht
  | node i l r =>
    intro p hp
    simp only [leafDepths, List.mem_append] at hp
    rcases hp with hp | hp
    · exact (l.leafDepths_bounds _ p hp).1
    · exact (r.leafDepths_bounds _ p hp).1

/-- Each child link adds one to the depth (42_tree.md R156). -/
theorem Fits.depths_child {k : Nat} {nodes : List Node} {t : ArenaTree} (h : t.Fits k nodes) (d : Nat) :
    ∀ p ∈ t.depths d, k ≤ p.1 →
      ((entryOf nodes p.1).c0.toNat, p.2 + 1) ∈ t.depths d ∧ ((entryOf nodes p.1).c1.toNat, p.2 + 1) ∈ t.depths d := by
  induction t generalizing d with
  | leaf i => simp only [Fits] at h; simp [depths]; omega
  | node i l r ihl ihr =>
    obtain ⟨hi, hl, hr, hfl, hfr⟩ := h
    intro p hp hk
    simp only [depths, List.mem_cons, List.mem_append] at hp ⊢
    rcases hp with rfl | hp | hp
    · rw [← hl, ← hr]
      exact ⟨Or.inr (Or.inl (l.root_mem _)), Or.inr (Or.inr (r.root_mem _))⟩
    · obtain ⟨h1, h2⟩ := ihl hfl _ p hp hk
      exact ⟨Or.inr (Or.inl h1), Or.inr (Or.inl h2)⟩
    · obtain ⟨h1, h2⟩ := ihr hfr _ p hp hk
      exact ⟨Or.inr (Or.inr h1), Or.inr (Or.inr h2)⟩

theorem Fits.append {k : Nat} {nodes : List Node} {t : ArenaTree} (h : t.Fits k nodes) (n : Node) : t.Fits k (nodes ++ [n]) := by
  induction t with
  | leaf i => exact h
  | node i l r ihl ihr =>
    obtain ⟨hi, hl, hr, hfl, hfr⟩ := h
    refine ⟨⟨hi.1, by simp; omega⟩, ?_, ?_, ihl hfl, ihr hfr⟩
    · rw [entryOf_append_lt hi.2]; exact hl
    · rw [entryOf_append_lt hi.2]; exact hr

/-- Kraft: the leaves' weights 2^-depth add up to the root's (43_codegen.md R174). -/
theorem kraft (t : ArenaTree) (d : Nat) : ((t.leafDepths d).map fun p => ((1 : ℚ) / 2) ^ p.2).sum = (1 / 2) ^ d := by
  induction t generalizing d with
  | leaf i => simp [leafDepths]
  | node i l r ihl ihr =>
    rw [leafDepths, List.map_append, List.sum_append, ihl, ihr]
    ring

/-- The cost is the sum of weight times depth. -/
theorem cost_eq (wt : Nat → Nat) (t : ArenaTree) (d : Nat) :
    ((t.leafDepths d).map fun p => wt p.1 * p.2).sum = t.cost wt + d * t.weight wt := by
  induction t generalizing d with
  | leaf i => simp [leafDepths, cost, weight, Nat.mul_comm]
  | node i l r ihl ihr =>
    rw [leafDepths, List.map_append, List.sum_append, ihl, ihr, cost, weight]
    ring

theorem weight_eq (wt : Nat → Nat) (t : ArenaTree) : t.weight wt = (t.leaves.map wt).sum := by
  induction t with
  | leaf i => simp [leaves, weight]
  | node i l r ihl ihr => rw [leaves, List.map_append, List.sum_append, weight, ihl, ihr]

/-- A Huffman tree: a node's children weigh no more than the node's sibling. -/
def Greedy (wt : Nat → Nat) : ArenaTree → Prop
  | leaf _ => True
  | node _ l r => l.Greedy wt ∧ r.Greedy wt ∧ ChildrenBelow wt l (r.weight wt) ∧ ChildrenBelow wt r (l.weight wt)
where
  /-- The children of t weigh at most w. -/
  ChildrenBelow (wt : Nat → Nat) : ArenaTree → Nat → Prop
  | leaf _, _ => True
  | node _ a b, w => a.weight wt ≤ w ∧ b.weight wt ≤ w

theorem weight_pos {wt : Nat → Nat} {t : ArenaTree} (h : ∀ i ∈ t.leaves, 0 < wt i) : 0 < t.weight wt := by
  induction t with
  | leaf i => exact h i (by simp [leaves])
  | node i l r ihl ihr =>
    have := ihl fun i hi => h i (by simp [leaves, hi])
    simp only [weight]; omega

/-- The Fibonacci bound (93_implementation_defined.md I13): a leaf at depth n below the root needs a weight of fib (n + 2). -/
theorem Greedy.fib_le {wt : Nat → Nat} {t : ArenaTree} (h : t.Greedy wt) (hp : ∀ i ∈ t.leaves, 0 < wt i) (d : Nat) :
    ∀ p ∈ t.leafDepths d, Nat.fib (p.2 - d + 2) ≤ t.weight wt := by
  have key : ∀ (n : Nat) (t : ArenaTree), t.leaves.length ≤ n → t.Greedy wt → (∀ i ∈ t.leaves, 0 < wt i) → ∀ (d : Nat),
      ∀ p ∈ t.leafDepths d, Nat.fib (p.2 - d + 2) ≤ t.weight wt := by
    intro n
    induction n with
    | zero => intro t ht; have := t.leaves_pos; omega
    | succ n ih =>
      intro t ht hg hpos d p hp
      cases t with
      | leaf i =>
        simp only [leafDepths, List.mem_singleton] at hp
        subst hp
        have := Nat.succ_le_of_lt (weight_pos hpos)
        simpa using this
      | node i l r =>
        obtain ⟨hgl, hgr, hcl, hcr⟩ := hg
        have hll := l.leaves_pos
        have hrl := r.leaves_pos
        simp only [leaves, List.length_append] at ht
        have hpl : ∀ i ∈ l.leaves, 0 < wt i := fun i hi => hpos i (by simp [leaves, hi])
        have hpr : ∀ i ∈ r.leaves, 0 < wt i := fun i hi => hpos i (by simp [leaves, hi])
        -- one side holds the leaf, the other side weighs at least the grandchild that holds it
        have side : ∀ (a b : ArenaTree), a.Greedy wt → (∀ i ∈ a.leaves, 0 < wt i) → (∀ i ∈ b.leaves, 0 < wt i) →
            a.leaves.length ≤ n → Greedy.ChildrenBelow wt a (b.weight wt) → p ∈ a.leafDepths (d + 1) →
            Nat.fib (p.2 - d + 2) ≤ a.weight wt + b.weight wt := by
          intro a b hga hpa hpb hla hca hm
          have hd := (a.leafDepths_bounds _ p hm).1
          have h1 := ih a hla hga hpa (d + 1) p hm
          have hb : Nat.fib (p.2 - (d + 1) + 1) ≤ b.weight wt := by
            cases a with
            | leaf j =>
              simp only [leafDepths, List.mem_singleton] at hm
              subst hm
              have := Nat.succ_le_of_lt (weight_pos hpb)
              simpa using this
            | node j x y =>
              have hxl := x.leaves_pos
              have hyl := y.leaves_pos
              obtain ⟨hgx, hgy, _, _⟩ := hga
              simp only [leaves, List.length_append] at hla
              simp only [leafDepths, List.mem_append] at hm
              rcases hm with hm | hm
              · have hd' := (x.leafDepths_bounds _ p hm).1
                have h2 := ih x (by omega) hgx (fun i hi => hpa i (by simp [leaves, hi])) (d + 1 + 1) p hm
                rw [show p.2 - (d + 1) + 1 = p.2 - (d + 1 + 1) + 2 by omega]
                exact h2.trans hca.1
              · have hd' := (y.leafDepths_bounds _ p hm).1
                have h2 := ih y (by omega) hgy (fun i hi => hpa i (by simp [leaves, hi])) (d + 1 + 1) p hm
                rw [show p.2 - (d + 1) + 1 = p.2 - (d + 1 + 1) + 2 by omega]
                exact h2.trans hca.2
          rw [show p.2 - d + 2 = (p.2 - (d + 1) + 1) + 2 by omega, Nat.fib_add_two]
          rw [show p.2 - (d + 1) + 1 + 1 = p.2 - (d + 1) + 2 by omega]
          omega
        simp only [leafDepths, List.mem_append] at hp
        rcases hp with hp | hp
        · exact side l r hgl hpl hpr (by omega) hcl hp
        · have := side r l hgr hpr hpl (by omega) hcr hp
          simp only [weight]; omega
  exact key _ t le_rfl h hp d

end ArenaTree

/-! ## The forest over the active set -/

/-- `tr` gives each active member its tree: together the trees hold every index of the arena once, and every leaf once. -/
structure Forest (k : Nat) (nodes : List Node) (act : List Active) (tr : Nat → ArenaTree) : Prop where
  root : ∀ a ∈ act, (tr a.idx).root = a.idx
  fits : ∀ a ∈ act, (tr a.idx).Fits k nodes
  indices : (act.flatMap fun a => (tr a.idx).indices).Perm (List.range nodes.length)
  leaves : (act.flatMap fun a => (tr a.idx).leaves).Perm (List.range k)

/-- The weights of a forest without overflow, and that its trees are greedy. -/
structure Weighed (wt : Nat → Nat) (act : List Active) (tr : Nat → ArenaTree) : Prop where
  weight : ∀ a ∈ act, (tr a.idx).weight wt = a.w.toNat
  greedy : ∀ a ∈ act, (tr a.idx).Greedy wt
  below : ∀ a ∈ act, ∀ b ∈ act, ArenaTree.Greedy.ChildrenBelow wt (tr a.idx) b.w.toNat

/-- The active set with x and y in front. -/
theorem perm_erase_erase {act : List Active} {x y : Active} (hx : x ∈ act) (hy : y ∈ act.erase x) :
    act.Perm (x :: y :: (act.erase x).erase y) :=
  (List.perm_cons_erase hx).trans ((List.perm_cons_erase hy).cons x)

/-- The trees after the combination of x and y. -/
def nextTree (tr : Nat → ArenaTree) (n : Nat) (x y : Active) : Nat → ArenaTree :=
  fun i => if i = n then .node n (tr x.idx) (tr y.idx) else tr i

theorem nextTree_self (tr : Nat → ArenaTree) (n : Nat) (x y : Active) :
    nextTree tr n x y n = .node n (tr x.idx) (tr y.idx) := by simp [nextTree]

theorem nextTree_ne (tr : Nat → ArenaTree) {n i : Nat} (x y : Active) (h : i ≠ n) : nextTree tr n x y i = tr i := by
  simp [nextTree, h]

theorem flatMap_nextTree {β : Type} (f : ArenaTree → List β) (tr : Nat → ArenaTree) (n : Nat) (x y : Active)
    (l : List Active) (h : ∀ a ∈ l, a.idx < n) :
    l.flatMap (fun a => f (nextTree tr n x y a.idx)) = l.flatMap fun a => f (tr a.idx) := by
  induction l with
  | nil => rfl
  | cons a l ih =>
    rw [List.flatMap_cons, List.flatMap_cons, ih fun b hb => h b (by simp [hb]),
      nextTree_ne tr x y (Nat.ne_of_lt (h a (by simp)))]

theorem Forest.combine_next {k : Nat} {nodes : List Node} {act : List Active} {tr : Nat → ArenaTree}
    (ha : ArenaOk k nodes act) (h : Forest k nodes act tr) {x y : Active} (hx : x ∈ act) (hy : y ∈ act.erase x)
    (hlen : nodes.length < 511) :
    Forest k (nodes ++ [innerNode x y])
      ((act.erase x).erase y ++ [{ w := (innerNode x y).w, idx := nodes.length }]) (nextTree tr nodes.length x y) := by
  have hp := perm_erase_erase hx hy
  have hym : y ∈ act := List.mem_of_mem_erase hy
  have hsub : ∀ a ∈ (act.erase x).erase y, a ∈ act := fun a h => List.mem_of_mem_erase (List.mem_of_mem_erase h)
  have hlt : ∀ a ∈ (act.erase x).erase y, a.idx < nodes.length := fun a h => ha.active_lt a (hsub a h)
  have hc0 := innerNode_c0 (x := x) y (by have := ha.active_lt x hx; omega)
  have hc1 := innerNode_c1 (y := y) x (by have := ha.active_lt y hym; omega)
  refine ⟨?_, ?_, ?_, ?_⟩
  · intro a hm
    rw [List.mem_append, List.mem_singleton] at hm
    rcases hm with hm | rfl
    · rw [nextTree_ne tr x y (Nat.ne_of_lt (hlt a hm))]; exact h.root a (hsub a hm)
    · rw [nextTree_self]; rfl
  · intro a hm
    rw [List.mem_append, List.mem_singleton] at hm
    rcases hm with hm | rfl
    · rw [nextTree_ne tr x y (Nat.ne_of_lt (hlt a hm))]; exact (h.fits a (hsub a hm)).append _
    · rw [nextTree_self]
      refine ⟨⟨ha.le, by simp⟩, ?_, ?_, (h.fits x hx).append _, (h.fits y hym).append _⟩
      · rw [entryOf_append_self, hc0]; exact h.root x hx
      · rw [entryOf_append_self, hc1]; exact h.root y hym
  · rw [List.flatMap_append, flatMap_nextTree ArenaTree.indices tr nodes.length x y _ hlt, List.flatMap_singleton]
    simp only [nextTree_self, ArenaTree.indices]
    have h1 := (hp.flatMap_right fun a => (tr a.idx).indices).symm.trans h.indices
    simp only [List.flatMap_cons] at h1
    rw [List.length_append, List.length_singleton, List.range_succ]
    refine List.Perm.trans ?_ (h1.append_right [nodes.length])
    refine List.perm_append_comm.trans ?_
    refine List.Perm.trans ?_ (List.perm_append_comm (l₁ := [nodes.length]))
    simp [List.append_assoc]
  · rw [List.flatMap_append, flatMap_nextTree ArenaTree.leaves tr nodes.length x y _ hlt, List.flatMap_singleton]
    simp only [nextTree_self, ArenaTree.leaves]
    have h1 := (hp.flatMap_right fun a => (tr a.idx).leaves).symm.trans h.leaves
    simp only [List.flatMap_cons] at h1
    refine List.Perm.trans ?_ h1
    refine List.perm_append_comm.trans ?_
    simp [List.append_assoc]

theorem Weighed.sum_eq {k : Nat} {nodes : List Node} {act : List Active} {tr : Nat → ArenaTree} {wt : Nat → Nat}
    (h : Forest k nodes act tr) (hw : Weighed wt act tr) :
    (act.map fun a => a.w.toNat).sum = ((List.range k).map wt).sum := by
  rw [← (h.leaves.map wt).sum_eq]
  have : ∀ l : List Active, (∀ a ∈ l, (tr a.idx).weight wt = a.w.toNat) →
      (l.map fun a => a.w.toNat).sum = ((l.flatMap fun a => (tr a.idx).leaves).map wt).sum := by
    intro l hl
    induction l with
    | nil => rfl
    | cons a l ih =>
      rw [List.map_cons, List.sum_cons, List.flatMap_cons, List.map_append, List.sum_append,
        ih fun b hb => hl b (by simp [hb]), ← hl a (by simp), ArenaTree.weight_eq]
  exact this act hw.weight

/-- The new member's weight is the exact sum where that fits 32 bits (42_tree.md R157). -/
theorem innerNode_w {x y : Active} (h : x.w.toNat + y.w.toNat < 2 ^ 32) :
    (innerNode x y).w.toNat = x.w.toNat + y.w.toNat := by
  simp only [innerNode, sumWeight, if_pos h, BitVec.toNat_add]
  exact Nat.mod_eq_of_lt h

theorem Weighed.combine_next {k : Nat} {nodes : List Node} {act : List Active} {tr : Nat → ArenaTree} {wt : Nat → Nat}
    (ha : ArenaOk k nodes act) (hw : Weighed wt act tr) {x y : Active}
    (hx : argmin act = some x) (hy : argmin (act.erase x) = some y) (hsum : x.w.toNat + y.w.toNat < 2 ^ 32) :
    Weighed wt ((act.erase x).erase y ++ [{ w := (innerNode x y).w, idx := nodes.length }]) (nextTree tr nodes.length x y) := by
  have hxm := (argmin_spec hx).1
  have hyr := (argmin_spec hy).1
  have hym : y ∈ act := List.mem_of_mem_erase hyr
  have hsub : ∀ a ∈ (act.erase x).erase y, a ∈ act := fun a h => List.mem_of_mem_erase (List.mem_of_mem_erase h)
  have hlt : ∀ a ∈ (act.erase x).erase y, a.idx < nodes.length := fun a h => ha.active_lt a (hsub a h)
  have hxy := argmin_le hx hym
  have hyl : ∀ b ∈ (act.erase x).erase y, y.w.toNat ≤ b.w.toNat :=
    fun b hb => argmin_le hy (List.mem_of_mem_erase hb)
  have hwn := innerNode_w hsum
  have hxw := hw.weight x hxm
  have hyw := hw.weight y hym
  have mono : ∀ (t : ArenaTree) (u v : Nat), u ≤ v → ArenaTree.Greedy.ChildrenBelow wt t u →
      ArenaTree.Greedy.ChildrenBelow wt t v := by
    intro t u v huv h
    cases t with
    | leaf i => trivial
    | node i l r => exact ⟨h.1.trans huv, h.2.trans huv⟩
  refine ⟨?_, ?_, ?_⟩
  · intro a hm
    rw [List.mem_append, List.mem_singleton] at hm
    rcases hm with hm | rfl
    · rw [nextTree_ne tr x y (Nat.ne_of_lt (hlt a hm))]; exact hw.weight a (hsub a hm)
    · simp only [nextTree_self, ArenaTree.weight, hxw, hyw, hwn]
  · intro a hm
    rw [List.mem_append, List.mem_singleton] at hm
    rcases hm with hm | rfl
    · rw [nextTree_ne tr x y (Nat.ne_of_lt (hlt a hm))]; exact hw.greedy a (hsub a hm)
    · simp only [nextTree_self]
      refine ⟨hw.greedy x hxm, hw.greedy y hym, ?_, ?_⟩
      · rw [hyw]; exact hw.below x hxm y hym
      · rw [hxw]; exact hw.below y hym x hxm
  · intro a hma b hmb
    rw [List.mem_append, List.mem_singleton] at hma hmb
    rcases hma with hma | rfl
    · rw [nextTree_ne tr x y (Nat.ne_of_lt (hlt a hma))]
      rcases hmb with hmb | rfl
      · exact hw.below a (hsub a hma) b (hsub b hmb)
      · refine mono _ _ _ ?_ (hw.below a (hsub a hma) x hxm)
        simp only [hwn]; omega
    · simp only [nextTree_self, ArenaTree.Greedy.ChildrenBelow, hxw, hyw]
      rcases hmb with hmb | rfl
      · have := hyl b hmb; omega
      · simp only [hwn]; omega

/-- The cost of the trees of the active set. -/
def forestCost (wt : Nat → Nat) (act : List Active) (tr : Nat → ArenaTree) : Nat :=
  (act.map fun a => (tr a.idx).cost wt).sum

theorem forestCost_next {k : Nat} {nodes : List Node} {act : List Active} {tr : Nat → ArenaTree} {wt : Nat → Nat}
    (ha : ArenaOk k nodes act) (hw : Weighed wt act tr) {x y : Active} (hx : x ∈ act) (hy : y ∈ act.erase x) (w : Word) :
    forestCost wt ((act.erase x).erase y ++ [{ w := w, idx := nodes.length }]) (nextTree tr nodes.length x y) =
      forestCost wt act tr + (x.w.toNat + y.w.toNat) := by
  have hp := perm_erase_erase hx hy
  have hym : y ∈ act := List.mem_of_mem_erase hy
  have hsub : ∀ a ∈ (act.erase x).erase y, a ∈ act := fun a h => List.mem_of_mem_erase (List.mem_of_mem_erase h)
  have hlt : ∀ a ∈ (act.erase x).erase y, a.idx < nodes.length := fun a h => ha.active_lt a (hsub a h)
  unfold forestCost
  rw [(hp.map fun a => (tr a.idx).cost wt).sum_eq, List.map_append, List.sum_append]
  simp only [List.map_cons, List.map_nil, List.sum_cons, List.sum_nil, nextTree_self, ArenaTree.cost, hw.weight x hx,
    hw.weight y hym]
  rw [List.map_congr_left (g := fun a => (tr a.idx).cost wt) fun a hm => by
    rw [nextTree_ne tr x y (Nat.ne_of_lt (hlt a hm))]]
  omega

/-- What u combinations leave. -/
theorem Forest.after {k : Nat} {nodes : List Node} {act : List Active} {tr : Nat → ArenaTree} (ha : ArenaOk k nodes act)
    (h : Forest k nodes act tr) (hn : nodes.length = k) (hl : act.length = k) (hk : k ≤ 256) (u : Nat) (hu : u + 1 ≤ k) :
    ∃ tr', Forest k (combineState nodes act u).1 (combineState nodes act u).2 tr' ∧
      ∀ wt : Nat → Nat, ((List.range k).map wt).sum < 2 ^ 32 → Weighed wt act tr →
        Weighed wt (combineState nodes act u).2 tr' ∧
        ∃ c, Merges (act.map fun a => a.w.toNat) ((combineState nodes act u).2.map fun a => a.w.toNat) u c ∧
          forestCost wt (combineState nodes act u).2 tr' = forestCost wt act tr + c := by
  induction u with
  | zero => exact ⟨tr, h, fun wt _ hw => ⟨hw, 0, Merges.start, rfl⟩⟩
  | succ u ih =>
    obtain ⟨tr', hf, hwt⟩ := ih (by omega)
    obtain ⟨hok, hlen, hal⟩ := ha.after hn hl hk u (by omega)
    obtain ⟨x, y, hx, hy, he⟩ := combineStep_cases (combineState nodes act u).1 (combineState nodes act u).2 (by omega)
    have hxm := (argmin_spec hx).1
    have hyr := (argmin_spec hy).1
    have hp := perm_erase_erase hxm hyr
    refine ⟨nextTree tr' (combineState nodes act u).1.length x y, ?_, ?_⟩
    · rw [combineState_succ, he]
      exact hf.combine_next hok hxm hyr (by omega)
    · intro wt hsum hw
      obtain ⟨hw', c, hm, hc⟩ := hwt wt hsum hw
      have hs := hw'.sum_eq hf
      have hperm := (hp.map fun a => a.w.toNat)
      have hs2 := hperm.sum_eq
      simp only [List.map_cons, List.sum_cons] at hs2
      have hlt : x.w.toNat + y.w.toNat < 2 ^ 32 := by omega
      rw [combineState_succ, he]
      refine ⟨hw'.combine_next hok hx hy hlt, c + (x.w.toNat + y.w.toNat), ?_, ?_⟩
      · have e1 : (((combineState nodes act u).2.map fun a => a.w.toNat : List ℕ) : Multiset ℕ) =
            x.w.toNat ::ₘ y.w.toNat ::ₘ ((((combineState nodes act u).2.erase x).erase y).map fun a => a.w.toNat : List ℕ) := by
          rw [Multiset.coe_eq_coe.2 hperm]; rfl
        have e2 : (((((combineState nodes act u).2.erase x).erase y ++
              [Active.mk (innerNode x y).w (combineState nodes act u).1.length]).map fun a => a.w.toNat : List ℕ) : Multiset ℕ) =
            (x.w.toNat + y.w.toNat) ::ₘ ((((combineState nodes act u).2.erase x).erase y).map fun a => a.w.toNat : List ℕ) := by
          rw [List.map_append, ← Multiset.coe_add, add_comm]
          simp [innerNode_w hlt]
        rw [e2]
        rw [e1] at hm
        refine Merges.merge hm (argmin_le hx (List.mem_of_mem_erase hyr)) ?_
        intro b hb
        simp only [Multiset.mem_coe, List.mem_map] at hb
        obtain ⟨a, ha, rfl⟩ := hb
        exact argmin_le hy (List.mem_of_mem_erase ha)
      · rw [forestCost_next hok hw' hxm hyr, hc]; omega

theorem Forest.first (leaves : List Node) : Forest leaves.length leaves (firstActive leaves) ArenaTree.leaf := by
  have hidx := zipIdx_idx leaves
  have hfm : ((firstActive leaves).flatMap fun a => [a.idx]) = List.range leaves.length := by
    rw [← hidx, List.map_eq_flatMap]
  refine ⟨fun _ _ => rfl, ?_, ?_, ?_⟩
  · intro a ha
    have : a.idx ∈ (firstActive leaves).map Active.idx := List.mem_map_of_mem ha
    rw [hidx, List.mem_range] at this
    exact this
  · simp only [ArenaTree.indices]; rw [hfm]
  · simp only [ArenaTree.leaves]; rw [hfm]

theorem Weighed.first (leaves : List Node) :
    Weighed (fun i => (entryOf leaves i).w.toNat) (firstActive leaves) ArenaTree.leaf := by
  refine ⟨?_, fun _ _ => trivial, fun _ _ _ _ => trivial⟩
  intro a ha
  simp only [firstActive, List.mem_map] at ha
  obtain ⟨p, hp, rfl⟩ := ha
  rw [List.mem_zipIdx_iff_getElem?] at hp
  simp [ArenaTree.weight, entryOf, hp]

end Sys2Proof.Machine
end

