-- ==== Sys2Proof/Laws/Build.lean ====
section
/-! SUPPORT. Laws of BUILD over a state: the arena it writes and the code lengths. -/

namespace Sys2Proof.Machine

/-! ## The arena that BUILD writes -/

theorem State.leaves_length (s : State) : s.leaves.length = s.present.length := by simp [State.leaves]

theorem State.leaves_leaf (s : State) : ∀ n ∈ s.leaves, n.leaf = true := by
  intro n hn
  simp only [State.leaves, List.mem_map] at hn
  obtain ⟨i, _, rfl⟩ := hn
  rfl

theorem arenaOf_eq (leaves : List Node) :
    arenaOf leaves = (combineState leaves (firstActive leaves) (leaves.length - 1)).1 :=
  combine_eq_combineState _ _ _

/-- The tree that BUILD builds over its leaves: it holds every entry of the arena and every leaf once, its root is the last
entry, and with weights that do not overflow it is greedy and costs at most 8 bits a unit of weight. -/
theorem arenaOf_tree (leaves : List Node) (hl : ∀ n ∈ leaves, n.leaf = true) (h1 : 1 ≤ leaves.length)
    (h2 : leaves.length ≤ 256) :
    (arenaOf leaves).length = 2 * leaves.length - 1 ∧
    (∃ act, ArenaOk leaves.length (arenaOf leaves) act ∧ act.map Active.idx = [2 * leaves.length - 2]) ∧
    (∀ i < leaves.length, entryOf (arenaOf leaves) i = entryOf leaves i) ∧
    ∃ T : ArenaTree, T.root = 2 * leaves.length - 2 ∧ T.Fits leaves.length (arenaOf leaves) ∧
      T.indices.Perm (List.range (2 * leaves.length - 1)) ∧ T.leaves.Perm (List.range leaves.length) ∧
      ∀ wt : Nat → Nat, wt = (fun i => (entryOf leaves i).w.toNat) → ((List.range leaves.length).map wt).sum < 2 ^ 32 →
        T.Greedy wt ∧ T.weight wt = ((List.range leaves.length).map wt).sum ∧
        T.cost wt ≤ 8 * ((List.range leaves.length).map wt).sum := by
  have hok := ArenaOk.first leaves hl
  have hfl := firstActive_length leaves
  obtain ⟨hok', hlen, hal⟩ := hok.after rfl hfl h2 (leaves.length - 1) (by omega)
  obtain ⟨tr, hf, hwt⟩ := (Forest.first leaves).after hok rfl hfl h2 (leaves.length - 1) (by omega)
  rw [← arenaOf_eq] at hok' hlen hf
  have hlen' : (arenaOf leaves).length = 2 * leaves.length - 1 := by omega
  obtain ⟨a, ha⟩ := List.length_eq_one_iff.1 (show (combineState leaves (firstActive leaves) (leaves.length - 1)).2.length = 1 by omega)
  rw [ha] at hok' hf hwt
  have hidx : a.idx = 2 * leaves.length - 2 := by
    rcases hok'.parent (2 * leaves.length - 2) (by omega) with ⟨hin, _⟩ | ⟨_, p, ⟨⟨hp1, hp2⟩, hpc⟩, _⟩
    · rw [List.map_cons, List.map_nil, List.mem_singleton] at hin; exact hin.symm
    · have := hok'.inner p hp1 hp2
      rcases hpc with hpc | hpc <;> omega
  have hroot := hf.root a (by simp)
  have hfits := hf.fits a (by simp)
  have hind := hf.indices
  have hlv := hf.leaves
  simp only [List.flatMap_cons, List.flatMap_nil, List.append_nil] at hind hlv
  refine ⟨hlen', ⟨_, hok', by simp [hidx]⟩, ?_, tr a.idx, by rw [hroot, hidx], hfits, by rw [← hlen']; exact hind, hlv, ?_⟩
  · intro i hi
    rw [arenaOf_eq]
    exact combineState_entry hok rfl hfl h2 (Nat.zero_le _) (by omega) (by omega)
  · intro wt hwe hsum
    subst hwe
    obtain ⟨hw, c, hm, hc⟩ := hwt _ hsum (Weighed.first leaves)
    have hsumA : ((firstActive leaves).map fun a => a.w.toNat).sum =
        ((List.range leaves.length).map fun i => (entryOf leaves i).w.toNat).sum :=
      (Weighed.first leaves).sum_eq (Forest.first leaves)
    have hc8 := hm.cost_le 8 (by simp [hfl]; omega) (by simp)
    refine ⟨hw.greedy a (by simp), ?_, ?_⟩
    · have := hw.sum_eq hf
      simp only [List.map_cons, List.map_nil, List.sum_cons, List.sum_nil, Nat.add_zero] at this
      rw [hw.weight a (by simp), this]
    · have hz : forestCost (fun i => (entryOf leaves i).w.toNat) (firstActive leaves) ArenaTree.leaf = 0 := by
        simp [forestCost, ArenaTree.cost]
      rw [hz, Nat.zero_add] at hc
      simp only [forestCost, List.map_cons, List.map_nil, List.sum_cons, List.sum_nil, Nat.add_zero] at hc
      rw [hc, ← hsumA]
      simpa using hc8

/-! ## Code lengths -/

theorem getElem?_eq_entryOf {nodes : List Node} {i : Nat} (h : i < nodes.length) : nodes[i]? = some (entryOf nodes i) := by
  simp [entryOf, h]

/-- The descent of BUILD lists the tree's leaves with their depths (42_tree.md R156). -/
theorem leafDepths_eq {k : Nat} {nodes : List Node} {act : List Active} (ha : ArenaOk k nodes act) (t : ArenaTree)
    (ht : t.Fits k nodes) (fuel d : Nat) (hf : t.indices.length ≤ fuel) :
    leafDepths nodes fuel t.root d = (t.leafDepths d).map fun p => ((entryOf nodes p.1).sym, p.2) := by
  induction t generalizing fuel d with
  | leaf i =>
    cases fuel with
    | zero => simp [ArenaTree.indices] at hf
    | succ fuel =>
      have hi : i < k := ht
      simp [leafDepths, ArenaTree.root, getElem?_eq_entryOf (Nat.lt_of_lt_of_le hi ha.le), ha.leaf i hi, ArenaTree.leafDepths]
  | node i l r ihl ihr =>
    obtain ⟨hi, hl, hr, hfl, hfr⟩ := ht
    cases fuel with
    | zero => simp [ArenaTree.indices] at hf
    | succ fuel =>
      simp only [ArenaTree.indices, List.length_cons, List.length_append] at hf
      rw [ArenaTree.leafDepths, List.map_append, ← ihl hfl fuel (d + 1) (by omega), ← ihr hfr fuel (d + 1) (by omega), hl, hr]
      simp [leafDepths, ArenaTree.root, getElem?_eq_entryOf hi.2, (ha.inner i hi.1 hi.2).1]

theorem entryOf_leaves (s : State) {i : Nat} (h : i < s.present.length) :
    entryOf s.leaves i = leafNode (s.freqAt s.present[i]) s.present[i] := by
  simp [entryOf, State.leaves, h]

/-- A length that the list of pairs gives to a symbol it names once. -/
theorem lengthOf_eq {ps : List (Byte × Nat)} (hn : (ps.map fun p => p.1.toNat).Nodup) {b : Byte} {n : Nat} (h : (b, n) ∈ ps) :
    lengthOf ps b.toNat = n := by
  unfold lengthOf
  have hf : ps.find? (fun p => p.1.toNat == b.toNat) = some (b, n) := by
    induction ps with
    | nil => simp at h
    | cons p ps ih =>
      rw [List.find?_cons]
      simp only [List.map_cons, List.nodup_cons] at hn
      rcases List.mem_cons.1 h with rfl | h
      · simp
      · have : (p.1.toNat == b.toNat) = false := by
          simp only [beq_eq_false_iff_ne]
          intro e
          exact hn.1 (by rw [e]; exact List.mem_map_of_mem (f := fun p => p.1.toNat) h)
        rw [this]
        exact ih hn.2 h
  rw [hf]

theorem lengthOf_eq_zero {ps : List (Byte × Nat)} {i : Nat} (h : ∀ p ∈ ps, p.1.toNat ≠ i) : lengthOf ps i = 0 := by
  unfold lengthOf
  rw [List.find?_eq_none.2 (by simpa using h)]

/-- The symbols of the pairs that BUILD makes lengths from, each once: those present. -/
theorem State.buildLengths_spec (s : State) (h2 : 2 ≤ s.present.length) (T : ArenaTree)
    (hroot : T.root = 2 * s.leaves.length - 2) (hfits : T.Fits s.leaves.length (arenaOf s.leaves))
    (hind : T.indices.Perm (List.range (2 * s.leaves.length - 1))) (hlv : T.leaves.Perm (List.range s.leaves.length)) :
    (∀ i (hi : i < s.present.length) (d : Nat), (i, d) ∈ T.leafDepths 0 →
      lengthOf (codeLengths s.leaves (arenaOf s.leaves)) s.present[i] = d) ∧
    (∀ i, i ∉ s.present → lengthOf (codeLengths s.leaves (arenaOf s.leaves)) i = 0) := by
  have hk := s.leaves_length
  obtain ⟨hlen, ⟨act, hok, _⟩, hpre, _⟩ := arenaOf_tree s.leaves s.leaves_leaf (by omega)
    (by have := s.present_length_le; omega)
  have hcl : codeLengths s.leaves (arenaOf s.leaves) =
      (T.leafDepths 0).map fun p => ((entryOf (arenaOf s.leaves) p.1).sym, p.2) := by
    have h := leafDepths_eq hok T hfits (arenaOf s.leaves).length 0 (by rw [hind.length_eq, hlen]; simp)
    rw [← h, hroot]
    unfold codeLengths rootIndex
    split
    · rename_i e; rw [e] at hk; simp at hk; omega
    · rename_i n e; rw [e] at hk; simp at hk; omega
    · rw [if_neg (by omega)]
  have hmem : ∀ p ∈ T.leafDepths 0, p.1 < s.present.length := by
    intro p hp
    have : p.1 ∈ T.leaves := by rw [← T.leafDepths_fst 0]; exact List.mem_map_of_mem hp
    have := hlv.mem_iff.1 this
    rw [List.mem_range] at this
    omega
  have hsym : ∀ i (hi : i < s.present.length), (entryOf (arenaOf s.leaves) i).sym.toNat = s.present[i] := by
    intro i hi
    rw [hpre i (by omega), entryOf_leaves s hi]
    have : s.present[i] ∈ s.present := List.getElem_mem hi
    rw [s.mem_present] at this
    simp only [leafNode, BitVec.toNat_ofNat]
    omega
  have hfst : ((T.leafDepths 0).map fun p => ((entryOf (arenaOf s.leaves) p.1).sym, p.2)).map (fun p => p.1.toNat) =
      T.leaves.map fun i => (entryOf (arenaOf s.leaves) i).sym.toNat := by
    rw [← T.leafDepths_fst 0]; simp [List.map_map, Function.comp_def]
  have hnod : (((T.leafDepths 0).map fun p => ((entryOf (arenaOf s.leaves) p.1).sym, p.2)).map fun p => p.1.toNat).Nodup := by
    rw [hfst, (hlv.map _).nodup_iff]
    have : (List.range s.leaves.length).map (fun i => (entryOf (arenaOf s.leaves) i).sym.toNat) = s.present := by
      apply List.ext_getElem
      · simp [hk]
      · intro i h1 h2
        simp only [List.getElem_map, List.getElem_range]
        exact hsym i h2
    rw [this]
    exact s.present_pairwise.imp fun h => Nat.ne_of_lt h
  constructor
  · intro i hi d hd
    rw [hcl, ← hsym i hi]
    exact lengthOf_eq hnod (List.mem_map_of_mem (f := fun p => ((entryOf (arenaOf s.leaves) p.1).sym, p.2)) hd)
  · intro i hi
    rw [hcl]
    apply lengthOf_eq_zero
    intro p hp
    rw [List.mem_map] at hp
    obtain ⟨q, hq, rfl⟩ := hp
    simp only
    rw [hsym q.1 (hmem q hq)]
    exact fun e => hi (e ▸ List.getElem_mem _)

/-- The code length that BUILD gives symbol i (42_tree.md R155, R156). -/
def State.buildLen (s : State) (i : Nat) : Nat := lengthOf (codeLengths s.leaves (arenaOf s.leaves)) i

theorem sum_map_range_getD (l : List Nat) (f : Nat → Nat) :
    ((List.range l.length).map fun j => f (l[j]?.getD 0)).sum = (l.map f).sum := by
  congr 1
  apply List.ext_getElem
  · simp
  · intro i h1 h2
    simp only [List.length_map, List.length_range] at h1
    simp [h1]

theorem State.buildLen_zero (s : State) {i : Nat} (h : i ∉ s.present) : s.buildLen i = 0 := by
  rcases Nat.lt_or_ge s.present.length 2 with h2 | h2
  · have hk := s.leaves_length
    apply lengthOf_eq_zero
    intro p hp
    unfold codeLengths at hp
    split at hp
    · simp at hp
    · rename_i n e
      have h1 : s.present.length = 1 := by rw [← hk, e]; rfl
      obtain ⟨j, hj⟩ := List.length_eq_one_iff.1 h1
      have hjm : j ∈ s.present := by simp [hj]
      have hj2 := (s.mem_present j).1 hjm
      simp only [State.leaves, hj, List.map_cons, List.map_nil, List.cons.injEq, and_true] at e
      simp only [List.mem_singleton] at hp
      subst hp
      rw [← e]
      simp only [leafNode, BitVec.toNat_ofNat]
      intro e2
      apply h
      rw [← e2, Nat.mod_eq_of_lt (by omega)]
      exact hjm
    · rename_i h3 h4
      have hl : s.leaves.length ≤ 1 := by omega
      match hs : s.leaves with
      | [] => exact absurd hs h3
      | [n] => exact absurd hs (h4 n)
      | a :: b :: r => rw [hs] at hl; simp at hl
  · obtain ⟨_, _, _, T, h1, h2', h3, h4, _⟩ := arenaOf_tree s.leaves s.leaves_leaf (by rw [s.leaves_length]; omega)
      (by rw [s.leaves_length]; exact s.present_length_le)
    exact (s.buildLengths_spec h2 T h1 h2' h3 h4).2 i h

theorem State.buildLen_single (s : State) {i : Nat} (h : s.present = [i]) : s.buildLen i = 1 := by
  have hi := (s.mem_present i).1 (by simp [h])
  unfold State.buildLen codeLengths
  simp only [State.leaves, h, List.map_cons, List.map_nil]
  simp only [lengthOf, leafNode, List.find?_cons, BitVec.toNat_ofNat]
  rw [Nat.mod_eq_of_lt (by omega)]
  simp

/-- The lengths of a BUILD over two symbols or more are the depths of the leaves of one tree. -/
theorem State.buildLen_tree (s : State) (h2 : 2 ≤ s.present.length) :
    ∃ T : ArenaTree, T.root = 2 * s.present.length - 2 ∧ T.Fits s.present.length (arenaOf s.leaves) ∧
      T.indices.Perm (List.range (2 * s.present.length - 1)) ∧ T.leaves.Perm (List.range s.present.length) ∧
      (∀ p ∈ T.leafDepths 0, ∃ h : p.1 < s.present.length, s.buildLen s.present[p.1] = p.2) ∧
      (((s.present.map fun i => (s.freqAt i).toNat).sum < 2 ^ 32 →
        (∀ p ∈ T.leafDepths 0, Nat.fib (p.2 + 2) ≤ (s.present.map fun i => (s.freqAt i).toNat).sum) ∧
        ((T.leafDepths 0).map fun p => (s.freqAt (s.present[p.1]?.getD 0)).toNat * p.2).sum ≤
          8 * (s.present.map fun i => (s.freqAt i).toNat).sum)) := by
  have hk := s.leaves_length
  obtain ⟨_, _, _, T, h1, h2', h3, h4, hw⟩ := arenaOf_tree s.leaves s.leaves_leaf (by omega)
    (by rw [hk]; exact s.present_length_le)
  have hspec := (s.buildLengths_spec h2 T h1 h2' h3 h4).1
  have hmem : ∀ p ∈ T.leafDepths 0, p.1 < s.present.length := by
    intro p hp
    have : p.1 ∈ T.leaves := by rw [← T.leafDepths_fst 0]; exact List.mem_map_of_mem hp
    have := h4.mem_iff.1 this
    rw [List.mem_range] at this
    omega
  have hwt : ∀ i < s.present.length, (entryOf s.leaves i).w.toNat = (s.freqAt (s.present[i]?.getD 0)).toNat := by
    intro i hi
    rw [entryOf_leaves s hi]
    simp [leafNode, hi]
  have hsum : ((List.range s.leaves.length).map fun i => (entryOf s.leaves i).w.toNat).sum =
      (s.present.map fun i => (s.freqAt i).toNat).sum := by
    rw [hk, ← sum_map_range_getD s.present fun i => (s.freqAt i).toNat]
    congr 1
    apply List.map_congr_left
    intro i hi
    exact hwt i (List.mem_range.1 hi)
  rw [hk] at h1 h2' h3 h4
  refine ⟨T, h1, h2', h3, h4, fun p hp => ⟨hmem p hp, hspec p.1 (hmem p hp) p.2 hp⟩, ?_⟩
  intro hlt
  obtain ⟨hg, hwe, hc⟩ := hw _ rfl (by rw [hsum]; exact hlt)
  rw [hsum] at hwe hc
  constructor
  · intro p hp
    rw [← hwe]
    refine hg.fib_le ?_ 0 p hp
    intro i hi
    have hi := List.mem_range.1 (h4.mem_iff.1 hi)
    have := (s.mem_present s.present[i]).1 (List.getElem_mem hi)
    rw [hwt i hi]
    simpa [hi] using this.2
  · have := T.cost_eq (fun i => (entryOf s.leaves i).w.toNat) 0
    rw [Nat.zero_mul, Nat.add_zero] at this
    rw [← this] at hc
    refine le_trans (le_of_eq ?_) hc
    congr 1
    apply List.map_congr_left
    intro p hp
    rw [hwt p.1 (hmem p hp)]

/-- A sum over the present symbols is a sum over the leaves of the tree. -/
theorem State.sum_leafDepths {α : Type} [AddCommMonoid α] (s : State) {T : ArenaTree}
    (h4 : T.leaves.Perm (List.range s.present.length))
    (h5 : ∀ p ∈ T.leafDepths 0, ∃ h : p.1 < s.present.length, s.buildLen s.present[p.1] = p.2) (f : Nat → Nat → α) :
    (s.present.map fun i => f i (s.buildLen i)).sum = ((T.leafDepths 0).map fun p => f (s.present[p.1]?.getD 0) p.2).sum := by
  have e1 : s.present.map (fun i => f i (s.buildLen i)) =
      (List.range s.present.length).map fun j => f (s.present[j]?.getD 0) (s.buildLen (s.present[j]?.getD 0)) := by
    apply List.ext_getElem
    · simp
    · intro i h1 h2
      simp only [List.length_map] at h1
      simp [h1]
  have hp := h4.map fun j => f (s.present[j]?.getD 0) (s.buildLen (s.present[j]?.getD 0))
  rw [e1, ← hp.sum_eq, ← T.leafDepths_fst 0, List.map_map]
  congr 1
  apply List.map_congr_left
  intro p hp
  obtain ⟨h, he⟩ := h5 p hp
  simp [h, he]

/-- What the lengths of BUILD satisfy (42_tree.md R156, 43_codegen.md R174, 93_implementation_defined.md I12 to I14). -/
theorem State.buildLen_spec (s : State) :
    (∀ i ∈ s.present, 1 ≤ s.buildLen i ∧ s.buildLen i ≤ 255) ∧
    (s.present.map fun i => ((1 : ℚ) / 2) ^ s.buildLen i).sum ≤ 1 ∧
    ((s.present.map fun i => (s.freqAt i).toNat).sum < 2 ^ 32 →
      (2 ≤ s.present.length → ∀ i ∈ s.present, Nat.fib (s.buildLen i + 2) ≤ (s.present.map fun i => (s.freqAt i).toNat).sum) ∧
      (s.present.map fun i => (s.freqAt i).toNat * s.buildLen i).sum ≤ 8 * (s.present.map fun i => (s.freqAt i).toNat).sum) := by
  have hle := s.present_length_le
  rcases Nat.lt_or_ge s.present.length 2 with h2 | h2
  · match hp : s.present with
    | [] => simp
    | [i] =>
      have := s.buildLen_single hp
      simp only [List.mem_singleton, forall_eq, List.map_cons, List.map_nil, List.sum_cons, List.sum_nil, this,
        List.length_singleton]
      refine ⟨by omega, by norm_num, fun _ => ⟨by omega, by omega⟩⟩
    | a :: b :: r => rw [hp] at h2; simp at h2
  · obtain ⟨T, h1, hf, h3, h4, h5, h6⟩ := s.buildLen_tree h2
    have hex : ∀ i ∈ s.present, ∃ p ∈ T.leafDepths 0, s.buildLen i = p.2 := by
      intro i hi
      obtain ⟨j, hj, rfl⟩ := List.getElem_of_mem hi
      have : j ∈ T.leaves := h4.mem_iff.2 (List.mem_range.2 hj)
      rw [← T.leafDepths_fst 0, List.mem_map] at this
      obtain ⟨p, hp, rfl⟩ := this
      obtain ⟨h, he⟩ := h5 p hp
      exact ⟨p, hp, he⟩
    have hlen := h4.length_eq
    rw [List.length_range] at hlen
    refine ⟨?_, ?_, ?_⟩
    · intro i hi
      obtain ⟨p, hp, he⟩ := hex i hi
      have b1 := T.leafDepths_bounds 0 p hp
      have b2 := T.leafDepths_below (by omega) 0 p hp
      omega
    · rw [s.sum_leafDepths h4 h5 fun _ n => ((1 : ℚ) / 2) ^ n, T.kraft 0]
      norm_num
    · intro hlt
      obtain ⟨hfib, hcost⟩ := h6 hlt
      refine ⟨fun _ i hi => ?_, ?_⟩
      · obtain ⟨p, hp, he⟩ := hex i hi
        rw [he]; exact hfib p hp
      · rw [s.sum_leafDepths h4 h5 fun i n => (s.freqAt i).toNat * n]
        exact hcost

/-- LEN after a successful BUILD. -/
theorem State.lenAt_commitBuild (s : State) (i : Nat) (hi : i < 256) :
    ((s.commitBuild s.leaves (arenaOf s.leaves)).lenAt i).toNat = s.buildLen i := by
  have h : (s.commitBuild s.leaves (arenaOf s.leaves)).lenAt i = BitVec.ofNat 8 (s.buildLen i) := by
    simp [State.lenAt, State.commitBuild, lenTable, hi, State.buildLen]
  rw [h, BitVec.toNat_ofNat]
  by_cases hp : i ∈ s.present
  · have := s.buildLen_spec.1 i hp; omega
  · rw [s.buildLen_zero hp]

end Sys2Proof.Machine
end

