-- ==== Sys2Proof/Laws/Canon.lean ====
section
/-! SUPPORT. Laws of CANON: the canonical codes are prefix-free, and fit their lengths under the Kraft inequality. -/

namespace Sys2Proof.Machine

/-! ## The canonical recurrence -/

/-- The codes alone, in order. -/
def canonValues (l : List (Nat × Nat)) : List Nat := (canonCodes l).map Prod.snd

theorem canonNext_fst (n c : Nat) (l : List (Nat × Nat)) : (canonNext n c l).map Prod.fst = l.map Prod.snd := by
  induction l generalizing n c with
  | nil => rfl
  | cons p l ih => simp [canonNext, ih]

theorem canonCodes_fst (l : List (Nat × Nat)) : (canonCodes l).map Prod.fst = l.map Prod.snd := by
  cases l with
  | nil => rfl
  | cons p l => simp [canonCodes, canonNext_fst]

theorem canonNext_length (n c : Nat) (l : List (Nat × Nat)) : (canonNext n c l).length = l.length := by
  have := congrArg List.length (canonNext_fst n c l)
  simpa using this

theorem canonValues_length (l : List (Nat × Nat)) : (canonValues l).length = l.length := by
  have := congrArg List.length (canonCodes_fst l)
  simpa [canonValues] using this

/-- The running code before entry m of the rest, when the code before the rest is c of length n. -/
theorem canonNext_succ (n c : Nat) (l : List (Nat × Nat)) (m : Nat) (h : m < l.length) :
    ((canonNext n c l).map Prod.snd)[m]? =
      some (((((c :: (canonNext n c l).map Prod.snd))[m]?.getD 0) + 1) <<< (l[m].1 - (((n :: l.map Prod.fst))[m]?.getD 0))) := by
  induction l generalizing n c m with
  | nil => simp at h
  | cons p l ih =>
    obtain ⟨k, s⟩ := p
    cases m with
    | zero => simp [canonNext]
    | succ m =>
      simp only [canonNext, List.map_cons, List.getElem?_cons_succ, List.getElem_cons_succ]
      exact ih k ((c + 1) <<< (k - n)) m (by simpa using h)

/-- The first code is 0 (43_codegen.md R172). -/
theorem canonValues_zero (l : List (Nat × Nat)) (h : 0 < (canonValues l).length) : (canonValues l)[0] = 0 := by
  cases l with
  | nil => simp [canonValues, canonCodes] at h
  | cons p l => simp [canonValues, canonCodes]

/-- Each next code is the previous one plus 1, shifted by the growth in length (43_codegen.md R172). -/
theorem canonValues_succ (l : List (Nat × Nat)) (m : Nat) (h : m + 1 < (canonValues l).length) (h' : m + 1 < l.length) :
    (canonValues l)[m + 1] = ((canonValues l)[m] + 1) <<< (l[m + 1].1 - l[m].1) := by
  cases l with
  | nil => simp at h'
  | cons p l =>
    obtain ⟨n, s⟩ := p
    have hm : m < l.length := by simpa using h'
    have e := canonNext_succ n 0 l m hm
    have e1 : canonValues ((n, s) :: l) = 0 :: (canonNext n 0 l).map Prod.snd := rfl
    have hl : m < (0 :: (canonNext n 0 l).map Prod.snd).length := by simp [canonNext_length]; omega
    have e2 : ((n :: l.map Prod.fst)[m]?.getD 0) = ((n, s) :: l)[m].1 := by
      have : (n :: l.map Prod.fst) = ((n, s) :: l).map Prod.fst := rfl
      rw [this]
      have h3 : m < ((n, s) :: l).length := by simp; omega
      rw [List.getElem?_eq_getElem (by simpa using h3), Option.getD_some, List.getElem_map]
    rw [e2] at e
    simp only [e1, List.getElem_cons_succ]
    rw [List.getElem?_eq_getElem hl, Option.getD_some] at e
    have h4 : m < ((canonNext n 0 l).map Prod.snd).length := by simp [canonNext_length]; omega
    rw [List.getElem?_eq_getElem h4] at e
    exact Option.some.inj e

/-- Sorted by length: later lengths are not less. -/
def LenSorted (l : List (Nat × Nat)) : Prop := l.Pairwise fun a b => a.1 ≤ b.1

theorem LenSorted.le {l : List (Nat × Nat)} (h : LenSorted l) {i j : Nat} (hij : i ≤ j) (hj : j < l.length) :
    l[i].1 ≤ l[j].1 := by
  rcases Nat.lt_or_ge i j with h1 | h1
  · exact List.pairwise_iff_getElem.1 h i j (by omega) hj h1
  · obtain rfl : i = j := by omega
    exact le_rfl

/-- A later code, cut to an earlier code's length, lies above that code. -/
theorem canonValues_above {l : List (Nat × Nat)} (h : LenSorted l) {i j : Nat} (hij : i < j) (hj : j < l.length)
    (hi' : i < (canonValues l).length) (hj' : j < (canonValues l).length) :
    ((canonValues l)[i] + 1) * 2 ^ (l[j].1 - l[i].1) ≤ (canonValues l)[j] := by
  induction j, hij using Nat.le_induction with
  | base =>
    rw [canonValues_succ l i hj' hj, Nat.shiftLeft_eq]
  | succ j hij ih =>
    have h1 := ih (by omega) (by omega)
    rw [canonValues_succ l j hj' hj, Nat.shiftLeft_eq]
    have hle1 := h.le (i := i) (j := j) (by omega) (by omega)
    have hle2 := h.le (i := j) (j := j + 1) (by omega) hj
    rw [show l[j + 1].1 - l[i].1 = (l[j].1 - l[i].1) + (l[j + 1].1 - l[j].1) by omega, pow_add, ← mul_assoc]
    exact Nat.mul_le_mul_right _ (by omega)

/-- No canonical code begins another (43_codegen.md R174). -/
theorem canonValues_prefixFree {l : List (Nat × Nat)} (h : LenSorted l) {i j : Nat} (hij : i ≠ j) (hi : i < l.length)
    (hj : j < l.length) (hi' : i < (canonValues l).length) (hj' : j < (canonValues l).length) :
    codePrefix l[i].1 (canonValues l)[i] l[j].1 (canonValues l)[j] = false := by
  simp only [codePrefix, Bool.and_eq_false_iff, decide_eq_false_iff_not]
  rcases Nat.lt_or_ge i j with hlt | hge
  · right
    have := canonValues_above h hlt hj hi' hj'
    intro e
    rw [Nat.shiftRight_eq_div_pow] at e
    have h2 := (Nat.le_div_iff_mul_le (Nat.two_pow_pos (l[j].1 - l[i].1))).2 this
    omega
  · have hlt : j < i := by omega
    have hle := h.le (i := j) (j := i) (by omega) hi
    rcases Nat.lt_or_ge l[j].1 l[i].1 with h1 | h1
    · left; omega
    · right
      have := canonValues_above h hlt hi hj' hi'
      rw [show l[i].1 - l[j].1 = 0 by omega, pow_zero, Nat.mul_one] at this
      rw [show l[j].1 - l[i].1 = 0 by omega, Nat.shiftRight_zero]
      omega

/-- A canonical code over 2^length is the Kraft sum of the codes before it. -/
theorem canonValues_kraft {l : List (Nat × Nat)} (h : LenSorted l) (j : Nat) (hj : j < l.length)
    (hj' : j < (canonValues l).length) :
    ((canonValues l)[j] : ℚ) = 2 ^ l[j].1 * ((l.take j).map fun p => ((1 : ℚ) / 2) ^ p.1).sum := by
  induction j with
  | zero => rw [canonValues_zero]; simp
  | succ j ih =>
    have ih := ih (by omega) (by omega)
    rw [canonValues_succ l j hj' hj, Nat.shiftLeft_eq]
    have hle := h.le (i := j) (j := j + 1) (by omega) hj
    have h2 : ((1 : ℚ) / 2) ^ l[j].1 * 2 ^ l[j].1 = 1 := by rw [← mul_pow]; norm_num
    have h3 : (2 : ℚ) ^ l[j + 1].1 = 2 ^ l[j].1 * 2 ^ (l[j + 1].1 - l[j].1) := by rw [← pow_add]; congr 1; omega
    rw [List.take_succ_eq_append_getElem (by omega), List.map_append, List.sum_append]
    push_cast
    rw [ih, h3]
    simp only [List.map_cons, List.map_nil, List.sum_cons, List.sum_nil, add_zero]
    rw [mul_add]
    linear_combination (-(2 : ℚ) ^ (l[j + 1].1 - l[j].1)) * h2

/-- Under the Kraft inequality every canonical code fits its length (43_codegen.md R174). -/
theorem canonValues_lt {l : List (Nat × Nat)} (h : LenSorted l) (hk : (l.map fun p => ((1 : ℚ) / 2) ^ p.1).sum ≤ 1) (j : Nat)
    (hj : j < l.length) (hj' : j < (canonValues l).length) : (canonValues l)[j] < 2 ^ l[j].1 := by
  have e := canonValues_kraft h j hj hj'
  have hsum : ((l.take j).map fun p => ((1 : ℚ) / 2) ^ p.1).sum + (1 / 2) ^ l[j].1 ≤ 1 := by
    have hsplit : l = l.take (j + 1) ++ l.drop (j + 1) := (List.take_append_drop _ _).symm
    rw [hsplit, List.map_append, List.sum_append, List.take_succ_eq_append_getElem hj, List.map_append, List.sum_append] at hk
    have hpos : 0 ≤ ((l.drop (j + 1)).map fun p => ((1 : ℚ) / 2) ^ p.1).sum := by
      apply List.sum_nonneg
      intro x hx
      rw [List.mem_map] at hx
      obtain ⟨p, _, rfl⟩ := hx
      positivity
    simp only [List.map_cons, List.map_nil, List.sum_cons, List.sum_nil, add_zero] at hk
    linarith
  have h2 : (2 : ℚ) ^ l[j].1 * (1 / 2) ^ l[j].1 = 1 := by rw [← mul_pow]; norm_num
  have hp : (0 : ℚ) < 2 ^ l[j].1 := by positivity
  have : ((canonValues l)[j] : ℚ) < 2 ^ l[j].1 := by
    rw [e]
    nlinarith [mul_le_mul_of_nonneg_left hsum hp.le]
  exact_mod_cast this

/-- The code of a symbol that the order names once. -/
theorem codeOf_eq {l : List (Nat × Nat)} (hn : (l.map Prod.snd).Nodup) (j : Nat) (hj : j < l.length)
    (hj' : j < (canonValues l).length) : codeOf (canonCodes l) l[j].2 = (canonValues l)[j] := by
  have hlen : (canonCodes l).length = l.length := by simpa using congrArg List.length (canonCodes_fst l)
  have hfst : (canonCodes l)[j].1 = l[j].2 := by
    have := congrArg (fun x => x[j]?) (canonCodes_fst l)
    simp only [List.getElem?_map] at this
    rw [List.getElem?_eq_getElem (by omega), List.getElem?_eq_getElem hj] at this
    simpa using this
  unfold codeOf
  have hf : (canonCodes l).find? (fun p => p.1 == l[j].2) = some (canonCodes l)[j] := by
    rw [List.find?_eq_some_iff_getElem]
    refine ⟨by simp [hfst], j, by omega, rfl, ?_⟩
    intro i hi
    have hfi : (canonCodes l)[i].1 = l[i].2 := by
      have := congrArg (fun x => x[i]?) (canonCodes_fst l)
      simp only [List.getElem?_map] at this
      rw [List.getElem?_eq_getElem (by omega), List.getElem?_eq_getElem (by omega)] at this
      simpa using this
    rw [hfi]
    have := List.pairwise_iff_getElem.1 hn i j (by simp; omega) (by simpa using hj) hi
    simpa using this
  rw [hf]
  simp [canonValues]

theorem codeOf_eq_zero {l : List (Nat × Nat)} {i : Nat} (h : i ∉ l.map Prod.snd) : codeOf (canonCodes l) i = 0 := by
  unfold codeOf
  rw [List.find?_eq_none.2]
  intro p hp
  simp only [beq_iff_eq]
  intro e
  apply h
  rw [← canonCodes_fst]
  exact e ▸ List.mem_map_of_mem hp

/-! ## The order of CANON -/

theorem State.canonOrder_perm (s : State) : s.canonOrder.Perm (s.coded.map fun i => ((s.lenAt i).toNat, i)) :=
  List.perm_insertionSort _ _

theorem State.canonOrder_sorted (s : State) : s.canonOrder.Pairwise lenSymLe := by
  have ht : IsTrans (Nat × Nat) lenSymLe := ⟨fun a b c h1 h2 => by unfold lenSymLe at *; omega⟩
  have hto : Std.Total (α := Nat × Nat) lenSymLe := ⟨fun a b => by unfold lenSymLe; omega⟩
  exact List.pairwise_insertionSort _ _

theorem State.canonOrder_snd_perm (s : State) : (s.canonOrder.map Prod.snd).Perm s.coded := by
  have := s.canonOrder_perm.map Prod.snd
  simpa [List.map_map, Function.comp_def] using this

theorem State.canonOrder_nodup (s : State) : (s.canonOrder.map Prod.snd).Nodup :=
  s.canonOrder_snd_perm.nodup_iff.2 (s.coded_pairwise.imp fun h => Nat.ne_of_lt h)

theorem State.canonOrder_lenSorted (s : State) : LenSorted s.canonOrder :=
  s.canonOrder_sorted.imp fun h => by unfold lenSymLe at h; omega

theorem State.canonOrder_fst (s : State) (j : Nat) (hj : j < s.canonOrder.length) :
    s.canonOrder[j].1 = (s.lenAt s.canonOrder[j].2).toNat := by
  have := s.canonOrder_perm.mem_iff.1 (List.getElem_mem hj)
  rw [List.mem_map] at this
  obtain ⟨i, _, hi⟩ := this
  rw [← hi]

/-- The code that CANON computes for symbol i, before it is stored (43_codegen.md R172). -/
def State.canonCode (s : State) (i : Nat) : Nat := codeOf (canonCodes s.canonOrder) i

theorem State.exists_canonOrder (s : State) {i : Nat} (h : i ∈ s.coded) :
    ∃ (j : Nat) (hj : j < s.canonOrder.length), s.canonOrder[j].2 = i := by
  have := s.canonOrder_snd_perm.mem_iff.2 h
  obtain ⟨j, hj, hi⟩ := List.getElem_of_mem this
  exact ⟨j, by simpa using hj, by simpa using hi⟩

theorem State.canonCode_zero (s : State) {i : Nat} (h : i ∉ s.coded) : s.canonCode i = 0 :=
  codeOf_eq_zero fun hm => h (s.canonOrder_snd_perm.mem_iff.1 hm)

/-- The codes of CANON: prefix-free whatever the lengths, and fitting them under the Kraft inequality (43_codegen.md R174). -/
theorem State.canonCode_spec (s : State) :
    (∀ i ∈ s.coded, ∀ j ∈ s.coded, i ≠ j →
      codePrefix (s.lenAt i).toNat (s.canonCode i) (s.lenAt j).toNat (s.canonCode j) = false) ∧
    ((s.coded.map fun i => ((1 : ℚ) / 2) ^ (s.lenAt i).toNat).sum ≤ 1 →
      ∀ i ∈ s.coded, s.canonCode i < 2 ^ (s.lenAt i).toNat) := by
  have hl := canonValues_length s.canonOrder
  have key : ∀ (j : Nat) (hj : j < s.canonOrder.length),
      s.canonCode s.canonOrder[j].2 = (canonValues s.canonOrder)[j]'(by omega) :=
    fun j hj => codeOf_eq s.canonOrder_nodup j hj (by omega)
  constructor
  · intro a ha b hb hab
    obtain ⟨i, hi, rfl⟩ := s.exists_canonOrder ha
    obtain ⟨j, hj, rfl⟩ := s.exists_canonOrder hb
    rw [← s.canonOrder_fst i hi, ← s.canonOrder_fst j hj, key i hi, key j hj]
    refine canonValues_prefixFree s.canonOrder_lenSorted ?_ hi hj (by omega) (by omega)
    rintro rfl
    exact hab rfl
  · intro hk a ha
    obtain ⟨i, hi, rfl⟩ := s.exists_canonOrder ha
    rw [← s.canonOrder_fst i hi, key i hi]
    refine canonValues_lt s.canonOrder_lenSorted ?_ i hi (by omega)
    have := (s.canonOrder_perm.map fun p => ((1 : ℚ) / 2) ^ p.1).sum_eq
    rw [this, List.map_map]
    exact hk

end Sys2Proof.Machine
end

