-- ==== Sys2Proof/Laws/Decoding.lean ====
section
/-! SUPPORT. Laws of DECODE and LOADTAB: the loop on codewords, and the checks on a stored table. -/

namespace Sys2Proof.Machine

/-! ## The decode loop on codewords -/

/-- A table the decoder can read: lengths from 1, codes that fit, and no code the beginning of another. -/
structure TableOk (tab : List DEntry) : Prop where
  fit : ∀ e ∈ tab, 1 ≤ e.len.toNat ∧ e.code.toNat < 2 ^ e.len.toNat
  free : ∀ i (hi : i < tab.length) j (hj : j < tab.length), i ≠ j →
    codePrefix tab[i].len.toNat tab[i].code.toNat tab[j].len.toNat tab[j].code.toNat = false

/-- The code of an entry as bits. -/
def DEntry.bits (e : DEntry) : List Bool := codeBits e.len.toNat e.code.toNat

theorem shift_testBit (c m : Nat) : 2 * (c >>> (m + 1)) + (c.testBit m).toNat = c >>> m := by
  rw [Nat.shiftRight_succ, Nat.testBit, Nat.one_and_eq_mod_two]
  have : (c >>> m % 2 != 0).toNat = c >>> m % 2 := by
    rcases Nat.mod_two_eq_zero_or_one (c >>> m) with h | h <;> simp [h]
  rw [this]; omega

theorem TableOk.eq_of_prefix {tab : List DEntry} (h : TableOk tab) {e e' : DEntry} (he : e ∈ tab) (he' : e' ∈ tab)
    (hp : codePrefix e.len.toNat e.code.toNat e'.len.toNat e'.code.toNat = true) : e = e' := by
  obtain ⟨i, hi, rfl⟩ := List.getElem_of_mem he
  obtain ⟨j, hj, rfl⟩ := List.getElem_of_mem he'
  by_cases hij : i = j
  · subst hij; rfl
  · rw [h.free i hi j hj hij] at hp; simp at hp

theorem leafAt_spec {tab : List DEntry} {l acc : Nat} {e : DEntry} (h : leafAt tab l acc = some e) :
    e ∈ tab ∧ e.len.toNat = l ∧ e.code.toNat = acc := by
  unfold leafAt at h
  have h1 := List.mem_of_find?_eq_some h
  have h2 := List.find?_some h
  simp only [Bool.and_eq_true, beq_iff_eq] at h2
  exact ⟨h1, h2.1, h2.2⟩

/-- Reading one bit of an entry's code, not its last, goes on in that code (46_decoder.md R222). -/
theorem decodeLoop_step {tab : List DEntry} (h : TableOk tab) {e : DEntry} (he : e ∈ tab) (rest : List Bool) (left q m : Nat)
    (hm : m + 1 < e.len.toNat) :
    decodeLoop tab (e.code.toNat.testBit (m + 1) :: rest) (left + 1) q (e.len.toNat - (m + 1 + 1)) (e.code.toNat >>> (m + 1 + 1)) =
      decodeLoop tab rest (left + 1) (q + 1) (e.len.toNat - (m + 1)) (e.code.toNat >>> (m + 1)) := by
  rw [decodeLoop, show e.len.toNat - (m + 1 + 1) + 1 = e.len.toNat - (m + 1) by omega, shift_testBit]
  have hl : leafAt tab (e.len.toNat - (m + 1)) (e.code.toNat >>> (m + 1)) = none := by
    cases hf : leafAt tab (e.len.toNat - (m + 1)) (e.code.toNat >>> (m + 1)) with
    | none => rfl
    | some e' =>
      obtain ⟨h1, h2, h3⟩ := leafAt_spec hf
      have := h.eq_of_prefix h1 he (by
        rw [codePrefix, h2, h3, show e.len.toNat - (e.len.toNat - (m + 1)) = m + 1 by omega]
        simp)
      rw [this] at h2
      omega
  have hp : hasPath tab (e.len.toNat - (m + 1)) (e.code.toNat >>> (m + 1)) = true := by
    unfold hasPath
    rw [List.any_eq_true]
    refine ⟨e, he, ?_⟩
    rw [show e.len.toNat - (e.len.toNat - (m + 1)) = m + 1 by omega]
    simp; omega
  rw [hl]
  simp only [hp, if_true]

/-- Bit k of an entry's code, counted from the first. -/
theorem DEntry.bits_getElem (e : DEntry) (k : Nat) (hk : k < e.bits.length) :
    e.bits[k] = e.code.toNat.testBit (e.len.toNat - 1 - k) := by
  simp [DEntry.bits, codeBits]

/-- Reading the rest of an entry's code emits its symbol and starts the next code (46_decoder.md R222). -/
theorem decodeLoop_code {tab : List DEntry} (h : TableOk tab) {e : DEntry} (he : e ∈ tab) (rest : List Bool) (left : Nat) :
    ∀ (m q : Nat), m < e.len.toNat →
      decodeLoop tab ((e.bits.drop (e.len.toNat - (m + 1))) ++ rest) (left + 1) q (e.len.toNat - (m + 1))
        (e.code.toNat >>> (m + 1)) = (decodeLoop tab rest left (q + (m + 1)) 0 0).push e.sym := by
  intro m
  induction m with
  | zero =>
    intro q hm
    have hb : e.bits.drop (e.len.toNat - 1) = [e.code.toNat.testBit 0] := by
      simp only [DEntry.bits, codeBits, ← List.map_drop]
      rw [List.range_eq_range', List.drop_range', show e.len.toNat - (e.len.toNat - 1) = 1 by omega]
      simp
    rw [Nat.zero_add, hb, List.singleton_append, decodeLoop, show e.len.toNat - 1 + 1 = e.len.toNat by omega,
      shift_testBit e.code.toNat 0, Nat.shiftRight_zero]
    have hl : leafAt tab e.len.toNat e.code.toNat = some e := by
      cases hf : leafAt tab e.len.toNat e.code.toNat with
      | none =>
        unfold leafAt at hf
        rw [List.find?_eq_none] at hf
        exact absurd (by simp) (hf e he)
      | some e' =>
        obtain ⟨h1, h2, h3⟩ := leafAt_spec hf
        rw [h.eq_of_prefix h1 he (by simp [codePrefix, h2, h3])]
    rw [hl]
  | succ m ih =>
    intro q hm
    have hb : e.bits.drop (e.len.toNat - (m + 1 + 1)) =
        e.code.toNat.testBit (m + 1) :: e.bits.drop (e.len.toNat - (m + 1)) := by
      rw [List.drop_eq_getElem_cons (by simp [DEntry.bits]; omega), DEntry.bits_getElem]
      congr 2
      · omega
      · omega
    rw [hb, List.cons_append, decodeLoop_step h he _ _ _ _ hm, ih (q + 1) (by omega),
      show q + 1 + (m + 1) = q + (m + 1 + 1) by omega]

/-- Reading a proper beginning of an entry's code leaves the loop inside that code (46_decoder.md R222). -/
theorem decodeLoop_beginning {tab : List DEntry} (h : TableOk tab) {e : DEntry} (he : e ∈ tab) (left q k : Nat)
    (hk : k < e.len.toNat) (rest : List Bool) :
    decodeLoop tab (e.bits.take k ++ rest) (left + 1) q 0 0 =
      decodeLoop tab rest (left + 1) (q + k) k (e.code.toNat >>> (e.len.toNat - k)) := by
  induction k generalizing rest with
  | zero => simp [Nat.shiftRight_eq_zero _ _ (h.fit e he).2]
  | succ k ih =>
    have hlen : k < e.bits.length := by simp [DEntry.bits]; omega
    rw [← List.take_append_getElem hlen, List.append_assoc, List.singleton_append, ih (by omega), DEntry.bits_getElem]
    have := decodeLoop_step h he rest left (q + k) (e.len.toNat - 1 - k - 1) (by omega)
    rw [show e.len.toNat - 1 - k - 1 + 1 + 1 = e.len.toNat - k by omega,
      show e.len.toNat - 1 - k - 1 + 1 = e.len.toNat - 1 - k by omega, show e.len.toNat - (e.len.toNat - k) = k by omega,
      show e.len.toNat - (e.len.toNat - 1 - k) = k + 1 by omega] at this
    rw [this, show e.len.toNat - (k + 1) = e.len.toNat - 1 - k by omega, Nat.add_assoc]

/-- The end of the loop with the symbols of a list of entries emitted before it. -/
def Decoded.after (es : List DEntry) (d : Decoded) : Decoded := { d with out := es.map DEntry.sym ++ d.out }

/-- Reading the codes of a list of entries emits their symbols in order, whatever follows (46_decoder.md R222). -/
theorem decodeLoop_codes_append {tab : List DEntry} (h : TableOk tab) (es : List DEntry) (hes : ∀ e ∈ es, e ∈ tab)
    (rest : List Bool) (left q : Nat) :
    decodeLoop tab (es.flatMap DEntry.bits ++ rest) (es.length + left) q 0 0 =
      (decodeLoop tab rest left (q + (es.flatMap DEntry.bits).length) 0 0).after es := by
  induction es generalizing q with
  | nil => simp [Decoded.after]
  | cons e es ih =>
    have he := hes e (by simp)
    have hpos := (h.fit e he).1
    have hc := decodeLoop_code h he (es.flatMap DEntry.bits ++ rest) (es.length + left) (e.len.toNat - 1) q (by omega)
    rw [show e.len.toNat - 1 + 1 = e.len.toNat by omega, Nat.sub_self, List.drop_zero,
      Nat.shiftRight_eq_zero _ _ (h.fit e he).2, ih (fun x hx => hes x (by simp [hx]))] at hc
    rw [List.flatMap_cons, List.append_assoc, List.length_cons, show es.length + 1 + left = es.length + left + 1 by omega, hc]
    simp [Decoded.push, Decoded.after, DEntry.bits, Nat.add_assoc]

/-- Reading the codes of a list of entries emits their symbols in order (46_decoder.md R222). -/
theorem decodeLoop_codes {tab : List DEntry} (h : TableOk tab) (es : List DEntry) (hes : ∀ e ∈ es, e ∈ tab) (rest : List Bool)
    (q : Nat) :
    decodeLoop tab (es.flatMap DEntry.bits ++ rest) es.length q 0 0 =
      { how := .complete, out := es.map DEntry.sym, bits := q + (es.flatMap DEntry.bits).length } := by
  have := decodeLoop_codes_append h es hes rest 0 q
  rw [Nat.add_zero] at this
  rw [this]
  cases rest <;> simp [decodeLoop, Decoded.after]

/-- The bits of a code one bit longer. -/
theorem codeBits_snoc (l acc : Nat) (v : Bool) : codeBits (l + 1) (2 * acc + v.toNat) = codeBits l acc ++ [v] := by
  simp only [codeBits, List.range_succ, List.map_append, List.map_cons, List.map_nil]
  congr 1
  · apply List.map_congr_left
    intro k hk
    rw [List.mem_range] at hk
    rw [show l + 1 - 1 - k = (l - 1 - k) + 1 by omega, Nat.testBit_succ]
    congr 1
    cases v <;> simp; omega
  · cases v <;> simp [Nat.testBit_zero]

/-- A bit path that begins no entry's code ends in no leaf and has no longer code behind it (46_decoder.md R222). -/
theorem leafAt_hasPath_none {tab : List DEntry} {l acc : Nat} (hn : ∀ e ∈ tab, ¬ codeBits l acc <+: e.bits) :
    leafAt tab l acc = none ∧ hasPath tab l acc = false := by
  constructor
  · cases h : leafAt tab l acc with
    | none => rfl
    | some e =>
      obtain ⟨h1, h2, h3⟩ := leafAt_spec h
      exact absurd (by rw [DEntry.bits, h2, h3]) (hn e h1)
  · by_contra hc
    rw [Bool.not_eq_false, hasPath, List.any_eq_true] at hc
    obtain ⟨e, he, h2⟩ := hc
    simp only [Bool.and_eq_true, decide_eq_true_eq, beq_iff_eq] at h2
    refine hn e he (List.prefix_iff_eq_take.2 (List.ext_getElem ?_ ?_))
    · simp [DEntry.bits, codeBits]; omega
    · intro i h3 h4
      simp only [codeBits, List.length_map, List.length_range] at h3
      simp only [codeBits, DEntry.bits, List.getElem_map, List.getElem_range, List.getElem_take]
      rw [← h2.2, Nat.testBit_shiftRight]
      congr 1; omega

/-- Between two codewords, or inside one: after the bits `part` of a proper beginning of a code the loop's partial code is these bits
(46_decoder.md R222). -/
theorem decodeLoop_inside {tab : List DEntry} (h : TableOk tab) {part : List Bool}
    (hp : part = [] ∨ ∃ e ∈ tab, part <+: e.bits ∧ part.length < e.len.toNat) :
    ∃ acc, codeBits part.length acc = part ∧ ∀ rest left q,
      decodeLoop tab (part ++ rest) (left + 1) q 0 0 = decodeLoop tab rest (left + 1) (q + part.length) part.length acc := by
  rcases hp with rfl | ⟨e, he, h1, h2⟩
  · exact ⟨0, by simp [codeBits], by simp⟩
  · have ht := List.prefix_iff_eq_take.1 h1
    refine ⟨e.code.toNat >>> (e.len.toNat - part.length), ?_, ?_⟩
    · conv_rhs => rw [ht]
      apply List.ext_getElem
      · simp [DEntry.bits, codeBits]; omega
      · intro i h3 h4
        simp [codeBits, DEntry.bits] at h3 ⊢
        congr 1; omega
    · intro rest left q
      have := decodeLoop_beginning h he left q part.length h2 rest
      rwa [← ht] at this

/-- A bit with which no code begins ends the loop there, and is counted (46_decoder.md R222, R226). -/
theorem decodeLoop_noLeaf {tab : List DEntry} {part : List Bool} {acc : Nat} (hc : codeBits part.length acc = part) {v : Bool}
    (hn : ∀ e ∈ tab, ¬ part ++ [v] <+: e.bits) (rest : List Bool) (left q : Nat) :
    decodeLoop tab (v :: rest) (left + 1) q part.length acc = { how := .noLeaf, out := [], bits := q + 1 } := by
  have h := leafAt_hasPath_none (tab := tab) (l := part.length + 1) (acc := 2 * acc + v.toNat)
    (by rw [codeBits_snoc, hc]; exact hn)
  rw [decodeLoop, h.1, h.2]; rfl

/-- What the decode loop emitted, however it ended: the symbols of live entries whose codes, in order, begin the bits it was
given (46_decoder.md R222, R226). -/
theorem decodeLoop_emits (tab : List DEntry) (bits : List Bool) (left q l acc : Nat) :
    ∃ es : List DEntry, (∀ e ∈ es, e ∈ tab) ∧ (decodeLoop tab bits left q l acc).out = es.map DEntry.sym ∧
      es.flatMap DEntry.bits <+: codeBits l acc ++ bits := by
  induction bits generalizing left q l acc with
  | nil => cases left <;> exact ⟨[], by simp, by simp [decodeLoop], by simp⟩
  | cons v rest ih =>
    cases left with
    | zero => exact ⟨[], by simp, by simp [decodeLoop], by simp⟩
    | succ left =>
      simp only [decodeLoop]
      split
      · rename_i e he
        obtain ⟨h1, h2, h3⟩ := leafAt_spec he
        obtain ⟨es, he1, he2, he3⟩ := ih left (q + 1) 0 0
        refine ⟨e :: es, by simpa using ⟨h1, he1⟩, by simp [Decoded.push, he2], ?_⟩
        rw [List.flatMap_cons, DEntry.bits, h2, h3, codeBits_snoc, ← List.singleton_append (x := v) (l := rest),
          ← List.append_assoc]
        exact List.prefix_append_right_inj _ |>.2 (by simpa [codeBits] using he3)
      · split
        · obtain ⟨es, he1, he2, he3⟩ := ih (left + 1) (q + 1) (l + 1) (2 * acc + v.toNat)
          exact ⟨es, he1, he2, by simpa [codeBits_snoc] using he3⟩
        · exact ⟨[], by simp, by simp, by simp⟩

/-! ## The checks of LOADTAB -/

/-- An entry that passes the checks of its own fields (46_decoder.md R214). -/
def TabEntry.Ok (e : TabEntry) : Prop := 1 ≤ e.len ∧ e.len ≤ lMax ∧ e.code < 2 ^ e.len

theorem entryError_none {j : Nat} {last : Option Nat} {e : TabEntry} :
    entryError j last e = none ↔ e.Ok ∧ ∀ p, last = some p → p < e.sym := by
  unfold entryError TabEntry.Ok
  split
  · simp only [reduceCtorEq, false_iff]; omega
  · split
    · simp only [reduceCtorEq, false_iff]; omega
    · cases last with
      | none => simp; omega
      | some p =>
        simp only [Option.some.injEq, forall_eq']
        split
        · simp only [reduceCtorEq, false_iff]; omega
        · simp only [true_iff]; omega

/-- The symbol of the last entry, or the one before the list. -/
def lastSym (last : Option Nat) (es : List TabEntry) : Option Nat := (es.getLast?.map TabEntry.sym).or last

theorem entriesError_append (j : Nat) (last : Option Nat) (xs ys : List TabEntry) (h : entriesError j last xs = none) :
    entriesError j last (xs ++ ys) = entriesError (j + xs.length) (lastSym last xs) ys := by
  induction xs generalizing j last with
  | nil => simp [lastSym]
  | cons x xs ih =>
    simp only [entriesError] at h
    split at h
    · simp at h
    · rename_i he
      rw [List.cons_append]
      simp only [entriesError, he]
      rw [ih _ _ h, List.length_cons, show j + 1 + xs.length = j + (xs.length + 1) by omega]
      congr 1
      cases xs with
      | nil => simp [lastSym]
      | cons y ys => simp [lastSym, List.getLast?_cons]

/-- No entry fails: each is right in itself and the symbols ascend. -/
theorem entriesError_none {j : Nat} {last : Option Nat} {es : List TabEntry} :
    entriesError j last es = none ↔
      (∀ e ∈ es, e.Ok) ∧ (∀ i (h : i + 1 < es.length), es[i].sym < es[i + 1].sym) ∧
        ∀ p, last = some p → ∀ h : 0 < es.length, p < es[0].sym := by
  induction es generalizing j last with
  | nil => simp [entriesError]
  | cons e es ih =>
    simp only [entriesError]
    cases he : entryError j last e with
    | some r =>
      simp only [reduceCtorEq, false_iff]
      rintro ⟨h1, _, h3⟩
      have : entryError j last e = none := entryError_none.2 ⟨h1 e (by simp), fun p hp => h3 p hp (by simp)⟩
      rw [he] at this; simp at this
    | none =>
      obtain ⟨hok, hlast⟩ := entryError_none.1 he
      rw [ih]
      constructor
      · rintro ⟨h1, h2, h3⟩
        refine ⟨by simpa using ⟨hok, h1⟩, ?_, fun p hp _ => hlast p hp⟩
        intro i hi
        cases i with
        | zero => exact h3 e.sym rfl (by simpa using hi)
        | succ i => exact h2 i (by simpa using hi)
      · rintro ⟨h1, h2, h3⟩
        refine ⟨fun x hx => h1 x (by simp [hx]), fun i hi => h2 (i + 1) (by simpa using hi), ?_⟩
        intro p hp h0
        cases hp
        exact h2 0 (by simpa using h0)

/-- Pair (j, k) of entries with entry j the beginning of entry k. -/
def IsPair (es : List TabEntry) (j k : Nat) : Prop :=
  ∃ (hj : j < es.length) (hk : k < es.length), k ≠ j ∧ codePrefix es[j].len es[j].code es[k].len es[k].code = true

theorem zipIdx_findSome_none {α β : Type} (l : List α) (f : α × Nat → Option β) :
    l.zipIdx.findSome? f = none ↔ ∀ i (h : i < l.length), f (l[i], i) = none := by
  rw [List.findSome?_eq_none_iff]
  constructor
  · intro h i hi
    exact h _ (List.mem_zipIdx_iff_getElem?.2 (by simp [hi]))
  · intro h p hp
    rw [List.mem_zipIdx_iff_getElem?] at hp
    obtain ⟨h1, h2⟩ := List.getElem?_eq_some_iff.1 hp
    have := h p.2 h1
    rw [h2] at this
    exact this

theorem zipIdx_findSome_first {α β : Type} (l : List α) (f : α × Nat → Option β) (i : Nat) (hi : i < l.length) (b : β)
    (hb : f (l[i], i) = some b) (hfirst : ∀ k (h : k < i), f (l[k], k) = none) : l.zipIdx.findSome? f = some b := by
  have hsplit : l.zipIdx = l.zipIdx.take i ++ l.zipIdx.drop i := (List.take_append_drop _ _).symm
  rw [hsplit, List.findSome?_append]
  have h1 : (l.zipIdx.take i).findSome? f = none := by
    rw [List.findSome?_eq_none_iff]
    intro p hp
    obtain ⟨k, hk, rfl⟩ := List.getElem_of_mem hp
    simp only [List.length_take, List.length_zipIdx] at hk
    simp only [List.getElem_take, List.getElem_zipIdx, Nat.zero_add]
    exact hfirst k (by omega)
  have h2 : (l.zipIdx.drop i).findSome? f = some b := by
    rw [List.drop_eq_getElem_cons (by simpa using hi)]
    simp [hb]
  rw [h1, h2]; rfl

theorem prefixPair_none {es : List TabEntry} : prefixPair es = none ↔ ∀ j k, ¬ IsPair es j k := by
  unfold prefixPair
  rw [zipIdx_findSome_none]
  constructor
  · rintro h j k ⟨hj, hk, hne, hp⟩
    have := (zipIdx_findSome_none es _).1 (h j hj) k hk
    simp [hne, hp] at this
  · intro h j hj
    rw [zipIdx_findSome_none]
    intro k hk
    rw [if_neg]
    rintro ⟨hne, hp⟩
    exact h j k ⟨hj, hk, hne, hp⟩

/-- The first pair, j outer and k inner (46_decoder.md R215). -/
theorem prefixPair_first {es : List TabEntry} {j k : Nat} (h : IsPair es j k) (hj : ∀ a b, a < j → ¬ IsPair es a b)
    (hk : ∀ b, b < k → ¬ IsPair es j b) : prefixPair es = some (j, k) := by
  obtain ⟨hjl, hkl, hne, hp⟩ := h
  unfold prefixPair
  refine zipIdx_findSome_first es _ j hjl _ ?_ ?_
  · refine zipIdx_findSome_first es _ k hkl _ (by simp [hne, hp]) ?_
    intro b hb
    rw [if_neg]
    rintro ⟨h1, h2⟩
    exact hk b hb ⟨hjl, by omega, h1, h2⟩
  · intro a ha
    rw [zipIdx_findSome_none]
    intro b hb
    rw [if_neg]
    rintro ⟨h1, h2⟩
    exact hj a b ha ⟨by omega, hb, h1, h2⟩

@[simp] theorem State.tabEntries_length (s : State) : s.tabEntries.length = s.headerCount := by simp [State.tabEntries]

@[simp] theorem State.tabEntries_getElem (s : State) (j : Nat) (h : j < s.tabEntries.length) : s.tabEntries[j] = s.tabEntry j := by
  simp [State.tabEntries]

/-- LOADTAB accepts exactly the artifacts that pass every check (46_decoder.md R211 to R215). -/
theorem State.loadtabError_none (s : State) : s.loadtabError = none ↔ s.StoredTableOk := by
  have e1 : s.artifactLen = s.artLen.toNat := rfl
  have e2 : s.headerCount = s.memRead .abuf 4 2 := rfl
  unfold State.loadtabError State.StoredTableOk
  split
  · simp only [reduceCtorEq, false_iff]; omega
  split
  · simp only [reduceCtorEq, false_iff]; omega
  split
  · simp only [reduceCtorEq, false_iff]; omega
  split
  · simp only [reduceCtorEq, false_iff]; omega
  have hlen : s.tabEntries.length = s.memRead .abuf 4 2 := s.tabEntries_length
  cases he : entriesError 0 none s.tabEntries with
  | some r =>
    simp only [reduceCtorEq, false_iff]
    rintro ⟨_, _, _, _, h1, h2, _⟩
    have : entriesError 0 none s.tabEntries = none := by
      rw [entriesError_none]
      refine ⟨?_, ?_, by simp⟩
      · intro e hm
        obtain ⟨i, hi, rfl⟩ := List.getElem_of_mem hm
        rw [State.tabEntries_getElem]
        exact h1 i (by omega)
      · intro i hi
        simp only [State.tabEntries_getElem]
        exact h2 i (by omega)
    rw [he] at this; simp at this
  | none =>
    obtain ⟨h1, h2, _⟩ := entriesError_none.1 he
    have h1' : ∀ j < s.memRead .abuf 4 2, (s.tabEntry j).Ok := by
      intro j hj
      have := h1 _ (List.getElem_mem (show j < s.tabEntries.length by omega))
      rwa [State.tabEntries_getElem] at this
    have h2' : ∀ j, j + 1 < s.memRead .abuf 4 2 → (s.tabEntry j).sym < (s.tabEntry (j + 1)).sym := by
      intro j hj
      have := h2 j (by omega)
      simpa only [State.tabEntries_getElem] using this
    cases hp : prefixPair s.tabEntries with
    | some p =>
      simp only [reduceCtorEq, false_iff]
      rintro ⟨_, _, _, _, _, _, h3⟩
      have : prefixPair s.tabEntries = none := by
        rw [prefixPair_none]
        rintro j k ⟨hj, hk, hne, hpr⟩
        simp only [State.tabEntries_getElem] at hpr
        rw [h3 j (by omega) k (by omega) (Ne.symm hne)] at hpr
        simp at hpr
      rw [hp] at this; simp at this
    | none =>
      simp only [true_iff]
      rw [prefixPair_none] at hp
      refine ⟨by omega, by omega, by omega, by omega, h1', h2', ?_⟩
      intro j hj k hk hne
      by_contra hc
      rw [Bool.not_eq_false] at hc
      exact hp j k ⟨by omega, by omega, Ne.symm hne, by simpa only [State.tabEntries_getElem] using hc⟩

/-! ## The entries of a stored artifact -/

theorem State.memRead_lt (s : State) (b : Buf) (a n : Nat) : s.memRead b a n < 256 ^ n := by
  have := beNat_lt (s.bytesAt b a n)
  rwa [State.bytesAt_length] at this

/-- The decode table that LOADTAB commits holds the stored entries (46_decoder.md R216). -/
theorem State.dtabTable_entry (s : State) (h : s.headerCount ≤ 256) (j : Nat) (hj : j < s.headerCount) :
    (dtabTable s.tabEntries)[j]?.getD DEntry.zero = (s.tabEntry j).toDEntry := by
  have h1 : j < 256 := by omega
  have h2 : j < s.tabEntries.length := by simpa using hj
  simp [dtabTable, h1, hj]

theorem TabEntry.toDEntry_len (s : State) (j : Nat) : ((s.tabEntry j).toDEntry).len.toNat = (s.tabEntry j).len := by
  have := s.memRead_lt .abuf (6 + 6 * j + 1) 1
  simp only [TabEntry.toDEntry, State.tabEntry, BitVec.toNat_ofNat]
  omega

theorem TabEntry.toDEntry_sym (s : State) (j : Nat) : ((s.tabEntry j).toDEntry).sym.toNat = (s.tabEntry j).sym := by
  have := s.memRead_lt .abuf (6 + 6 * j) 1
  simp only [TabEntry.toDEntry, State.tabEntry, BitVec.toNat_ofNat]
  omega

theorem TabEntry.toDEntry_code (s : State) (j : Nat) : ((s.tabEntry j).toDEntry).code.toNat = (s.tabEntry j).code := by
  have := s.memRead_lt .abuf (6 + 6 * j + 2) 4
  simp only [TabEntry.toDEntry, State.tabEntry, BitVec.toNat_ofNat]
  omega

end Sys2Proof.Machine
end

