-- ==== Sys2Proof/Laws/Encoding.lean ====
section
/-! SUPPORT. Laws of ENCODE: the fields of the artifact it writes. -/

namespace Sys2Proof.Machine

/-! ## The layout of the artifact -/

theorem State.payloadBits_length (s : State) : s.payloadBits.length = s.payloadSize := by
  simp [State.payloadBits, State.payloadSize, List.length_flatMap]

@[simp] theorem State.entryBytes_length (s : State) (i : Nat) : (s.entryBytes i).length = 6 := by simp [State.entryBytes]

theorem State.flatMap_entryBytes_length (s : State) (l : List Nat) : (l.flatMap s.entryBytes).length = 6 * l.length := by
  induction l with
  | nil => rfl
  | cons a l ih => rw [List.flatMap_cons, List.length_append, ih, State.entryBytes_length, List.length_cons]; omega

/-- The artifact is T bytes long (30_encoding.md R107). -/
theorem State.artifact_length (s : State) : s.artifact.length = s.artifactSize := by
  simp only [State.artifact, State.artifactSize, List.length_append, beBytes_length, State.flatMap_entryBytes_length,
    packBits_length, State.payloadBits_length]

/-- A field of a buffer that was just written. -/
theorem State.memRead_putBytes (s : State) (b : Buf) (xs ys zs : List Byte) (bs : List Byte) (a n : Nat)
    (h : bs = xs ++ ys ++ zs) (ha : a = xs.length) (hn : n = ys.length) : (s.putBytes b 0 bs).memRead b a n = beNat ys := by
  subst h ha hn
  rw [State.memRead, State.bytesAt_putBytes]

/-- The header field original_length (30_encoding.md R102). -/
theorem State.artifact_headerLen (s : State) (u : State) (h : s.inputLen < 2 ^ 32) :
    (u.putBytes .abuf 0 s.artifact).memRead .abuf 0 4 = s.inputLen := by
  rw [u.memRead_putBytes .abuf [] (beBytes 4 s.inputLen)
    (beBytes 2 s.coded.length ++ s.coded.flatMap s.entryBytes ++ packBits s.payloadBits) _ 0 4 (by simp [State.artifact])
    rfl (by simp), beNat_beBytes]
  exact Nat.mod_eq_of_lt h

/-- The header field distinct_symbol_count (30_encoding.md R103). -/
theorem State.artifact_headerCount (s : State) (u : State) :
    (u.putBytes .abuf 0 s.artifact).memRead .abuf 4 2 = s.coded.length := by
  rw [u.memRead_putBytes .abuf (beBytes 4 s.inputLen) (beBytes 2 s.coded.length)
    (s.coded.flatMap s.entryBytes ++ packBits s.payloadBits) _ 4 2 (by simp [State.artifact]) (by simp) (by simp),
    beNat_beBytes]
  exact Nat.mod_eq_of_lt (by have := s.coded_length_le; omega)

/-- The entries of the artifact's table (30_encoding.md R104, R105). -/
theorem State.artifact_tabEntry (s : State) (u : State) (j : Nat) (hj : j < s.coded.length) :
    (u.putBytes .abuf 0 s.artifact).tabEntry j =
      { sym := s.coded[j], len := (s.lenAt s.coded[j]).toNat, code := (s.codeAt s.coded[j]).toNat } := by
  have hsplit : s.coded = s.coded.take j ++ s.coded[j] :: s.coded.drop (j + 1) := by
    rw [← List.drop_eq_getElem_cons hj, List.take_append_drop]
  have hart : s.artifact = (beBytes 4 s.inputLen ++ beBytes 2 s.coded.length ++ (s.coded.take j).flatMap s.entryBytes) ++
      s.entryBytes s.coded[j] ++ ((s.coded.drop (j + 1)).flatMap s.entryBytes ++ packBits s.payloadBits) := by
    have : s.coded.flatMap s.entryBytes = (s.coded.take j).flatMap s.entryBytes ++ (s.entryBytes s.coded[j] ++
        (s.coded.drop (j + 1)).flatMap s.entryBytes) := by
      rw [← List.flatMap_cons, ← List.flatMap_append, ← hsplit]
    simp only [State.artifact, this, List.append_assoc]
  have hpre : (beBytes 4 s.inputLen ++ beBytes 2 s.coded.length ++ (s.coded.take j).flatMap s.entryBytes).length = 6 + 6 * j := by
    simp only [List.length_append, beBytes_length, State.flatMap_entryBytes_length, List.length_take]
    omega
  have hsym := (s.mem_coded s.coded[j]).1 (List.getElem_mem hj)
  generalize beBytes 4 s.inputLen ++ beBytes 2 s.coded.length ++ (s.coded.take j).flatMap s.entryBytes = pre at hart hpre
  generalize (s.coded.drop (j + 1)).flatMap s.entryBytes ++ packBits s.payloadBits = post at hart
  unfold State.tabEntry
  rw [u.memRead_putBytes .abuf pre (beBytes 1 s.coded[j])
      (beBytes 1 (s.lenAt s.coded[j]).toNat ++ beBytes 4 (s.codeAt s.coded[j]).toNat ++ post) _ _ _
      (by rw [hart, State.entryBytes]; simp) hpre.symm (by simp),
    u.memRead_putBytes .abuf (pre ++ beBytes 1 s.coded[j]) (beBytes 1 (s.lenAt s.coded[j]).toNat)
      (beBytes 4 (s.codeAt s.coded[j]).toNat ++ post) _ _ _
      (by rw [hart, State.entryBytes]; simp) (by simp [hpre]) (by simp),
    u.memRead_putBytes .abuf (pre ++ beBytes 1 s.coded[j] ++ beBytes 1 (s.lenAt s.coded[j]).toNat)
      (beBytes 4 (s.codeAt s.coded[j]).toNat) post _ _ _
      (by rw [hart, State.entryBytes]; simp) (by simp [hpre]) (by simp),
    beNat_beBytes, beNat_beBytes, beNat_beBytes, Nat.mod_eq_of_lt (by omega),
    Nat.mod_eq_of_lt (by have := (s.lenAt s.coded[j]).isLt; omega), Nat.mod_eq_of_lt (by have := (s.codeAt s.coded[j]).isLt; omega)]

/-- The payload of the artifact (30_encoding.md R107, R108). -/
theorem State.artifact_payload (s : State) (u : State) :
    (u.putBytes .abuf 0 s.artifact).bytesAt .abuf (6 + 6 * s.coded.length) (ceil8 s.payloadSize) = packBits s.payloadBits := by
  have h1 : (beBytes 4 s.inputLen ++ beBytes 2 s.coded.length ++ s.coded.flatMap s.entryBytes).length = 6 + 6 * s.coded.length := by
    simp only [List.length_append, beBytes_length, State.flatMap_entryBytes_length]
  have h2 : (packBits s.payloadBits).length = ceil8 s.payloadSize := by rw [packBits_length, State.payloadBits_length]
  have := u.bytesAt_putBytes .abuf (beBytes 4 s.inputLen ++ beBytes 2 s.coded.length ++ s.coded.flatMap s.entryBytes)
    (packBits s.payloadBits) []
  rw [h1, h2, List.append_nil] at this
  exact this

end Sys2Proof.Machine
end

