-- ==== Sys2Proof/Laws/RoundTrip.lean ====
section
/-! SUPPORT. Laws of COMPRESS and DECOMPRESS together: the code table of a pipeline, its artifact, and what DECOMPRESS reads from it. -/

namespace Sys2Proof.Machine

/-! ## Live entries of the decode table -/

theorem State.liveEntries_length (s : State) (h : s.dtabN.toNat ≤ 256) : s.liveEntries.length = s.dtabN.toNat := by
  simp [State.liveEntries]; omega

theorem State.liveEntries_getElem (s : State) (h : s.dtabN.toNat ≤ 256) (j : Nat) (hj : j < s.liveEntries.length) :
    s.liveEntries[j] = s.dtabAt j := by
  have h1 := s.liveEntries_length h
  have h2 : j < 256 := by omega
  simp [State.liveEntries, State.dtabAt, h2]

/-- A decode table whose live entries fit and are prefix-free is one the decoder can read. -/
theorem State.tableOk_liveEntries (s : State) (h : s.dtabN.toNat ≤ 256)
    (hfit : ∀ j < s.dtabN.toNat, 1 ≤ (s.dtabAt j).len.toNat ∧ (s.dtabAt j).code.toNat < 2 ^ (s.dtabAt j).len.toNat)
    (hfree : ∀ j < s.dtabN.toNat, ∀ k < s.dtabN.toNat, j ≠ k →
      codePrefix (s.dtabAt j).len.toNat (s.dtabAt j).code.toNat (s.dtabAt k).len.toNat (s.dtabAt k).code.toNat = false) :
    TableOk s.liveEntries := by
  have hl := s.liveEntries_length h
  constructor
  · intro e he
    obtain ⟨j, hj, rfl⟩ := List.getElem_of_mem he
    rw [s.liveEntries_getElem h j hj]
    exact hfit j (by omega)
  · intro i hi j hj hij
    rw [s.liveEntries_getElem h i hi, s.liveEntries_getElem h j hj]
    exact hfree i (by omega) j (by omega) hij

/-- What DECODE's loop gives when the payload begins with the codes of live entries (46_decoder.md R222). -/
theorem State.decoded_of_codes (s : State) (h : TableOk s.liveEntries) (es : List DEntry) (hes : ∀ e ∈ es, e ∈ s.liveEntries)
    (hlen : s.outLen.toNat = es.length) (hbits : es.flatMap DEntry.bits <+: unpackBits s.payload) :
    s.decoded = { how := .complete, out := es.map DEntry.sym, bits := (es.flatMap DEntry.bits).length } := by
  obtain ⟨rest, hr⟩ := hbits
  unfold State.decoded
  rw [← hr, hlen, decodeLoop_codes h es hes rest 0, Nat.zero_add]

/-! ## LOADTAB on what ENCODE wrote -/

/-- What the code table of an encodable state satisfies (43_codegen.md R174). -/
structure State.CodesOk (s : State) : Prop where
  len : ∀ i ∈ s.coded, (s.lenAt i).toNat ≤ lMax
  fit : ∀ i ∈ s.coded, (s.codeAt i).toNat < 2 ^ (s.lenAt i).toNat
  free : ∀ i ∈ s.coded, ∀ j ∈ s.coded, i ≠ j →
    codePrefix (s.lenAt i).toNat (s.codeAt i).toNat (s.lenAt j).toNat (s.codeAt j).toNat = false

/-- LOADTAB accepts the artifact of a prefix-free code table. -/
theorem State.CodesOk.stored {s : State} (h : s.CodesOk) (u : State) (hart : u.artLen.toNat = s.artifactSize)
    (hmax : s.artifactSize ≤ u.params.artMax) : (u.putBytes .abuf 0 s.artifact).StoredTableOk := by
  have hc := s.artifact_headerCount u
  have hle := s.coded_length_le
  have hsz : 6 + 6 * s.coded.length ≤ s.artifactSize := by unfold State.artifactSize; omega
  have hmem : ∀ j (hj : j < s.coded.length), s.coded[j] ∈ s.coded := fun j hj => List.getElem_mem hj
  unfold State.StoredTableOk
  rw [hc]
  refine ⟨by simpa [hart] using hmax, by simp [hart]; omega, hle, by simp [hart]; omega, ?_, ?_, ?_⟩
  · intro j hj
    rw [s.artifact_tabEntry u j hj]
    have h1 := (s.mem_coded s.coded[j]).1 (hmem j hj)
    exact ⟨h1.2, h.len _ (hmem j hj), h.fit _ (hmem j hj)⟩
  · intro j hj
    rw [s.artifact_tabEntry u j (by omega), s.artifact_tabEntry u (j + 1) hj]
    exact List.pairwise_iff_getElem.1 s.coded_pairwise j (j + 1) (by omega) hj (by omega)
  · intro j hj k hk hjk
    rw [s.artifact_tabEntry u j hj, s.artifact_tabEntry u k hk]
    refine h.free _ (hmem j hj) _ (hmem k hk) ?_
    intro e
    exact hjk ((List.nodup_iff_injective_get.1 (s.coded_pairwise.imp fun h => Nat.ne_of_lt h)) (a₁ := ⟨j, hj⟩) (a₂ := ⟨k, hk⟩) e
      |> fun h => congrArg Fin.val h)

/-! ## Counts -/

theorem sum_range_ite (n b : Nat) (f : Nat → Nat) :
    ((List.range n).map fun i => if b = i then f i else 0).sum = if b < n then f b else 0 := by
  induction n with
  | zero => simp
  | succ n ih =>
    rw [List.sum_range_succ, ih]
    by_cases h1 : b < n
    · rw [if_pos h1, if_neg (by omega), if_pos (by omega)]; omega
    · by_cases h2 : b = n
      · subst h2; simp
      · rw [if_neg h1, if_neg h2, if_neg (by omega)]

/-- A sum over the bytes of a string, ordered by symbol (30_encoding.md R108). -/
theorem sum_countOf (bs : List Byte) (f : Nat → Nat) :
    ((List.range 256).map fun i => countOf bs i * f i).sum = (bs.map fun b => f b.toNat).sum := by
  induction bs with
  | nil =>
    refine List.sum_eq_zero ?_
    intro x hx
    rw [List.mem_map] at hx
    obtain ⟨i, _, rfl⟩ := hx
    simp [countOf]
  | cons b bs ih =>
    rw [List.map_cons, List.sum_cons, ← ih]
    have h : (fun i => countOf (b :: bs) i * f i) = fun i => (if b.toNat = i then f i else 0) + countOf bs i * f i := by
      funext i
      simp only [countOf, List.countP_cons, decide_eq_true_eq]
      split <;> ring
    rw [h, List.sum_map_add, sum_range_ite, if_pos b.isLt]

theorem countOf_le (bs : List Byte) (i : Nat) : countOf bs i ≤ bs.length := List.countP_le_length

theorem countOf_pos {bs : List Byte} {b : Byte} (h : b ∈ bs) : 0 < countOf bs b.toNat := by
  unfold countOf
  rw [List.countP_pos_iff]
  exact ⟨b, h, by simp⟩

/-- A sum over the indices that a test keeps, when the others add nothing. -/
theorem sum_filter_range (n : Nat) (p : Nat → Bool) (f : Nat → Nat) (h : ∀ i < n, p i = false → f i = 0) :
    (((List.range n).filter p).map f).sum = ((List.range n).map f).sum := by
  have : ∀ l : List Nat, (∀ i ∈ l, p i = false → f i = 0) → ((l.filter p).map f).sum = (l.map f).sum := by
    intro l hl
    induction l with
    | nil => rfl
    | cons a l ih =>
      have ih := ih fun i hi => hl i (by simp [hi])
      cases hp : p a with
      | true => rw [List.filter_cons_of_pos hp, List.map_cons, List.map_cons, List.sum_cons, List.sum_cons, ih]
      | false =>
        rw [List.filter_cons_of_neg (by simp [hp]), List.map_cons, List.sum_cons, ih, hl a (by simp) hp, Nat.zero_add]
  exact this _ fun i hi => h i (List.mem_range.1 hi)

@[simp] theorem State.input_length (s : State) : s.input.length = s.inputLen := by simp [State.input]

theorem State.inputLen_lt (s : State) : s.inputLen < 2 ^ 32 := s.inLen.isLt

/-- P as the sum that the rules spell, over input positions (30_encoding.md R108). -/
theorem State.sum_lenAt_input (s : State) :
    ((List.range s.inLen.toNat).map fun k => (s.lenAt (s.byteAt .ibuf k).toNat).toNat).sum = s.payloadSize := by
  simp [State.payloadSize, State.input, State.bytesAt, List.map_map, Function.comp_def, State.inputLen]

/-- The coded symbols are those with a length other than 0 (45_encoder.md R190). -/
theorem State.coded_eq_ne_zero (s : State) : ((List.range 256).filter fun i => s.lenAt i ≠ 0#8) = s.coded := by
  rw [State.coded_eq]
  apply List.filter_congr
  intro i _
  have : s.lenAt i ≠ 0#8 ↔ 0 < (s.lenAt i).toNat := by
    rw [ne_eq, BitVec.toNat_eq]
    simp only [BitVec.toNat_ofNat]
    omega
  simp only [decide_eq_decide]
  exact this

/-! ## The effects of the pipeline's steps -/

/-- The state after FREQ's effect. -/
def State.afterFreq (s : State) : State :=
  { s with freq := freqTable s.input, valid := s.valid.afterFreq, status := s.status.setEmpty (s.inputLen == 0) }

/-- The state after BUILD's effect. -/
def State.afterBuild (s : State) : State := s.commitBuild s.leaves (arenaOf s.leaves)

/-- The state after CANON's effect. -/
def State.afterCanon (s : State) : State :=
  { s with code := codeTable (canonCodes s.canonOrder), valid := s.valid.afterCanon, status := s.status.setEmpty (s.nsym == 0#9) }

/-- The state after ENCODE's effect. -/
def State.afterEncode (s : State) : State :=
  { s.putBytes .abuf 0 s.artifact with
    artLen := BitVec.ofNat 32 s.artifactSize
    payBits := BitVec.ofNat 32 s.payloadSize
    valid := s.valid.afterEncode
    status := s.status.setEmpty (s.inputLen == 0) }

/-- The state after LOADTAB's commit. -/
def State.afterLoadtab (s : State) : State :=
  { s with
    dtab := dtabTable s.tabEntries
    dtabN := BitVec.ofNat 9 s.headerCount
    outLen := BitVec.ofNat 32 s.headerLen
    payOff := BitVec.ofNat 32 (6 + 6 * s.headerCount)
    payBytes := BitVec.ofNat 32 (s.artifactLen - (6 + 6 * s.headerCount))
    valid := s.valid.afterLoadtab
    status := s.status.setEmpty (s.headerLen == 0) }

theorem runFreq_done (s : State) (h : s.inputLen ≤ s.params.inMax) : runFreq s = .done s.afterFreq := by
  rw [runFreq, if_neg (by omega)]; rfl

theorem runBuild_done (s : State) (h : s.valid.freq = true) : runBuild s = .done s.afterBuild := by
  rw [runBuild, if_pos h]; rfl

theorem State.tooLong_eq_none (s : State) : s.tooLong = none ↔ ∀ i < 256, (s.lenAt i).toNat ≤ lMax := by
  unfold State.tooLong
  rw [List.head?_eq_none_iff, indicesWhere_eq _ _ 0#8, List.filter_eq_nil_iff]
  simp [State.lenAt]

theorem runCanon_done (s : State) (h : s.valid.tree = true) (hl : ∀ i < 256, (s.lenAt i).toNat ≤ lMax) :
    runCanon s = .done s.afterCanon := by
  rw [runCanon, if_pos h, (s.tooLong_eq_none).2 hl]; rfl

theorem State.unknownAt_none (s : State) (bs : List Byte) (h : ∀ b ∈ bs, 0 < (s.lenAt b.toNat).toNat) :
    s.unknownAt bs = none := by
  unfold State.unknownAt
  rw [List.find?_eq_none]
  intro p hp
  have := h p.1 (List.fst_mem_of_mem_zipIdx hp)
  simp; omega

theorem runEncode_done (s : State) (h : s.valid.code = true) (hn : s.inputLen ≤ s.params.inMax)
    (hu : ∀ b ∈ s.input, 0 < (s.lenAt b.toNat).toNat) (ht : s.artifactSize ≤ s.params.artMax) :
    runEncode s = .done s.afterEncode := by
  rw [runEncode, if_pos h, if_neg (by omega), s.unknownAt_none _ hu]
  simp only
  rw [if_neg (by omega)]; rfl

theorem runLoadtab_done (s : State) (h : s.StoredTableOk) : runLoadtab s = .done s.afterLoadtab := by
  rw [runLoadtab, s.loadtabError_none.2 h]; rfl

/-! ## COMPRESS -/

theorem State.afterFreq_freqAt (s : State) (i : Nat) (hi : i < 256) : (s.afterFreq.freqAt i).toNat = countOf s.input i := by
  have h : s.afterFreq.freqAt i = BitVec.ofNat 32 (countOf s.input i) := by
    simp [State.freqAt, State.afterFreq, freqTable, hi]
  rw [h, BitVec.toNat_ofNat]
  have h1 := countOf_le s.input i
  have h2 := s.inputLen_lt
  rw [State.input_length] at h1
  exact Nat.mod_eq_of_lt (by omega)

/-- The counts of the symbols present add up to the input length (41_frequency.md R142). -/
theorem State.afterFreq_sum (s : State) : (s.afterFreq.present.map fun i => (s.afterFreq.freqAt i).toNat).sum = s.inputLen := by
  rw [State.present_eq, sum_filter_range 256 _ (fun i => (s.afterFreq.freqAt i).toNat) (by intro i _ h; simpa using h)]
  rw [List.map_congr_left (g := fun i => countOf s.input i * 1) (by
    intro i hi; rw [s.afterFreq_freqAt i (List.mem_range.1 hi), Nat.mul_one]), sum_countOf s.input fun _ => 1]
  simp

theorem State.mem_afterFreq_present (s : State) {b : Byte} (h : b ∈ s.input) : b.toNat ∈ s.afterFreq.present := by
  rw [State.mem_present]
  exact ⟨b.isLt, by rw [s.afterFreq_freqAt _ b.isLt]; exact countOf_pos h⟩

/-- No code of an input of at most 65536 symbols is longer than 32 bits (93_implementation_defined.md I13). -/
theorem State.buildLen_le_lMax (s : State) (h : s.inputLen ≤ 65536) (i : Nat) : s.afterFreq.buildLen i ≤ lMax := by
  by_cases hi : i ∈ s.afterFreq.present
  · obtain ⟨_, _, hs⟩ := s.afterFreq.buildLen_spec
    rw [s.afterFreq_sum] at hs
    rcases Nat.lt_or_ge s.afterFreq.present.length 2 with h2 | h2
    · match hp : s.afterFreq.present with
      | [] => simp [hp] at hi
      | [j] =>
        rw [hp, List.mem_singleton] at hi
        subst hi
        rw [s.afterFreq.buildLen_single hp]
        decide
      | a :: b :: r => rw [hp] at h2; simp at h2
    · have hf := (hs s.inputLen_lt).1 h2 i hi
      by_contra hc
      have hm : Nat.fib 35 ≤ Nat.fib (s.afterFreq.buildLen i + 2) := Nat.fib_mono (by unfold lMax at hc; omega)
      have h35 : Nat.fib 35 = 9227465 := by decide +kernel
      omega
  · rw [s.afterFreq.buildLen_zero hi]; exact Nat.zero_le _

theorem State.lenAt_afterBuild (s : State) (i : Nat) (hi : i < 256) : (s.afterBuild.lenAt i).toNat = s.buildLen i :=
  s.lenAt_commitBuild i hi

/-- BUILD gives a code to exactly the symbols present. -/
theorem State.afterBuild_coded (s : State) : s.afterBuild.coded = s.present := by
  rw [State.coded_eq, State.present_eq]
  apply List.filter_congr
  intro i hi
  rw [List.mem_range] at hi
  rw [s.lenAt_afterBuild i hi]
  by_cases hp : i ∈ s.present
  · have h1 := (s.mem_present i).1 hp
    have h2 := s.buildLen_spec.1 i hp
    simp [h1.2]; omega
  · have h1 := s.buildLen_zero hp
    rw [s.mem_present] at hp
    simp [h1]; omega

theorem State.codeAt_afterCanon (s : State) (i : Nat) (hi : i < 256) : s.afterCanon.codeAt i = BitVec.ofNat 32 (s.canonCode i) := by
  simp [State.codeAt, State.afterCanon, codeTable, hi, State.canonCode]

/-- The code table of BUILD and CANON: prefix-free, and every code fits its length (43_codegen.md R174). -/
theorem State.codesOk_afterCanon (s : State) (hl : ∀ i < 256, (s.afterBuild.lenAt i).toNat ≤ lMax) :
    s.afterBuild.afterCanon.CodesOk := by
  have hc : s.afterBuild.afterCanon.coded = s.present := s.afterBuild_coded
  have hlen : ∀ i, s.afterBuild.afterCanon.lenAt i = s.afterBuild.lenAt i := fun _ => rfl
  obtain ⟨hfree, hfit⟩ := s.afterBuild.canonCode_spec
  rw [s.afterBuild_coded] at hfree hfit
  have hlt : ∀ i ∈ s.present, i < 256 := fun i hi => ((s.mem_present i).1 hi).1
  have hk : (s.present.map fun i => ((1 : ℚ) / 2) ^ (s.afterBuild.lenAt i).toNat).sum ≤ 1 := by
    rw [List.map_congr_left (g := fun i => ((1 : ℚ) / 2) ^ s.buildLen i) (by
      intro i hi; rw [s.lenAt_afterBuild i (hlt i hi)])]
    exact s.buildLen_spec.2.1
  have hcode : ∀ i ∈ s.present, (s.afterBuild.afterCanon.codeAt i).toNat = s.afterBuild.canonCode i := by
    intro i hi
    rw [State.codeAt_afterCanon _ i (hlt i hi), BitVec.toNat_ofNat]
    refine Nat.mod_eq_of_lt (lt_of_lt_of_le (hfit hk i hi) ?_)
    exact Nat.pow_le_pow_right (by omega) (hl i (hlt i hi))
  constructor
  · intro i hi
    rw [hc] at hi
    exact hl i (hlt i hi)
  · intro i hi
    rw [hc] at hi
    rw [hcode i hi]
    exact hfit hk i hi
  · intro i hi j hj hij
    rw [hc] at hi hj
    rw [hcode i hi, hcode j hj]
    exact hfree i hi j hj hij

/-- The payload of an input coded with its own table takes at most 8 bits a symbol (45_encoder.md R197). -/
theorem State.payloadSize_le (s : State) : s.afterFreq.afterBuild.payloadSize ≤ 8 * s.inputLen := by
  have hin : s.afterFreq.afterBuild.input = s.input := rfl
  obtain ⟨_, _, hs⟩ := s.afterFreq.buildLen_spec
  rw [s.afterFreq_sum] at hs
  refine le_trans (le_of_eq ?_) (hs s.inputLen_lt).2
  unfold State.payloadSize
  rw [hin, ← sum_countOf s.input fun i => (s.afterFreq.afterBuild.lenAt i).toNat, State.present_eq,
    sum_filter_range 256 _ (fun i => (s.afterFreq.freqAt i).toNat * s.afterFreq.buildLen i)
      (by intro i _ h; simp at h; simp [h])]
  congr 1
  apply List.map_congr_left
  intro i hi
  rw [List.mem_range] at hi
  rw [s.afterFreq_freqAt i hi, s.afterFreq.lenAt_afterBuild i hi]

/-- The state that ENCODE starts from inside COMPRESS. -/
def State.pipelined (s : State) : State := s.afterFreq.afterBuild.afterCanon

theorem State.pipelined_artifactSize_le (s : State) : s.pipelined.artifactSize ≤ 6 + 6 * 256 + s.inputLen := by
  have h1 : s.pipelined.payloadSize = s.afterFreq.afterBuild.payloadSize := rfl
  have h2 := s.payloadSize_le
  have h3 := s.pipelined.coded_length_le
  unfold State.artifactSize ceil8
  omega

/-- COMPRESS runs to its end on an input that fits, where ABUF has the bound of 00_scope.md R7. -/
theorem runCompress_done (s : State) (h1 : s.inputLen ≤ s.params.inMax) (h2 : s.params.inMax ≤ 65536)
    (h3 : 6 + 6 * 256 + s.inputLen ≤ s.params.artMax) :
    runCompress s = .done s.pipelined.afterEncode ∧ s.pipelined.CodesOk ∧
      (∀ b ∈ s.input, 0 < (s.pipelined.lenAt b.toNat).toNat) := by
  have hl : ∀ i < 256, (s.afterFreq.afterBuild.lenAt i).toNat ≤ lMax := by
    intro i hi
    rw [s.afterFreq.lenAt_afterBuild i hi]
    exact s.buildLen_le_lMax (by omega) i
  have hu : ∀ b ∈ s.input, 0 < (s.pipelined.lenAt b.toNat).toNat := by
    intro b hb
    have hp := s.mem_afterFreq_present hb
    have : s.pipelined.lenAt b.toNat = s.afterFreq.afterBuild.lenAt b.toNat := rfl
    rw [this, s.afterFreq.lenAt_afterBuild _ b.isLt]
    exact (s.afterFreq.buildLen_spec.1 _ hp).1
  have ht := s.pipelined_artifactSize_le
  refine ⟨?_, s.afterFreq.codesOk_afterCanon hl, hu⟩
  unfold runCompress
  rw [runFreq_done s h1]
  simp only [Result.andThen]
  rw [runBuild_done s.afterFreq rfl]
  simp only []
  rw [runCanon_done s.afterFreq.afterBuild rfl hl]
  simp only []
  rw [show s.afterFreq.afterBuild.afterCanon = s.pipelined from rfl,
    runEncode_done s.pipelined rfl (by exact h1) hu (by exact (show _ ≤ s.params.artMax by omega))]

/-! ## DECOMPRESS on what ENCODE wrote (00_scope.md R16) -/

/-- The state after DECODE's effect, when its loop completed (46_decoder.md R224). -/
def State.afterDecode (s : State) : State :=
  { s.putDecoded s.decoded with status := s.status.setEmpty (s.outLen == 0#32) }

theorem runDecode_done (s : State) (h : s.valid.dtab = true) (ho : s.outLen.toNat ≤ s.params.outMax)
    (hd : s.decoded.how = .complete) : runDecode s = .done s.afterDecode := by
  rw [runDecode, if_pos h, if_neg (by omega), State.decodeResult, hd]; rfl

/-- The decode-table entry of symbol i. -/
def State.entryFor (s : State) (i : Nat) : DEntry :=
  { v := true, sym := BitVec.ofNat 8 i, len := s.lenAt i, code := s.codeAt i }

theorem ofNat_toNat_len (s : State) (i : Nat) : BitVec.ofNat 8 (s.lenAt i).toNat = s.lenAt i := by simp

/-- The live entries after LOADTAB of the artifact of s, written into u. -/
theorem State.liveEntries_afterLoadtab (s u : State) :
    ((u.putBytes .abuf 0 s.artifact).afterLoadtab).liveEntries = s.coded.map s.entryFor := by
  have hc : (u.putBytes .abuf 0 s.artifact).headerCount = s.coded.length := s.artifact_headerCount u
  have hle := s.coded_length_le
  have hN : ((u.putBytes .abuf 0 s.artifact).afterLoadtab).dtabN.toNat = s.coded.length := by
    simp only [State.afterLoadtab, hc, BitVec.toNat_ofNat]
    omega
  have hN' : ((u.putBytes .abuf 0 s.artifact).afterLoadtab).dtabN.toNat ≤ 256 := by omega
  apply List.ext_getElem
  · rw [State.liveEntries_length _ hN', hN, List.length_map]
  · intro j h1 h2
    rw [List.length_map] at h2
    rw [State.liveEntries_getElem _ hN' j h1, List.getElem_map]
    have he : ((u.putBytes .abuf 0 s.artifact).afterLoadtab).dtabAt j = ((u.putBytes .abuf 0 s.artifact).tabEntry j).toDEntry :=
      State.dtabTable_entry _ (by omega) j (by omega)
    rw [he, s.artifact_tabEntry u j h2]
    simp [TabEntry.toDEntry, State.entryFor]

/-- DECOMPRESS of the artifact of s, written into u, gives the input of s. -/
theorem runDecompress_artifact (s u : State) (hok : s.CodesOk) (hu : ∀ b ∈ s.input, 0 < (s.lenAt b.toNat).toNat)
    (hart : u.artLen.toNat = s.artifactSize) (hmax : s.artifactSize ≤ u.params.artMax) (hout : s.inputLen ≤ u.params.outMax) :
    ∃ v, runDecompress (u.putBytes .abuf 0 s.artifact) = .done v ∧ v.outCnt.toNat = s.inputLen ∧
      v.status.err = u.status.err ∧ v.errs = u.errs ∧
      ∀ i (h : i < s.input.length), v.byteAt .obuf i = s.input[i] := by
  have hst := hok.stored u hart hmax
  have hlt := s.inputLen_lt
  have hc : (u.putBytes .abuf 0 s.artifact).headerCount = s.coded.length := s.artifact_headerCount u
  have hL : (u.putBytes .abuf 0 s.artifact).headerLen = s.inputLen := s.artifact_headerLen u hlt
  have hle := s.coded_length_le
  have hlive := s.liveEntries_afterLoadtab u
  generalize hw : u.putBytes .abuf 0 s.artifact = w at *
  have hwart : w.artLen = u.artLen := by rw [← hw]; rfl
  have hwpar : w.params = u.params := by rw [← hw]; rfl
  have hwst : w.status = u.status := by rw [← hw]; rfl
  have hwerr : w.errs = u.errs := by rw [← hw]; rfl
  have hout' : w.afterLoadtab.outLen.toNat = s.inputLen := by
    simp only [State.afterLoadtab, hL, BitVec.toNat_ofNat]
    exact Nat.mod_eq_of_lt hlt
  have hsize : s.artifactSize = 6 + 6 * s.coded.length + ceil8 s.payloadSize := rfl
  have hoff : w.afterLoadtab.payOff.toNat = 6 + 6 * s.coded.length := by
    simp only [State.afterLoadtab, hc, BitVec.toNat_ofNat]
    omega
  have hbytes : w.afterLoadtab.payBytes.toNat = ceil8 s.payloadSize := by
    have : w.artifactLen = s.artifactSize := by rw [State.artifactLen, hwart, hart]
    have h2 := u.artLen.isLt
    simp only [State.afterLoadtab, hc, this, BitVec.toNat_ofNat]
    rw [Nat.mod_eq_of_lt (by omega)]
    omega
  have hpay : w.afterLoadtab.payload = packBits s.payloadBits := by
    unfold State.payload
    rw [hoff, hbytes]
    have := s.artifact_payload u
    rw [hw] at this
    exact this
  have htab : TableOk w.afterLoadtab.liveEntries := by
    rw [hlive]
    constructor
    · intro e he
      rw [List.mem_map] at he
      obtain ⟨i, hi, rfl⟩ := he
      exact ⟨((s.mem_coded i).1 hi).2, hok.fit i hi⟩
    · intro i hi j hj hij
      rw [List.length_map] at hi hj
      simp only [List.getElem_map]
      refine hok.free _ (List.getElem_mem hi) _ (List.getElem_mem hj) ?_
      have := List.pairwise_iff_getElem.1 s.coded_pairwise
      rcases Nat.lt_or_ge i j with h | h
      · exact Nat.ne_of_lt (this i j hi hj h)
      · exact Nat.ne_of_gt (this j i hj hi (by omega))
  have hdec := w.afterLoadtab.decoded_of_codes htab (s.input.map fun b => s.entryFor b.toNat)
    (by
      intro e he
      rw [List.mem_map] at he
      obtain ⟨b, hb, rfl⟩ := he
      rw [hlive]
      exact List.mem_map_of_mem ((s.mem_coded _).2 ⟨b.isLt, hu b hb⟩))
    (by rw [hout']; simp)
    (by
      obtain ⟨n, _, hn⟩ := unpackBits_packBits s.payloadBits
      rw [hpay, hn, List.flatMap_map]
      exact ⟨List.replicate n false, rfl⟩)
  have hmap : (s.input.map fun b => s.entryFor b.toNat).map DEntry.sym = s.input := by
    rw [List.map_map]
    conv_rhs => rw [← List.map_id s.input]
    apply List.map_congr_left
    intro b _
    simp [State.entryFor]
  rw [hmap] at hdec
  have hpar : w.afterLoadtab.params = u.params := hwpar
  refine ⟨w.afterLoadtab.afterDecode, ?_, ?_, ?_, ?_, ?_⟩
  · unfold runDecompress
    rw [runLoadtab_done w hst]
    simp only [Result.andThen]
    exact runDecode_done _ rfl (by rw [hout', hpar]; exact hout) (by rw [hdec])
  · simp only [State.afterDecode, State.putDecoded, hdec, State.input_length, BitVec.toNat_ofNat]
    exact Nat.mod_eq_of_lt hlt
  · show w.status.err = _
    rw [hwst]
  · show ((w.afterLoadtab.putBytes .obuf 0 w.afterLoadtab.decoded.out).errs) = _
    rw [State.putBytes_errs]
    exact hwerr
  · intro i hi
    have := w.afterLoadtab.byteAt_putBytes .obuf s.input i
    rw [dif_pos hi] at this
    rw [← this, State.afterDecode, hdec]
    rfl

end Sys2Proof.Machine
end

