-- ==== Sys2Proof/Laws/Commands.lean ====
section
/-! SUPPORT. What each command can do, said once: the outcome of a run is one of the cases named here, and a predicate that every
effect keeps is kept by every command. -/

namespace Sys2Proof.Machine

/-- The effect of an instruction, before its completion. -/
def runOf : Instr → State → Result
  | .nop => runNop
  | .clear => runClear
  | .freq => runFreq
  | .build => runBuild
  | .canon => runCanon
  | .encode => runEncode
  | .compress => runCompress
  | .loadtab => runLoadtab
  | .decode => runDecode
  | .decompress => runDecompress

/-- Every command is its effect and the completion (40_control.md R121). -/
theorem exec_eq (i : Instr) (s : State) : exec i s = .next (runOf i s).finish := by cases i <;> rfl

/-- The state a result commits, with or without an error. -/
def Result.state : Result → State
  | .done s => s
  | .raised s _ => s

theorem Result.finish_phase (r : Result) : r.finish.phase = .idle := by cases r <;> rfl

theorem Result.finish_done (r : Result) : r.finish.status.done = true := by cases r <;> rfl

/-! ## The cases of each run -/

/-- FREQ: an input past IBUF, or the counts (41_frequency.md R141). -/
theorem runFreq_cases (s : State) :
    (s.params.inMax < s.inputLen ∧ ∃ e, runFreq s = .raised s e ∧ e.step = 0x10#8 ∧ e.kind = .overflowIn) ∨
      (s.inputLen ≤ s.params.inMax ∧ runFreq s = .done s.afterFreq) := by
  by_cases h : s.inputLen ≤ s.params.inMax
  · exact .inr ⟨h, runFreq_done s h⟩
  · left
    rw [runFreq, if_pos (by omega)]
    exact ⟨by omega, _, rfl, rfl, rfl⟩

/-- BUILD: no frequency table, or the tree (42_tree.md R151). -/
theorem runBuild_cases (s : State) :
    (s.valid.freq = false ∧ ∃ e, runBuild s = .raised s e ∧ e.step = 0x11#8 ∧ e.kind = .missingFreq) ∨
      (s.valid.freq = true ∧ runBuild s = .done s.afterBuild) := by
  by_cases h : s.valid.freq = true
  · exact .inr ⟨h, runBuild_done s h⟩
  · left
    rw [runBuild, if_neg h]
    exact ⟨by simpa using h, _, rfl, rfl, rfl⟩

/-- CANON: no tree, a length above 32, or the codes (43_codegen.md R171). -/
theorem runCanon_cases (s : State) :
    (s.valid.tree = false ∧ ∃ e, runCanon s = .raised s e ∧ e.step = 0x12#8 ∧ e.kind = .missingTree) ∨
      (s.valid.tree = true ∧ ∃ e i, s.tooLong = some i ∧ runCanon s = .raised s e ∧ e.step = 0x12#8 ∧ e.kind = .codeTooLong) ∨
      (s.valid.tree = true ∧ (∀ i < 256, (s.lenAt i).toNat ≤ lMax) ∧ runCanon s = .done s.afterCanon) := by
  by_cases h : s.valid.tree = true
  · cases hl : s.tooLong with
    | none => exact .inr (.inr ⟨h, s.tooLong_eq_none.1 hl, runCanon_done s h (s.tooLong_eq_none.1 hl)⟩)
    | some i =>
      right; left
      rw [runCanon, if_pos h, hl]
      exact ⟨h, _, i, rfl, rfl, rfl, rfl⟩
  · left
    rw [runCanon, if_neg h]
    exact ⟨by simpa using h, _, rfl, rfl, rfl⟩

/-- ENCODE: no code table, an input past IBUF, an unknown symbol, an artifact past ABUF, or the artifact (45_encoder.md R190). -/
theorem runEncode_cases (s : State) :
    (∃ e, runEncode s = .raised s e ∧ e.step = 0x13#8 ∧
      ((s.valid.code = false ∧ e.kind = .missingCode) ∨ (s.params.inMax < s.inputLen ∧ e.kind = .overflowIn) ∨
        ((∃ b ∈ s.input, s.lenAt b.toNat = 0#8) ∧ e.kind = .unknownSymbol) ∨
        (s.params.artMax < s.artifactSize ∧ e.kind = .overflowArt))) ∨
      (s.valid.code = true ∧ s.artifactSize ≤ s.params.artMax ∧ runEncode s = .done s.afterEncode) := by
  unfold runEncode
  split
  · split
    · left
      exact ⟨_, rfl, rfl, .inr (.inl ⟨‹_›, rfl⟩)⟩
    · split
      · left
        rename_i b i hu
        refine ⟨_, rfl, rfl, .inr (.inr (.inl ⟨⟨b, ?_, ?_⟩, rfl⟩))⟩
        · exact List.fst_mem_of_mem_zipIdx (List.mem_of_find?_eq_some hu)
        · have := List.find?_some hu
          apply BitVec.eq_of_toNat_eq
          simpa using this
      · split
        · left
          exact ⟨_, rfl, rfl, .inr (.inr (.inr ⟨‹_›, rfl⟩))⟩
        · right
          exact ⟨‹_›, by omega, rfl⟩
  · rename_i h
    left
    exact ⟨_, rfl, rfl, .inl ⟨eq_false_of_ne_true h, rfl⟩⟩

/-- The errors of LOADTAB's checks (60_exceptions.md R243). -/
theorem State.loadtabError_kind {s : State} {e : Raise} (h : s.loadtabError = some e) :
    e.step = 0x20#8 ∧ e.kind ∈ [ErrKind.overflowArt, .truncHdr, .badCount, .truncTable, .badLen, .badCode, .badOrder,
      .notPrefixFree] := by
  have entry : ∀ (es : List TabEntry) (j : Nat) (last : Option Nat) (e : Raise), entriesError j last es = some e →
      e.step = 0x20#8 ∧ e.kind ∈ [ErrKind.badLen, .badCode, .badOrder] := by
    intro es
    induction es with
    | nil => intro j last e h; simp [entriesError] at h
    | cons x es ih =>
      intro j last e h
      simp only [entriesError] at h
      split at h
      · rename_i r hr
        cases h
        unfold entryError at hr
        split at hr
        · cases hr; exact ⟨rfl, by simp⟩
        · split at hr
          · cases hr; exact ⟨rfl, by simp⟩
          · split at hr
            · simp at hr
            · split at hr
              · cases hr; exact ⟨rfl, by simp⟩
              · simp at hr
      · exact ih _ _ _ h
  unfold State.loadtabError at h
  repeat' split at h
  all_goals first
    | (cases h; done)
    | (cases h; exact ⟨rfl, by simp⟩)
    | skip
  rename_i r hr
  cases h
  obtain ⟨h1, h2⟩ := entry _ _ _ _ hr
  refine ⟨h1, ?_⟩
  simp only [List.mem_cons, List.not_mem_nil, or_false] at h2 ⊢
  tauto

/-- LOADTAB: the first failing check, or the commit (46_decoder.md R216, R217). -/
theorem runLoadtab_cases (s : State) :
    (¬ s.StoredTableOk ∧ ∃ e, s.loadtabError = some e ∧ runLoadtab s = .raised { s with valid := s.valid.afterLoadtabError } e) ∨
      (s.StoredTableOk ∧ runLoadtab s = .done s.afterLoadtab) := by
  cases h : s.loadtabError with
  | none => exact .inr ⟨s.loadtabError_none.1 h, runLoadtab_done s (s.loadtabError_none.1 h)⟩
  | some e =>
    left
    refine ⟨?_, e, rfl, by rw [runLoadtab, h]⟩
    intro hs
    rw [s.loadtabError_none.2 hs] at h
    simp at h

/-- DECODE: no decode table or a length past OBUF; an error of the loop; or all symbols (46_decoder.md R221 to R226). -/
theorem runDecode_cases (s : State) :
    (∃ e, runDecode s = .raised s e ∧ e.step = 0x21#8 ∧
      ((s.valid.dtab = false ∧ e.kind = .missingDtab) ∨ (s.params.outMax < s.outLen.toNat ∧ e.kind = .overflowOut))) ∨
      (s.valid.dtab = true ∧ s.outLen.toNat ≤ s.params.outMax ∧
        ∃ e, runDecode s = .raised (s.putDecoded s.decoded) e ∧ e.step = 0x21#8 ∧
          ((s.decoded.how = .exhausted ∧ e.kind = .outOfRange) ∨ (s.decoded.how = .noLeaf ∧ e.kind = .noLeafPath))) ∨
      (s.valid.dtab = true ∧ s.outLen.toNat ≤ s.params.outMax ∧ s.decoded.how = .complete ∧ runDecode s = .done s.afterDecode) := by
  by_cases hv : s.valid.dtab = true
  · by_cases ho : s.outLen.toNat ≤ s.params.outMax
    · right
      have hr : runDecode s = s.decodeResult s.decoded := by rw [runDecode, if_pos hv, if_neg (by omega)]
      cases hd : s.decoded.how with
      | complete =>
        right
        exact ⟨hv, ho, rfl, runDecode_done s hv ho hd⟩
      | exhausted =>
        left
        rw [hr, State.decodeResult, hd]
        exact ⟨hv, ho, _, rfl, rfl, .inl ⟨rfl, rfl⟩⟩
      | noLeaf =>
        left
        rw [hr, State.decodeResult, hd]
        exact ⟨hv, ho, _, rfl, rfl, .inr ⟨rfl, rfl⟩⟩
    · left
      rw [runDecode, if_pos hv, if_pos (by omega)]
      exact ⟨_, rfl, rfl, .inr ⟨by omega, rfl⟩⟩
  · left
    rw [runDecode, if_neg hv]
    exact ⟨_, rfl, rfl, .inl ⟨by simpa using hv, rfl⟩⟩

/-! ## What every effect keeps, every command keeps -/

/-- P is kept by every effect of a command step, each under what its checks ensure. -/
structure EffectsKeep (P : State → Prop) : Prop where
  nop : ∀ s, P s → P { s with status := s.status.setEmpty false }
  clear : ∀ s, P s → P s.resetRegs
  freq : ∀ s, P s → P s.afterFreq
  build : ∀ s, s.valid.freq = true → P s → P s.afterBuild
  canon : ∀ s, s.valid.tree = true → (∀ i < 256, (s.lenAt i).toNat ≤ lMax) → P s → P s.afterCanon
  encode : ∀ s, s.artifactSize ≤ s.params.artMax → P s → P s.afterEncode
  loadtabError : ∀ s, P s → P { s with valid := s.valid.afterLoadtabError }
  loadtab : ∀ s, s.StoredTableOk → P s → P s.afterLoadtab
  decodeError : ∀ s, s.valid.dtab = true → s.outLen.toNat ≤ s.params.outMax → P s → P (s.putDecoded s.decoded)
  decode : ∀ s, s.valid.dtab = true → s.outLen.toNat ≤ s.params.outMax → P s → P s.afterDecode

theorem EffectsKeep.compress {P : State → Prop} (k : EffectsKeep P) (s : State) (h0 : P s) : P (runCompress s).state := by
  unfold runCompress
  rcases runFreq_cases s with ⟨_, e, h, _⟩ | ⟨_, h⟩
  · rw [h]; exact h0
  rw [h]; simp only [Result.andThen]
  have p1 := k.freq s h0
  rcases runBuild_cases s.afterFreq with ⟨_, e, h, _⟩ | ⟨hv, h⟩
  · rw [h]; exact p1
  rw [h]; simp only
  have p2 := k.build _ hv p1
  rcases runCanon_cases s.afterFreq.afterBuild with ⟨_, e, h, _⟩ | ⟨_, e, i, _, h, _⟩ | ⟨hv, hl, h⟩
  · rw [h]; exact p2
  · rw [h]; exact p2
  rw [h]; simp only
  have p3 := k.canon _ hv hl p2
  rcases runEncode_cases s.afterFreq.afterBuild.afterCanon with ⟨e, h, _⟩ | ⟨_, ha, h⟩
  · rw [h]; exact p3
  · rw [h]; exact k.encode _ ha p3

theorem EffectsKeep.loadtabRun {P : State → Prop} (k : EffectsKeep P) (s : State) (h0 : P s) : P (runLoadtab s).state := by
  rcases runLoadtab_cases s with ⟨_, e, _, h⟩ | ⟨hs, h⟩
  · rw [h]; exact k.loadtabError s h0
  · rw [h]; exact k.loadtab s hs h0

theorem EffectsKeep.decodeRun {P : State → Prop} (k : EffectsKeep P) (s : State) (h0 : P s) : P (runDecode s).state := by
  rcases runDecode_cases s with ⟨e, h, _⟩ | ⟨hv, ho, e, h, _⟩ | ⟨hv, ho, hd, h⟩
  · rw [h]; exact h0
  · rw [h]; exact k.decodeError s hv ho h0
  · rw [h]; exact k.decode s hv ho h0

theorem EffectsKeep.decompress {P : State → Prop} (k : EffectsKeep P) (s : State) (h0 : P s) : P (runDecompress s).state := by
  unfold runDecompress
  rcases runLoadtab_cases s with ⟨_, e, _, h⟩ | ⟨hs, h⟩
  · rw [h]; exact k.loadtabError s h0
  · rw [h]; exact k.decodeRun _ (k.loadtab s hs h0)

/-- A predicate that every single effect keeps is kept by every command. -/
theorem EffectsKeep.runOf {P : State → Prop} (k : EffectsKeep P) (i : Instr) (s : State) (h0 : P s) : P (runOf i s).state := by
  cases i with
  | nop => exact k.nop s h0
  | clear => exact k.clear s h0
  | freq =>
    rcases runFreq_cases s with ⟨_, e, h, _⟩ | ⟨_, h⟩
    · simp only [Machine.runOf, h]; exact h0
    · simp only [Machine.runOf, h]; exact k.freq s h0
  | build =>
    rcases runBuild_cases s with ⟨_, e, h, _⟩ | ⟨hv, h⟩
    · simp only [Machine.runOf, h]; exact h0
    · simp only [Machine.runOf, h]; exact k.build s hv h0
  | canon =>
    rcases runCanon_cases s with ⟨_, e, h, _⟩ | ⟨_, e, i, _, h, _⟩ | ⟨hv, hl, h⟩
    · simp only [Machine.runOf, h]; exact h0
    · simp only [Machine.runOf, h]; exact h0
    · simp only [Machine.runOf, h]; exact k.canon s hv hl h0
  | encode =>
    rcases runEncode_cases s with ⟨e, h, _⟩ | ⟨_, ha, h⟩
    · simp only [Machine.runOf, h]; exact h0
    · simp only [Machine.runOf, h]; exact k.encode s ha h0
  | compress => exact k.compress s h0
  | loadtab => exact k.loadtabRun s h0
  | decode => exact k.decodeRun s h0
  | decompress => exact k.decompress s h0

end Sys2Proof.Machine
end

