-- ==== Sys2Proof/Laws/HostFields.lean ====
section
/-! SUPPORT. What no command reads: the model's own record of the host, which is the agenda and the read data (log entries 3 and 4),
and STATUS.ERR (40_control.md R128). -/

namespace Sys2Proof.Machine

/-- The state with another agenda, record of read data and ERR bit: the fields that no command reads (log entries 3 and 4;
40_control.md R128). -/
def State.withUnread (s : State) (a : List Event) (r : List Word) (e : Bool) : State :=
  { s with agenda := a, reads := r, status := { s.status with err := e } }

/-- The same result on a state with other unread fields. -/
def Result.withUnread (r : Result) (a : List Event) (rd : List Word) (e : Bool) : Result :=
  match r with
  | .done s => .done (s.withUnread a rd e)
  | .raised s x => .raised (s.withUnread a rd e) x

theorem runFreq_withUnread (s : State) (a : List Event) (rd : List Word) (e : Bool) :
    runFreq (s.withUnread a rd e) = (runFreq s).withUnread a rd e := by
  unfold runFreq
  by_cases h : s.params.inMax < s.inputLen
  · rw [if_pos h, if_pos (show (s.withUnread a rd e).params.inMax < (s.withUnread a rd e).inputLen from h)]; rfl
  · rw [if_neg h, if_neg (show ¬ (s.withUnread a rd e).params.inMax < (s.withUnread a rd e).inputLen from h)]; rfl

theorem runBuild_withUnread (s : State) (a : List Event) (rd : List Word) (e : Bool) :
    runBuild (s.withUnread a rd e) = (runBuild s).withUnread a rd e := by
  unfold runBuild
  by_cases h : s.valid.freq = true
  · rw [if_pos h, if_pos (show (s.withUnread a rd e).valid.freq = true from h)]; rfl
  · rw [if_neg h, if_neg (show ¬ (s.withUnread a rd e).valid.freq = true from h)]; rfl

theorem runCanon_withUnread (s : State) (a : List Event) (rd : List Word) (e : Bool) :
    runCanon (s.withUnread a rd e) = (runCanon s).withUnread a rd e := by
  unfold runCanon
  by_cases h : s.valid.tree = true
  · rw [if_pos h, if_pos (show (s.withUnread a rd e).valid.tree = true from h), show (s.withUnread a rd e).tooLong = s.tooLong from rfl]
    cases s.tooLong <;> rfl
  · rw [if_neg h, if_neg (show ¬ (s.withUnread a rd e).valid.tree = true from h)]; rfl

theorem runEncode_withUnread (s : State) (a : List Event) (rd : List Word) (e : Bool) :
    runEncode (s.withUnread a rd e) = (runEncode s).withUnread a rd e := by
  unfold runEncode
  by_cases h : s.valid.code = true
  · rw [if_pos h, if_pos (show (s.withUnread a rd e).valid.code = true from h)]
    by_cases h2 : s.params.inMax < s.inputLen
    · rw [if_pos h2, if_pos (show (s.withUnread a rd e).params.inMax < (s.withUnread a rd e).inputLen from h2)]; rfl
    · rw [if_neg h2, if_neg (show ¬ (s.withUnread a rd e).params.inMax < (s.withUnread a rd e).inputLen from h2),
        show (s.withUnread a rd e).unknownAt (s.withUnread a rd e).input = s.unknownAt s.input from rfl]
      cases s.unknownAt s.input with
      | some p => rfl
      | none =>
        by_cases h3 : s.params.artMax < s.artifactSize
        · simp only []; rw [if_pos h3, if_pos (show (s.withUnread a rd e).params.artMax < (s.withUnread a rd e).artifactSize from h3)]; rfl
        · simp only []; rw [if_neg h3, if_neg (show ¬ (s.withUnread a rd e).params.artMax < (s.withUnread a rd e).artifactSize from h3)]; rfl
  · rw [if_neg h, if_neg (show ¬ (s.withUnread a rd e).valid.code = true from h)]; rfl

theorem runLoadtab_withUnread (s : State) (a : List Event) (rd : List Word) (e : Bool) :
    runLoadtab (s.withUnread a rd e) = (runLoadtab s).withUnread a rd e := by
  unfold runLoadtab
  rw [show (s.withUnread a rd e).loadtabError = s.loadtabError from rfl]
  cases s.loadtabError <;> rfl

theorem runDecode_withUnread (s : State) (a : List Event) (rd : List Word) (e : Bool) :
    runDecode (s.withUnread a rd e) = (runDecode s).withUnread a rd e := by
  unfold runDecode
  by_cases h : s.valid.dtab = true
  · rw [if_pos h, if_pos (show (s.withUnread a rd e).valid.dtab = true from h)]
    by_cases h2 : s.params.outMax < s.outLen.toNat
    · rw [if_pos h2, if_pos (show (s.withUnread a rd e).params.outMax < (s.withUnread a rd e).outLen.toNat from h2)]; rfl
    · rw [if_neg h2, if_neg (show ¬ (s.withUnread a rd e).params.outMax < (s.withUnread a rd e).outLen.toNat from h2),
        show (s.withUnread a rd e).decoded = s.decoded from rfl]
      unfold State.decodeResult
      cases s.decoded.how <;> rfl
  · rw [if_neg h, if_neg (show ¬ (s.withUnread a rd e).valid.dtab = true from h)]; rfl

theorem Result.andThen_withUnread (r : Result) (f : State → Result) (a : List Event) (rd : List Word) (e : Bool) (hf :
    ∀ s : State, f (s.withUnread a rd e) = (f s).withUnread a rd e) :
    (r.withUnread a rd e).andThen f = (r.andThen f).withUnread a rd e := by
  cases r with
  | done s => exact hf s
  | raised s x => rfl

/-- What ERR is behind the effect of an instruction that finds it e: CLEAR clears it (40_control.md R124), every other command leaves
it to the completion. -/
def errAfter (i : Instr) (e : Bool) : Bool :=
  match i with
  | .clear => false
  | _ => e

/-- No command reads the agenda, the record of read data or ERR, and none but CLEAR writes one. -/
theorem runOf_withUnread (i : Instr) (s : State) (a : List Event) (rd : List Word) (e : Bool) :
    runOf i (s.withUnread a rd e) = (runOf i s).withUnread a rd (errAfter i e) := by
  cases i with
  | nop => rfl
  | clear => rfl
  | freq => exact runFreq_withUnread s a rd e
  | build => exact runBuild_withUnread s a rd e
  | canon => exact runCanon_withUnread s a rd e
  | encode => exact runEncode_withUnread s a rd e
  | compress =>
    show (((runFreq _).andThen _).andThen _).andThen _ = _
    rw [runFreq_withUnread, Result.andThen_withUnread _ _ a rd e (fun s => runBuild_withUnread s a rd e),
      Result.andThen_withUnread _ _ a rd e (fun s => runCanon_withUnread s a rd e),
      Result.andThen_withUnread _ _ a rd e (fun s => runEncode_withUnread s a rd e)]
    rfl
  | loadtab => exact runLoadtab_withUnread s a rd e
  | decode => exact runDecode_withUnread s a rd e
  | decompress =>
    show (runLoadtab _).andThen _ = _
    rw [runLoadtab_withUnread, Result.andThen_withUnread _ _ a rd e (fun s => runDecode_withUnread s a rd e)]
    rfl

/-! ## The record of the host alone -/

/-- The state with another agenda and another record of read data (log entries 3 and 4). -/
def State.withHost (s : State) (a : List Event) (r : List Word) : State := { s with agenda := a, reads := r }

/-- The same result on a state with another agenda and record. -/
def Result.withHost (r : Result) (a : List Event) (rd : List Word) : Result :=
  match r with
  | .done s => .done (s.withHost a rd)
  | .raised s x => .raised (s.withHost a rd) x

theorem Result.finish_withHost (r : Result) (a : List Event) (rd : List Word) :
    (r.withHost a rd).finish = r.finish.withHost a rd := by cases r <;> rfl

theorem runOf_withHost (i : Instr) (s : State) (a : List Event) (rd : List Word) :
    runOf i (s.withHost a rd) = (runOf i s).withHost a rd := by
  have same : runOf i s = _ := runOf_withUnread i s s.agenda s.reads s.status.err
  refine (runOf_withUnread i s a rd s.status.err).trans ?_
  rw [same]
  cases runOf i s <;> rfl

/-- A command neither reads nor writes the agenda and the record of read data. -/
theorem exec_withHost (i : Instr) (s : State) (a : List Event) (rd : List Word) :
    exec i (s.withHost a rd) = .next ((runOf i s).finish.withHost a rd) := by
  rw [exec_eq, runOf_withHost, Result.finish_withHost]

end Sys2Proof.Machine
end

