-- ==== Sys2Proof/Laws/PerInstr.lean ====
section
/-! SUPPORT. Statements made per instruction: one lemma for each constructor. -/

/-- The word of an instruction is well formed, carries the opcode of the opcode map and has RSVD = 0
(30_encoding.md R90, R91). -/
def Sys2Proof.Laws.EncodesToItsOpcode.Statement (i : Sys2Proof.Instr) : Prop :=
  Sys2Proof.wordWellFormed (Sys2Proof.encode i) = true ∧ Sys2Proof.opcField (Sys2Proof.encode i) = i.opc ∧
    Sys2Proof.rsvdField (Sys2Proof.encode i) = 0#24

theorem Sys2Proof.Laws.EncodesToItsOpcode.nop : Sys2Proof.Laws.EncodesToItsOpcode.Statement .nop := ⟨rfl, rfl, rfl⟩

theorem Sys2Proof.Laws.EncodesToItsOpcode.clear : Sys2Proof.Laws.EncodesToItsOpcode.Statement .clear := ⟨rfl, rfl, rfl⟩

theorem Sys2Proof.Laws.EncodesToItsOpcode.freq : Sys2Proof.Laws.EncodesToItsOpcode.Statement .freq := ⟨rfl, rfl, rfl⟩

theorem Sys2Proof.Laws.EncodesToItsOpcode.build : Sys2Proof.Laws.EncodesToItsOpcode.Statement .build := ⟨rfl, rfl, rfl⟩

theorem Sys2Proof.Laws.EncodesToItsOpcode.canon : Sys2Proof.Laws.EncodesToItsOpcode.Statement .canon := ⟨rfl, rfl, rfl⟩

theorem Sys2Proof.Laws.EncodesToItsOpcode.encode : Sys2Proof.Laws.EncodesToItsOpcode.Statement .encode := ⟨rfl, rfl, rfl⟩

theorem Sys2Proof.Laws.EncodesToItsOpcode.compress :
    Sys2Proof.Laws.EncodesToItsOpcode.Statement .compress := ⟨rfl, rfl, rfl⟩

theorem Sys2Proof.Laws.EncodesToItsOpcode.loadtab : Sys2Proof.Laws.EncodesToItsOpcode.Statement .loadtab := ⟨rfl, rfl, rfl⟩

theorem Sys2Proof.Laws.EncodesToItsOpcode.decode : Sys2Proof.Laws.EncodesToItsOpcode.Statement .decode := ⟨rfl, rfl, rfl⟩

theorem Sys2Proof.Laws.EncodesToItsOpcode.decompress :
    Sys2Proof.Laws.EncodesToItsOpcode.Statement .decompress := ⟨rfl, rfl, rfl⟩
end

