-- ==== Sys2Proof/Laws/Steps.lean ====
section
/-! SUPPORT. The locations of the address map; what a host write, a step and a run can do, said once; and the induction that every
invariant of the step uses. -/

namespace Sys2Proof.Machine

/-! ## Locations -/

theorem locOf_ibuf {wa : Nat} (h1 : 0x10000 ≤ wa) (h2 : wa < 0x20000) : locOf wa = .buf .ibuf (wa - 0x10000) := by
  unfold locOf
  repeat' split
  all_goals first | rfl | omega

theorem locOf_abuf {wa : Nat} (h1 : 0x20000 ≤ wa) (h2 : wa < 0x40000) : locOf wa = .buf .abuf (wa - 0x20000) := by
  unfold locOf
  repeat' split
  all_goals first | rfl | omega

theorem locOf_obuf {wa : Nat} (h1 : 0x40000 ≤ wa) (h2 : wa < 0x50000) : locOf wa = .buf .obuf (wa - 0x40000) := by
  unfold locOf
  repeat' split
  all_goals first | rfl | omega

/-- The register found at an offset has that offset (10_state.md R44). -/
theorem Reg.offset_ofOffset {off : Nat} {r : Reg} (h : Reg.ofOffset off = some r) : r.offset = off := by
  unfold Reg.ofOffset at h
  split at h <;> cases h <;> rfl

/-- An offset that is no register's is reserved (10_state.md R43, R44). -/
theorem Reg.ofOffset_none {off : Nat} (h : ∀ r : Reg, r.offset ≠ off) : Reg.ofOffset off = none :=
  Option.eq_none_iff_forall_ne_some.2 fun r hr => h r (Reg.offset_ofOffset hr)

/-- The reserved locations (20_memory.md R62, 10_state.md R43). -/
theorem locOf_reserved {wa : Nat}
    (h : (wa < 0x400 ∧ ∀ r : Reg, r.offset ≠ wa) ∨ (0xD00 ≤ wa ∧ wa < 0x1000) ∨ (0x2800 ≤ wa ∧ wa < 0x10000) ∨ 0x50000 ≤ wa) :
    locOf wa = .reserved := by
  rcases h with ⟨h1, h2⟩ | h
  · rw [locOf, if_pos h1, Reg.ofOffset_none h2]
  · rw [locOf, if_neg (by omega)]
    repeat' split
    all_goals first | rfl | omega

/-- The tables and buffers read no exact word during BUSY (70_reset_and_hazards.md R282). -/
theorem locOf_inexact {wa : Nat}
    (h : (0x400 ≤ wa ∧ wa < 0xD00) ∨ (0x1000 ≤ wa ∧ wa < 0x2800) ∨ (0x10000 ≤ wa ∧ wa < 0x50000)) :
    (locOf wa).exactInBusy = false := by
  rw [locOf, if_neg (by omega)]
  repeat' split
  all_goals first | rfl | omega

/-! ## Host writes -/

/-- Everything a host write can do (20_memory.md R63, R67, R70; 70_reset_and_hazards.md R280, R281). -/
theorem hostWrite_cases (s : State) (a d : Word) (strb : Strobe) :
    hostWrite s a d strb = s ∨ hostWrite s a d strb = { s with status := s.status.w1c d } ∨
      hostWrite s a d strb = { s with ie := IntEnable.ofWord d } ∨ (s.busy = true ∧ hostWrite s a d strb = s.dropWrite) ∨
      (s.busy = false ∧ (hostWrite s a d strb = s.accept d ∨ hostWrite s a d strb = { s with inLen := d } ∨
        hostWrite s a d strb = { s with artLen := d } ∨
        ∃ b i, b ≠ Buf.obuf ∧ hostWrite s a d strb = [0, 1, 2, 3].foldl (State.writeLane b i d strb) s)) := by
  unfold hostWrite State.writeLoc
  split
  · split
    · exact .inr (.inl rfl)
    · exact .inl rfl
  · split
    · exact .inr (.inr (.inl rfl))
    · exact .inl rfl
  · split
    · split
      · rename_i hb
        exact .inr (.inr (.inr (.inl ⟨hb, rfl⟩)))
      · rename_i hs hb
        refine .inr (.inr (.inr (.inr ⟨eq_false_of_ne_true hb, ?_⟩)))
        unfold State.store
        split
        · exact .inl rfl
        · exact .inr (.inl rfl)
        · exact .inr (.inr (.inl rfl))
        · exact .inr (.inr (.inr ⟨.ibuf, _, by decide, rfl⟩))
        · exact .inr (.inr (.inr ⟨.abuf, _, by decide, rfl⟩))
        · exfalso
          revert hs
          unfold storesAt
          split <;> simp_all
    · exact .inl rfl

/-- What one byte written below the capacity keeps, a whole buffer write keeps. -/
theorem writeLanes_keep {P : State → Prop} (b : Buf) (i : Nat) (d : Word) (strb : Strobe) (s : State) (h : P s)
    (hw : ∀ (s : State) (j : Nat) (v : Byte), j < capOf s.params b → P s → P (s.setBuf b ((s.buf b).set j v))) :
    P ([0, 1, 2, 3].foldl (State.writeLane b i d strb) s) := by
  have one : ∀ s k, P s → P (State.writeLane b i d strb s k) := by
    intro s k hs
    unfold State.writeLane
    split
    · rename_i hl
      unfold laneOn at hl
      simp only [Bool.and_eq_true, decide_eq_true_eq] at hl
      exact hw s _ _ hl.2 hs
    · exact hs
  simp only [List.foldl]
  exact one _ _ (one _ _ (one _ _ (one _ _ h)))

/-! ## Steps -/

/-- A step is the core's turn or the first event of the agenda. -/
theorem step_cases {s t : State} (h : step s = .next t) :
    (s.agenda = [] ∧ coreTurn s = .next t) ∨
      (∃ e rest, s.agenda = e :: rest ∧ perform { s with agenda := rest } e = .next t) := by
  unfold step takeTurn at h
  split at h
  · exact .inl ⟨‹_›, h⟩
  · exact .inr ⟨_, _, ‹_›, h⟩

/-- A completion is that of a command or of an illegal word (40_control.md R121, R125). -/
theorem completeWord_cases (w : Word) (s : State) :
    (∃ i, decodeWord w = .ok i ∧ completeWord w s = .next (runOf i s).finish) ∨
      (∃ r, decodeWord w = .error r ∧ completeWord w s = .next (runIllegal w r s).finish) := by
  unfold completeWord
  cases decodeWord w with
  | ok i => exact .inl ⟨i, rfl, exec_eq i s⟩
  | error r => exact .inr ⟨r, rfl, rfl⟩

/-- P is kept by the host's transactions, by reset and by the completion. -/
structure EventsKeep (P : State → Prop) : Prop where
  agenda : ∀ s r, P s → P { s with agenda := r }
  read : ∀ s r n, P s → P { s with reads := r, draws := n }
  w1c : ∀ s d, P s → P { s with status := s.status.w1c d }
  ie : ∀ s d, P s → P { s with ie := d }
  drop : ∀ s, s.busy = true → P s → P s.dropWrite
  accept : ∀ s d, s.busy = false → P s → P (s.accept d)
  inLen : ∀ s d, s.busy = false → P s → P { s with inLen := d }
  artLen : ∀ s d, s.busy = false → P s → P { s with artLen := d }
  write : ∀ (b : Buf) (s : State) (j : Nat) (v : Byte), j < capOf s.params b → P s → P (s.setBuf b ((s.buf b).set j v))
  reset : ∀ s p, P s → P (resetEvent s p)
  complete : ∀ s, P s → P s.complete
  completeError : ∀ s e, P s → P (s.recordError e).complete

/-- A predicate that every event and every effect keeps is kept by every step, from every state that meets it. -/
theorem step_keeps {P : State → Prop} (k : EffectsKeep P) (m : EventsKeep P) {s t : State} (h : step s = .next t) (h0 : P s) :
    P t := by
  have fin : ∀ r : Result, P r.state → P r.finish := by
    intro r hr
    cases r with
    | done s => exact m.complete s hr
    | raised s e => exact m.completeError s e hr
  have core : ∀ s t, P s → coreTurn s = .next t → P t := by
    intro s t hs ht
    unfold coreTurn at ht
    split at ht
    · cases ht; exact hs
    · rename_i w _
      rcases completeWord_cases w s with ⟨i, _, he⟩ | ⟨r, _, he⟩
      · rw [he] at ht; cases ht
        exact fin _ (k.runOf i s hs)
      · rw [he] at ht; cases ht
        exact fin _ hs
  rcases step_cases h with ⟨_, ht⟩ | ⟨e, rest, _, ht⟩
  · exact core s t h0 ht
  · have hs := m.agenda s rest h0
    unfold perform at ht
    split at ht
    · cases ht; exact m.read _ _ _ hs
    · cases ht
      rcases hostWrite_cases { s with agenda := rest } (State.relAddr { s with agenda := rest } _) _ _ with
        e | e | e | ⟨hb, e⟩ | ⟨hb, e | e | e | ⟨b, i, _, e⟩⟩
      · rw [e]; exact hs
      · rw [e]; exact m.w1c _ _ hs
      · rw [e]; exact m.ie _ _ hs
      · rw [e]; exact m.drop _ hb hs
      · rw [e]; exact m.accept _ _ hb hs
      · rw [e]; exact m.inLen _ _ hb hs
      · rw [e]; exact m.artLen _ _ hb hs
      · rw [e]; exact writeLanes_keep b i _ _ _ hs (m.write b)
    · cases ht; exact m.reset _ _ hs
    · exact core _ _ hs ht

/-! ## Runs -/

/-- A run takes its first step, then the rest. -/
theorem run_cons {s t : State} (h : step s = .next t) (n : Nat) : Sys2Proof.core.run (n + 1) s = Sys2Proof.core.run n t := by
  have h : Sys2Proof.core.step s = .next t := h
  simp only [Host.Core.run, h]

/-- A run goes on with one more step. -/
theorem run_snoc {s u t : State} {n : Nat} (h : Sys2Proof.core.run n s = .next u) (hu : step u = .next t) :
    Sys2Proof.core.run (n + 1) s = .next t := by
  induction n generalizing s with
  | zero => cases h; exact run_cons hu 0
  | succ n ih =>
    cases hs : step s with
    | next v => rw [run_cons hs] at h ⊢; exact ih h
    | fault r => exact r.rec
    | refused r =>
      have hs : Sys2Proof.core.step s = .refused r := hs
      simp [Host.Core.run, hs] at h

/-! ## Buffers -/

/-- Every word of the loop's output fits the number of symbols asked for. -/
theorem decodeLoop_length_le (tab : List DEntry) (bits : List Bool) (left q l acc : Nat) :
    (decodeLoop tab bits left q l acc).out.length ≤ left := by
  induction bits generalizing left q l acc with
  | nil => cases left <;> simp [decodeLoop]
  | cons v bits ih =>
    cases left with
    | zero => simp [decodeLoop]
    | succ left =>
      simp only [decodeLoop]
      split
      · have := ih left (q + 1) 0 0
        simp only [Decoded.push, List.length_cons]
        omega
      · split
        · exact ih _ _ _ _
        · simp

/-- A loop that ends in an error emitted fewer symbols than asked for; one that ends at the reader's limit consumed every bit
(46_decoder.md R226). -/
theorem decodeLoop_error (tab : List DEntry) (bits : List Bool) (left q l acc : Nat)
    (h : (decodeLoop tab bits left q l acc).how ≠ .complete) :
    (decodeLoop tab bits left q l acc).out.length < left ∧
      ((decodeLoop tab bits left q l acc).how = .exhausted → (decodeLoop tab bits left q l acc).bits = q + bits.length) := by
  induction bits generalizing left q l acc with
  | nil => cases left <;> simp_all [decodeLoop]
  | cons v bits ih =>
    cases left with
    | zero => simp [decodeLoop] at h
    | succ left =>
      simp only [decodeLoop] at h ⊢
      split
      · rename_i e he
        simp only [he] at h
        have := ih left (q + 1) 0 0 (by simpa [Decoded.push] using h)
        simp only [Decoded.push, List.length_cons]
        refine ⟨by omega, fun h2 => ?_⟩
        have := this.2 h2
        omega
      · rename_i he
        simp only [he] at h
        split
        · rename_i hp
          simp only [hp, if_true] at h
          have := ih (left + 1) (q + 1) _ _ h
          refine ⟨this.1, fun h2 => ?_⟩
          have := this.2 h2
          simp only [List.length_cons]
          omega
        · simp

/-- Buffers that are as before are canonical as before. -/
theorem State.BuffersOk.congr {s t : State} (h : s.BuffersOk) (h1 : t.params = s.params) (h2 : t.ibuf = s.ibuf)
    (h3 : t.abuf = s.abuf) (h4 : t.obuf = s.obuf) : t.BuffersOk := by
  intro b
  have := h b
  cases b <;> simpa [State.buf, capOf, h1, h2, h3, h4] using this

/-- Writing a byte string that fits keeps the buffers canonical and within their capacities. -/
theorem State.BuffersOk.putBytes {s t : State} (h : s.BuffersOk) (b : Buf) (bs : List Byte) (hl : bs.length ≤ capOf s.params b)
    (ht : t.params = s.params) (e : ∀ b', t.buf b' = (s.putBytes b 0 bs).buf b') : t.BuffersOk := by
  intro b'
  rw [e b', ht]
  by_cases hb : b' = b
  · subst hb
    rw [State.buf_putBytes_same]
    exact ⟨Memory.wf_writeBytes (h b').1 _ _, Memory.within_writeBytes (h b').2 (by omega)⟩
  · rw [State.buf_putBytes_ne s hb]
    exact h b'

/-- What an aborted command could have written fits its buffer (70_reset_and_hazards.md R272). -/
theorem State.BuffersOk.scramble {s : State} (h : s.BuffersOk) (b : Buf) (n : Nat) (hn : n ≤ capOf s.params b) :
    (s.scramble b n).BuffersOk := by
  refine h.putBytes b ((List.range n).map fun i => Config.freeByte s.draws b i) (by simpa using hn) ?_ ?_
  · cases b <;> rfl
  · intro b'
    cases b <;> cases b' <;> rfl

theorem abufBytes_runEncode_le (s : State) : (runEncode s).abufBytes ≤ s.params.artMax := by
  rcases runEncode_cases s with ⟨e, h, _⟩ | ⟨_, ha, h⟩
  · rw [h]; exact Nat.zero_le _
  · rw [h]
    show (BitVec.ofNat 32 s.artifactSize).toNat ≤ _
    rw [BitVec.toNat_ofNat]
    exact le_trans (Nat.mod_le _ _) ha

theorem abufBytes_runCompress_le (s : State) : (runCompress s).abufBytes ≤ s.params.artMax := by
  unfold runCompress
  rcases runFreq_cases s with ⟨_, e, h, _⟩ | ⟨_, h⟩ <;> rw [h] <;> simp only [Result.andThen]
  · exact Nat.zero_le _
  rcases runBuild_cases s.afterFreq with ⟨_, e, h, _⟩ | ⟨_, h⟩ <;> rw [h] <;> simp only
  · exact Nat.zero_le _
  rcases runCanon_cases s.afterFreq.afterBuild with ⟨_, e, h, _⟩ | ⟨_, e, i, _, h, _⟩ | ⟨_, _, h⟩ <;> rw [h] <;> simp only
  · exact Nat.zero_le _
  · exact Nat.zero_le _
  exact abufBytes_runEncode_le s.afterFreq.afterBuild.afterCanon

theorem obufBytes_runDecode_le (s : State) : (runDecode s).obufBytes ≤ s.params.outMax := by
  have key : s.outLen.toNat ≤ s.params.outMax → (BitVec.ofNat 32 s.decoded.out.length).toNat ≤ s.params.outMax := by
    intro ho
    rw [BitVec.toNat_ofNat]
    exact le_trans (Nat.mod_le _ _) (le_trans (decodeLoop_length_le _ _ _ _ _ _) ho)
  rcases runDecode_cases s with ⟨e, h, _, h2⟩ | ⟨_, ho, e, h, _, h2⟩ | ⟨_, ho, _, h⟩
  · rw [h]; unfold Result.obufBytes; rcases h2 with ⟨_, h2⟩ | ⟨_, h2⟩ <;> simp [h2]
  · rw [h]; unfold Result.obufBytes; rcases h2 with ⟨_, h2⟩ | ⟨_, h2⟩ <;> simp only [h2] <;> exact key ho
  · rw [h]; exact key ho

theorem obufBytes_runDecompress_le (s : State) : (runDecompress s).obufBytes ≤ s.params.outMax := by
  unfold runDecompress
  rcases runLoadtab_cases s with ⟨_, e, he, h⟩ | ⟨_, h⟩ <;> rw [h] <;> simp only [Result.andThen]
  · have hk := (State.loadtabError_kind he).2
    have hz : ∀ (u : State) (e : Raise), e.kind ≠ .outOfRange → e.kind ≠ .noLeafPath → (Result.raised u e).obufBytes = 0 := by
      intro u e h1 h2
      unfold Result.obufBytes
      cases hk : e.kind <;> simp_all
    rw [hz _ _ (fun h1 => by rw [h1] at hk; simp at hk) (fun h1 => by rw [h1] at hk; simp at hk)]
    exact Nat.zero_le _
  · exact obufBytes_runDecode_le s.afterLoadtab

end Sys2Proof.Machine
end

