-- ==== Sys2Proof/Tests/Slice0.lean ====
section
/-! SUPPORT. Tests. Expected values come from the spec: words from the opcode map (30_encoding.md R91), results from
95_test_vectors.md and the worked examples (30_encoding.md R112, R116, 20_memory.md R68). -/

namespace Sys2Proof.Tests

open Sys2Proof Sys2Proof.Machine

set_option Elab.async false

/-! ## Helpers -/

/-- A memory that holds these bytes from index 0 on. -/
def memOf (bs : List Byte) : Memory := { cells := bs.zipIdx.map fun p => (p.2, p.1) }

/-- Reset, with these bytes in IBUF and their number in IN_LEN. -/
def inputState (bs : List Byte) : State :=
  { State.reset with ibuf := memOf bs, inLen := BitVec.ofNat 32 bs.length }

/-- Reset, with these bytes in ABUF and their number in ART_LEN. -/
def artState (bs : List Byte) : State :=
  { State.reset with abuf := memOf bs, artLen := BitVec.ofNat 32 bs.length }

/-- "aabbbcccc" (30_encoding.md R112). -/
def text9 : List Byte := [0x61, 0x61, 0x62, 0x62, 0x62, 0x63, 0x63, 0x63, 0x63]

/-- The artifact of "aabbbcccc" (30_encoding.md R112). -/
def artifact9 : List Byte :=
  [0x00, 0x00, 0x00, 0x09, 0x00, 0x03, 0x61, 0x02, 0x00, 0x00, 0x00, 0x02, 0x62, 0x02, 0x00, 0x00, 0x00, 0x03] ++
  [0x63, 0x01, 0x00, 0x00, 0x00, 0x00, 0xAF, 0xC0]

/-- The artifact of "aaaa" (45_encoder.md R198). -/
def artifactA : List Byte := [0x00, 0x00, 0x00, 0x04, 0x00, 0x01, 0x61, 0x01, 0x00, 0x00, 0x00, 0x00, 0x00]

/-- A table that is 0 but for these entries. -/
def tableOf {α : Type} (zero : α) (es : List (Nat × α)) : Vector α 256 :=
  tabulate 256 fun i => ((es.find? fun e => e.1 == i).map Prod.snd).getD zero

/-- The counts of "aabbbcccc" after FREQ. -/
def countedState : State :=
  { State.reset with
    freq := tableOf 0#32 [(0x61, 2#32), (0x62, 3#32), (0x63, 4#32)], valid := { freq := true, tree := false, code := false, dtab := false } }

/-- The lengths of "aabbbcccc" after BUILD. -/
def builtState : State :=
  { State.reset with
    len := tableOf 0#8 [(0x61, 2#8), (0x62, 2#8), (0x63, 1#8)], nsym := 3#9
    valid := { freq := true, tree := true, code := false, dtab := false } }

/-- The code table of "aabbbcccc", with its input in IBUF. -/
def codedState : State :=
  { inputState text9 with
    len := tableOf 0#8 [(0x61, 2#8), (0x62, 2#8), (0x63, 1#8)], code := tableOf 0#32 [(0x61, 2#32), (0x62, 3#32)], nsym := 3#9
    valid := { freq := true, tree := true, code := true, dtab := false } }

/-- The decode table of "aabbbcccc" after LOADTAB, with the artifact in ABUF. -/
def loadedState : State :=
  { artState artifact9 with
    dtab := tableOf DEntry.zero
      [(0, DEntry.mk true 0x61 2 2), (1, DEntry.mk true 0x62 2 3), (2, DEntry.mk true 0x63 1 0)]
    dtabN := 3#9, outLen := 9#32, payOff := 24#32, payBytes := 2#32
    valid := { freq := false, tree := false, code := false, dtab := true } }

/-! ## Decoding: every word of the opcode map written out from R90 and R91 -/

theorem test_decode_nop : decodeTableWord 32 0b00000000000000000000000000000000 = some .nop := by decide
theorem test_decode_clear : decodeTableWord 32 0b00000000000000000000000000000001 = some .clear := by decide
theorem test_decode_freq : decodeTableWord 32 0b00000000000000000000000000010000 = some .freq := by decide
theorem test_decode_build : decodeTableWord 32 0b00000000000000000000000000010001 = some .build := by decide
theorem test_decode_canon : decodeTableWord 32 0b00000000000000000000000000010010 = some .canon := by decide
theorem test_decode_encode : decodeTableWord 32 0b00000000000000000000000000010011 = some .encode := by decide
theorem test_decode_compress : decodeTableWord 32 0b00000000000000000000000000011111 = some .compress := by decide
theorem test_decode_loadtab : decodeTableWord 32 0b00000000000000000000000000100000 = some .loadtab := by decide
theorem test_decode_decode : decodeTableWord 32 0b00000000000000000000000000100001 = some .decode := by decide
theorem test_decode_decompress : decodeTableWord 32 0b00000000000000000000000000101111 = some .decompress := by decide
/-- An undefined opcode with reserved bits set is undefined first (R92; V-CTL). -/
theorem test_decode_undefined_first : decodeWord 0x00000130#32 = .error .undefinedOpc := rfl
theorem test_decode_reserved : decodeWord 0x80000021#32 = .error .reservedBits := rfl

/-! ## Well-formedness: an ill-formed term for each check -/

theorem test_wellFormed_instr : Instr.wellFormed .decode = true := by decide
theorem test_illFormed_word_opc : wordWellFormed 0x00000002#32 = false := by decide
theorem test_illFormed_word_rsvd : wordWellFormed 0x00000110#32 = false := by decide
theorem test_wellFormed_word : wordWellFormed 0x0000001F#32 = true := by decide
theorem test_wellFormed_params : Params.default.wellFormed = true := by decide
theorem test_illFormed_inMax_low : { Params.default with inMax := 0 }.wellFormed = false := by decide
theorem test_illFormed_inMax_high : { Params.default with inMax := 65537 }.wellFormed = false := by decide
theorem test_illFormed_artMax_low : { Params.default with artMax := 5 }.wellFormed = false := by decide
theorem test_illFormed_artMax_high : { Params.default with artMax := 131073 }.wellFormed = false := by decide
theorem test_illFormed_outMax_low : { Params.default with outMax := 0 }.wellFormed = false := by decide
theorem test_illFormed_outMax_high : { Params.default with outMax := 65537 }.wellFormed = false := by decide

/-! ## One step of each command -/

/-- NOP keeps ERR and clears EMPTY (R123). -/
theorem test_nop : ∃ t, exec .nop { State.reset with status := ⟨false, true, true, true⟩ } = .next t ∧
    t.statusWord = 0x0000000E#32 := ⟨_, rfl, by decide⟩

/-- CLEAR after an accepted word keeps CMD and leaves STATUS = 0x00000002 (R124). -/
theorem test_clear : ∃ t, exec .clear (loadedState.accept 1#32) = .next t ∧ t.statusWord = 0x00000002#32 ∧ t.cmd = 1#32 ∧
    t.validWord = 0#32 ∧ t.root = 0x1FF#9 ∧ t.dtabAt 2 = DEntry.zero ∧ t.abuf = memOf artifact9 :=
  ⟨_, rfl, by decide +kernel⟩

/-- V-FREQ-1. -/
theorem test_freq_counts : ∃ t, exec .freq (inputState text9) = .next t ∧
    t.freqAt 0x61 = 2#32 ∧ t.freqAt 0x62 = 3#32 ∧ t.freqAt 0x63 = 4#32 ∧ t.freqAt 0 = 0#32 ∧ t.validWord = 1#32 :=
  ⟨_, rfl, by decide +kernel⟩

/-- V-FREQ-3: IN_LEN = 65537. -/
theorem test_freq_overflow : ∃ t, exec .freq { State.reset with inLen := 65537#32 } = .next t ∧
    t.statusWord = 6#32 ∧ t.errCodeWord = 0x00100106#32 ∧ t.errs.info = 65537#32 ∧ t.errs.aux = 65536#32 :=
  ⟨_, rfl, by decide +kernel⟩

/-- V-BUILD-1: the words of the arena. -/
theorem test_build_arena : ∃ t, exec .build countedState = .next t ∧
    (t.nodeAt 0).links = 0x81840000#32 ∧ (t.nodeAt 3).w = 5#32 ∧ (t.nodeAt 3).links = 0x00000200#32 ∧
    (t.nodeAt 4).w = 9#32 ∧ (t.nodeAt 4).links = 0x00000602#32 ∧ t.lenAt 0x61 = 2#8 ∧ t.lenAt 0x63 = 1#8 ∧ t.root = 4#9 :=
  ⟨_, rfl, by decide +kernel⟩

/-- V-BUILD-3: "abcdd", the tie between the leaf d and the first internal node. -/
theorem test_build_tie : ∃ t,
    exec .build { countedState with freq := tableOf 0#32 [(0x61, 1#32), (0x62, 1#32), (0x63, 1#32), (0x64, 2#32)] } = .next t ∧
    t.lenAt 0x61 = 2#8 ∧ t.lenAt 0x62 = 2#8 ∧ t.lenAt 0x63 = 2#8 ∧ t.lenAt 0x64 = 2#8 :=
  ⟨_, rfl, by decide +kernel⟩

/-- V-CANON-1. -/
theorem test_canon_codes : ∃ t, exec .canon builtState = .next t ∧
    t.codeAt 0x61 = 2#32 ∧ t.codeAt 0x62 = 3#32 ∧ t.codeAt 0x63 = 0#32 ∧ t.validWord = 7#32 :=
  ⟨_, rfl, by decide +kernel⟩

/-- CODE_TOO_LONG names the lowest symbol with a length above 32 (R171). -/
theorem test_canon_tooLong : ∃ t, exec .canon { builtState with len := tableOf 0#8 [(7, 32#8), (9, 33#8), (10, 40#8)] } = .next t ∧
    t.errCodeWord = 0x00120007#32 ∧ t.errs.info = 9#32 ∧ t.errs.aux = 33#32 ∧ t.valid.code = false :=
  ⟨_, rfl, by decide +kernel⟩

/-- V-ENC-1. -/
theorem test_encode_artifact : ∃ t, exec .encode codedState = .next t ∧
    t.abuf = memOf artifact9 ∧ t.artLen = 26#32 ∧ t.payBits = 14#32 ∧ t.statusWord = 2#32 :=
  ⟨_, rfl, by decide +kernel⟩

/-- V-ENC-9: byte 3 is a symbol without a code. -/
theorem test_encode_unknown : ∃ t,
    exec .encode { codedState with ibuf := memOf [0x61, 0x61, 0x62, 0x64, 0x62, 0x63, 0x63, 0x63, 0x63] } = .next t ∧
    t.errCodeWord = 0x00130003#32 ∧ t.errs.info = 3#32 ∧ t.errs.aux = 0x64#32 ∧ t.abuf = memOf [] :=
  ⟨_, rfl, by decide +kernel⟩

/-- V-ENC-2: "aaaa". -/
theorem test_compress_single : ∃ t, exec .compress (inputState [0x61, 0x61, 0x61, 0x61]) = .next t ∧
    t.abuf = memOf artifactA ∧ t.artLen = 13#32 ∧ t.payBits = 4#32 ∧ t.validWord = 7#32 :=
  ⟨_, rfl, by decide +kernel⟩

/-- V-ENC-3: the empty input. -/
theorem test_compress_empty : ∃ t, exec .compress State.reset = .next t ∧
    t.abuf = memOf [0, 0, 0, 0, 0, 0] ∧ t.artLen = 6#32 ∧ t.statusWord = 0x00000012#32 :=
  ⟨_, rfl, by decide +kernel⟩

/-- V-LOAD-1. -/
theorem test_loadtab_commits : ∃ t, exec .loadtab (artState artifact9) = .next t ∧
    (t.dtabAt 2).info = 0x80000163#32 ∧ (t.dtabAt 0).info = 0x80000261#32 ∧ (t.dtabAt 0).code = 2#32 ∧
    t.dtabN = 3#9 ∧ t.outLen = 9#32 ∧ t.payOff = 24#32 ∧ t.payBytes = 2#32 ∧ t.validWord = 8#32 :=
  ⟨_, rfl, by decide +kernel⟩

/-- V-LOAD-8: entry 0's code is the beginning of entry 1's. -/
theorem test_loadtab_beginning : ∃ t,
    exec .loadtab (artState [0, 0, 0, 2, 0, 2, 0x61, 1, 0, 0, 0, 0, 0x62, 2, 0, 0, 0, 1, 0]) = .next t ∧
    t.errCodeWord = 0x00200702#32 ∧ t.errs.info = 0#32 ∧ t.errs.aux = 1#32 :=
  ⟨_, rfl, by decide +kernel⟩

/-- V-DEC-1, the DECODE step. -/
theorem test_decode_text : ∃ t, exec .decode loadedState = .next t ∧
    t.obuf = memOf text9 ∧ t.outCnt = 9#32 ∧ t.decBits = 14#32 ∧ t.statusWord = 2#32 :=
  ⟨_, rfl, by decide +kernel⟩

/-- V-DEC-4: one payload byte short. -/
theorem test_decode_exhausted : ∃ t, exec .decode { loadedState with payBytes := 1#32 } = .next t ∧
    t.errCodeWord = 0x00210001#32 ∧ t.errs.info = 4#32 ∧ t.errs.aux = 8#32 ∧ t.obuf = memOf [0x61, 0x61, 0x62, 0x62] ∧
    t.outCnt = 4#32 :=
  ⟨_, rfl, by decide +kernel⟩

/-- V-DEC-2. -/
theorem test_decompress_single : ∃ t, exec .decompress (artState artifactA) = .next t ∧
    t.obuf = memOf [0x61, 0x61, 0x61, 0x61] ∧ t.decBits = 4#32 ∧ t.payBytes = 1#32 :=
  ⟨_, rfl, by decide +kernel⟩

/-- V-DEC-5: a bit path with no leaf. -/
theorem test_decompress_noLeaf : ∃ t, exec .decompress (artState (artifactA.dropLast ++ [0x80])) = .next t ∧
    t.errCodeWord = 0x00210802#32 ∧ t.errs.info = 0#32 ∧ t.errs.aux = 1#32 :=
  ⟨_, rfl, by decide +kernel⟩

/-! ## Bus, interrupt, reset, program notation -/

/-- 20_memory.md R68. -/
theorem test_bus_header : (artState artifact9).readData 0x20000#32 = 0x09000000#32 := by decide +kernel

/-- A dropped IN_LEN write during BUSY sets OVR (V-HZ-1). -/
theorem test_busy_drop : (hostWrite ((inputState [0x61]).accept 0x1F#32) 0x020#32 9#32 0xF#4).statusWord = 0x00000009#32 ∧
    (hostWrite ((inputState [0x61]).accept 0x1F#32) 0x020#32 9#32 0xF#4).inLen = 1#32 := by decide +kernel

/-- 30_encoding.md R116. -/
theorem test_put_expands : (Stmt.put .ibuf 0 [0x61, 0x61, 0x62, 0x62, 0x62]).events 0#32 =
    [.hostWrite 0x10000#32 0x62626161#32 0xF#4, .hostWrite 0x10004#32 0x00000062#32 0x1#4] := by decide

/-- P4 (95_test_vectors.md): a completion that falls before SETLEN 9 lets it take effect (log entry 12). -/
theorem test_completion_before_setlen : ∃ t,
    Sys2Proof.core.run 3 (State.reset.withProgram [.cmd .nop, .coreStep, .setlen 9#32]) = .next t ∧
    t.inLen = 9#32 ∧ t.status.ovr = false := ⟨_, rfl, by decide⟩

/-- P4: a completion behind SETLEN 9 drops it and sets OVR. -/
theorem test_completion_after_setlen : ∃ t,
    Sys2Proof.core.run 3 (State.reset.withProgram [.cmd .nop, .setlen 9#32, .coreStep]) = .next t ∧
    t.inLen = 0#32 ∧ t.status.ovr = true := ⟨_, rfl, by decide⟩

/-- IRQ is a level of DONE and DONE_IE (10_state.md R58). -/
theorem test_irq : ∃ t, exec .nop { State.reset with ie := ⟨true, false⟩ } = .next t ∧ t.irq = true ∧
    ({ t with ie := ⟨false, true⟩ } : State).irq = false := ⟨_, rfl, by decide⟩

/-- A word placed right after reset is the very next step. -/
theorem test_step_first : step (State.reset.withFetchWord 32 0x00000011) = exec .build (State.reset.accept 0x11#32) := rfl

/-! ## Witnesses: states and operands that meet the hypotheses of each statement of Certificates/Slice0/Obligations.lean, each
clause at a boundary value -/

/-- A decode of a well-formed instruction. -/
theorem witness_DecodingInvertsEncoding : Instr.wellFormed .decompress = true ∧ decodeWord 0x2F#32 = .ok .decompress :=
  ⟨rfl, rfl⟩

/-- One word of each class: the last undefined opcode, the lowest reserved bit, the last opcode of the map. -/
theorem witness_WordsAreClassifiedInOrder :
    decodeWord 0x000000FF#32 = .error .undefinedOpc ∧ decodeWord 0x00000100#32 = .error .reservedBits ∧
    decodeWord 0x0000002F#32 = .ok .decompress := ⟨rfl, rfl, rfl⟩

theorem witness_IllegalWordCompletesWithItsError :
    decodeWord 0x00000002#32 = .error .undefinedOpc ∧ decodeWord 0xFF000013#32 = .error .reservedBits := ⟨rfl, rfl⟩

theorem witness_StepRunsTheAcceptedCommand :
    (State.reset.accept 0x10#32).phase = .busy 0x10#32 ∧ (State.reset.accept 0x10#32).agenda = [] ∧
    decodeWord 0x10#32 = .ok .freq ∧ (State.reset.withFetchWord 32 0x10).agenda = [.coreTurn] := ⟨rfl, rfl, rfl, rfl⟩

/-- A read, a write and a reset at the head of the agenda. -/
theorem witness_StepTakesTheNextEvent :
    ({ State.reset with agenda := [.hostRead 0x008#32] } : State).agenda = .hostRead 0x008#32 :: [] ∧
    (∃ t, step { State.reset with agenda := [.hostWrite 0x004#32 1#32 0xF#4] } = .next t ∧ t.phase = .busy 1#32 ∧ t.agenda = []) ∧
    (∃ t, step { loadedState with agenda := [.reset true] } = .next t ∧ t.valid.dtab = false) :=
  ⟨rfl, ⟨_, rfl, rfl, rfl⟩, _, rfl, rfl⟩

theorem witness_CommandWriteIsAccepted : State.reset.phase = .idle ∧ (0x7#4 : Strobe) ≠ 0xF#4 ∧
    (State.reset.accept 0x10#32).phase = .busy 0x10#32 := by decide

theorem witness_IdleCoreStandsStill : State.reset.phase = .idle ∧ State.reset.agenda = [] ∧
    ({ State.reset with agenda := [.coreTurn] } : State).phase = .idle := ⟨rfl, rfl, rfl⟩

theorem witness_FreqCountsTheInput :
    ({ State.reset with inLen := 65537#32 } : State).params.inMax < ({ State.reset with inLen := 65537#32 } : State).inLen.toNat ∧
    ({ State.reset with inLen := 65536#32 } : State).inLen.toNat ≤ ({ State.reset with inLen := 65536#32 } : State).params.inMax := by
  decide

theorem witness_FreqTotalsTheInputLength :
    (inputState text9).inLen.toNat ≤ (inputState text9).params.inMax ∧ ∃ t, exec .freq (inputState text9) = .next t :=
  ⟨by decide, _, rfl⟩

/-- A frequency table with every symbol present. -/
def everySymbol : State := { countedState with freq := Vector.replicate 256 1#32 }

/-- No frequency table; K = 3 present symbols. -/
theorem witness_BuildCompletesOrReports :
    State.reset.valid.freq = false ∧ countedState.valid.freq = true ∧
    3 = ((List.range 256).filter fun i => 0 < (countedState.freqAt i).toNat).length := by decide +kernel

/-- The bounds K = 0 and K = 256. -/
theorem witness_BuildCompletesOrReports_bounds :
    0 = ((List.range 256).filter fun i => 0 < (State.reset.freqAt i).toNat).length ∧ everySymbol.valid.freq = true ∧
    256 = ((List.range 256).filter fun i => 0 < (everySymbol.freqAt i).toNat).length := by
  have h0 : ∀ i, State.reset.freqAt i = 0#32 := fun i => by
    by_cases h : i < 256 <;> simp [State.freqAt, State.reset, h]
  have h1 : ∀ i ∈ List.range 256, decide (0 < (everySymbol.freqAt i).toNat) = true := fun i hi => by
    simp [State.freqAt, everySymbol, List.mem_range.1 hi]
  refine ⟨by simp [h0], rfl, ?_⟩
  rw [List.filter_eq_self.2 h1, List.length_range]

theorem witness_BuildLaysOutTheArena :
    countedState.valid.freq = true ∧ (∃ t, exec .build countedState = .next t) ∧
    [0x61, 0x62, 0x63] = ((List.range 256).filter fun i => 0 < (countedState.freqAt i).toNat) :=
  ⟨rfl, ⟨_, rfl⟩, by decide +kernel⟩

/-- The last combination of three leaves: u = 1. -/
theorem witness_BuildCombinesTheTwoLeast :
    countedState.valid.freq = true ∧ (∃ t, exec .build countedState = .next t) ∧
    3 = ((List.range 256).filter fun i => 0 < (countedState.freqAt i).toNat).length ∧ 1 + 1 < 3 :=
  ⟨rfl, ⟨_, rfl⟩, by decide +kernel⟩

/-- One symbol, and two: the least K with a tree of depth. -/
theorem witness_BuildLengthsAreLeafDepths :
    (∃ t, exec .build { countedState with freq := tableOf 0#32 [(0xFF, 1#32)] } = .next t) ∧
    [0xFF] = ((List.range 256).filter fun i =>
      0 < (({ countedState with freq := tableOf 0#32 [(0xFF, 1#32)] } : State).freqAt i).toNat) ∧
    (∃ t, exec .build { countedState with freq := tableOf 0#32 [(0, 1#32), (0xFF, 1#32)] } = .next t) ∧
    [0, 0xFF] = ((List.range 256).filter fun i =>
      0 < (({ countedState with freq := tableOf 0#32 [(0, 1#32), (0xFF, 1#32)] } : State).freqAt i).toNat) :=
  ⟨⟨_, rfl⟩, by decide +kernel, ⟨_, rfl⟩, by decide +kernel⟩

/-- No tree; a length of 33 at symbol 4; every length at most 32, with one of 32. -/
theorem witness_CanonCompletesOrReports :
    State.reset.valid.tree = false ∧ builtState.valid.tree = true ∧
    (32 < (({ builtState with len := tableOf 0#8 [(3, 32#8), (4, 33#8)] } : State).lenAt 4).toNat ∧
      ∀ j < 4, (({ builtState with len := tableOf 0#8 [(3, 32#8), (4, 33#8)] } : State).lenAt j).toNat ≤ 32) ∧
    ∀ i < 256, (({ builtState with len := tableOf 0#8 [(254, 32#8)] } : State).lenAt i).toNat ≤ 32 := by decide +kernel

theorem witness_CanonAssignsCanonicalCodes :
    builtState.valid.tree = true ∧ (∀ i < 256, (builtState.lenAt i).toNat ≤ 32) ∧ ∃ t, exec .canon builtState = .next t :=
  ⟨rfl, by decide +kernel, _, rfl⟩

theorem witness_CanonicalCodesArePrefixFree : countedState.valid.freq = true ∧
    ∃ t u, exec .build countedState = .next t ∧ (∀ i < 256, (t.lenAt i).toNat ≤ 32) ∧ exec .canon t = .next u :=
  ⟨rfl, _, _, rfl, by decide +kernel, rfl⟩

theorem witness_PackedBitsPositions : packBits [true, false, true, true, true, true, true, true, true] = [0xBF#8, 0x80#8] := by
  decide

theorem witness_WriterLeavesPackedBits : (memOf text9).wf := by decide

/-- The last bit of two payload bytes. -/
theorem witness_ReaderReturnsTheWrittenBits : 15 < 8 * 2 := by decide

/-- The coded input on a build with this ART_MAX. -/
def smallState (artMax : Nat) : State := { codedState with params := { Params.default with artMax := artMax } }

/-- The coded input with a last byte that has no code. -/
def strangeState : State := { codedState with ibuf := memOf [0x61, 0x61, 0x62, 0x62, 0x62, 0x63, 0x63, 0x63, 0x64] }

/-- An artifact that fills ABUF to its last byte: T = ART_MAX = 26. -/
theorem witness_EncodeWritesTheArtifact :
    (smallState 26).valid.code = true ∧ (smallState 26).inLen.toNat ≤ (smallState 26).params.inMax ∧
    (∀ k < (smallState 26).inLen.toNat, (smallState 26).lenAt ((smallState 26).byteAt .ibuf k).toNat ≠ 0#8) ∧
    [0x61, 0x62, 0x63] = ((List.range 256).filter fun i => (smallState 26).lenAt i ≠ 0#8) ∧
    14 = ((List.range (smallState 26).inLen.toNat).map fun k =>
      ((smallState 26).lenAt ((smallState 26).byteAt .ibuf k).toNat).toNat).sum ∧
    26 = 6 + 6 * [0x61, 0x62, 0x63].length + (14 + 7) / 8 ∧ 26 ≤ (smallState 26).params.artMax := by decide +kernel

/-- No code table; IN_LEN one past IN_MAX; an unknown byte at the last index; an artifact one byte past ART_MAX. -/
theorem witness_EncodeReportsItsFirstError :
    State.reset.valid.code = false ∧
    ({ codedState with inLen := 65537#32 } : State).params.inMax < ({ codedState with inLen := 65537#32 } : State).inLen.toNat ∧
    (strangeState.valid.code = true ∧ strangeState.lenAt (strangeState.byteAt .ibuf 8).toNat = 0#8 ∧
      ∀ j < 8, strangeState.lenAt (strangeState.byteAt .ibuf j).toNat ≠ 0#8) ∧
    ((smallState 25).valid.code = true ∧
      (∀ k < (smallState 25).inLen.toNat, (smallState 25).lenAt ((smallState 25).byteAt .ibuf k).toNat ≠ 0#8) ∧
      (smallState 25).params.artMax < 26) := by
  decide +kernel

theorem witness_ArtifactDependsOnOperandsOnly :
    (∃ t, exec .encode codedState = .next t ∧ t.status.err = false) ∧
    (∃ t, exec .encode { codedState with abuf := memOf text9, obuf := memOf text9 } = .next t ∧ t.status.err = false) ∧
    codedState.status.err = false := ⟨⟨_, rfl, by decide +kernel⟩, ⟨_, rfl, by decide +kernel⟩, rfl⟩

theorem witness_PipelineErrorsArePrecise :
    Instr.build ∈ [Instr.freq, .build, .canon, .encode] ∧ ∃ t, exec .build State.reset = .next t ∧ t.status.err = true :=
  ⟨by decide, _, rfl, by decide⟩

theorem witness_StoredTableOk : (artState artifact9).StoredTableOk := by
  refine ⟨by decide +kernel, by decide +kernel, by decide +kernel, by decide +kernel, by decide +kernel, ?_, by decide +kernel⟩
  intro j hj
  have h3 : (artState artifact9).memRead .abuf 4 2 = 3 := by decide +kernel
  rw [h3] at hj
  have : j < 2 := by omega
  interval_cases j <;> decide +kernel

/-- The empty artifact: six bytes, no entry, the least that passes. -/
theorem witness_StoredTableOk_empty : (artState [0, 0, 0, 0, 0, 0]).StoredTableOk := by
  refine ⟨by decide +kernel, by decide +kernel, by decide +kernel, by decide +kernel, by decide +kernel, ?_, by decide +kernel⟩
  intro j hj
  have h0 : (artState [0, 0, 0, 0, 0, 0]).memRead .abuf 4 2 = 0 := by decide +kernel
  omega

/-- Five bytes: one short of a header. -/
theorem witness_not_StoredTableOk : ¬ (artState [0, 0, 0, 0, 0]).StoredTableOk := fun h => absurd h.2.1 (by decide +kernel)

theorem witness_CompositeCommandsRunTheirSteps :
    (∃ a b c, exec .freq (inputState text9) = .next a ∧ exec .build a = .next b ∧ exec .canon b = .next c) ∧
    ∃ a, exec .loadtab (artState artifact9) = .next a := ⟨⟨_, _, _, rfl, rfl, rfl⟩, _, rfl⟩

/-- The largest input of the default build, in an ABUF of exactly the bound. -/
def fullState : State :=
  { State.reset with inLen := 65536#32, params := { Params.default with artMax := 67078 } }

theorem witness_CompressSucceeds : fullState.params.wellFormed = true ∧ fullState.inLen.toNat ≤ fullState.params.inMax ∧
    6 + 6 * 256 + fullState.inLen.toNat ≤ fullState.params.artMax := by decide

theorem witness_LoadtabCommits : (artState artifact9).StoredTableOk ∧ 3 = (artState artifact9).memRead .abuf 4 2 :=
  ⟨witness_StoredTableOk, by decide +kernel⟩

theorem witness_LoadtabErrorKeepsTheTable : ¬ (artState [0, 0, 0, 0, 0]).StoredTableOk := witness_not_StoredTableOk

/-- ART_LEN one past ART_MAX; five bytes; a count of 257; one byte short of one entry. -/
theorem witness_LoadtabChecksLengthsInOrder :
    ({ State.reset with artLen := 131073#32 } : State).params.artMax <
      ({ State.reset with artLen := 131073#32 } : State).artLen.toNat ∧
    (artState [0, 0, 0, 0, 0]).artLen.toNat < 6 ∧
    256 < (artState [0, 0, 0, 0, 1, 1]).memRead .abuf 4 2 ∧ 6 ≤ (artState [0, 0, 0, 0, 1, 1]).artLen.toNat ∧
    (artState [0, 0, 0, 0, 0, 1, 0x61, 1, 0, 0, 0]).memRead .abuf 4 2 = 1 ∧
    (artState [0, 0, 0, 0, 0, 1, 0x61, 1, 0, 0, 0]).artLen.toNat < 6 + 6 * 1 := by decide +kernel

/-- A bad entry 1 behind a good entry 0: length 33, a code of 2^1, an equal symbol. -/
theorem witness_LoadtabReportsTheFirstBadEntry :
    let good : List Byte := [0, 0, 0, 0, 0, 2, 0x61, 1, 0, 0, 0, 0]
    let s1 := artState (good ++ [0x62, 33, 0, 0, 0, 0])
    let s2 := artState (good ++ [0x62, 1, 0, 0, 0, 2])
    let s3 := artState (good ++ [0x61, 1, 0, 0, 0, 1])
    2 = s1.memRead .abuf 4 2 ∧ 6 + 6 * 2 ≤ s1.artLen.toNat ∧
    (1 ≤ (s1.tabEntry 0).len ∧ (s1.tabEntry 0).len ≤ 32 ∧ (s1.tabEntry 0).code < 2 ^ (s1.tabEntry 0).len) ∧
    32 < (s1.tabEntry 1).len ∧ 2 ^ (s2.tabEntry 1).len ≤ (s2.tabEntry 1).code ∧
    (s3.tabEntry 1).code < 2 ^ (s3.tabEntry 1).len ∧ (s3.tabEntry 1).sym ≤ (s3.tabEntry 0).sym := by decide +kernel

/-- V-LOAD-8: entry 0 = (1, 0) is a prefix of entry 1 = (2, 1). -/
theorem witness_LoadtabReportsTheFirstPrefixPair :
    let s := artState [0, 0, 0, 2, 0, 2, 0x61, 1, 0, 0, 0, 0, 0x62, 2, 0, 0, 0, 1, 0]
    s.artLen.toNat ≤ s.params.artMax ∧ 6 ≤ s.artLen.toNat ∧ 2 = s.memRead .abuf 4 2 ∧ 6 + 6 * 2 ≤ s.artLen.toNat ∧
    (∀ i < 2, 1 ≤ (s.tabEntry i).len ∧ (s.tabEntry i).len ≤ 32 ∧ (s.tabEntry i).code < 2 ^ (s.tabEntry i).len) ∧
    (s.tabEntry 0).sym < (s.tabEntry 1).sym ∧ (s.tabEntry 0).len ≤ (s.tabEntry 1).len ∧
    (s.tabEntry 1).code >>> ((s.tabEntry 1).len - (s.tabEntry 0).len) = (s.tabEntry 0).code := by decide +kernel

/-- The table entries of "aabbbcccc" in input order. -/
def entries9 : List Nat := [0, 0, 1, 1, 1, 2, 2, 2, 2]

theorem witness_DecodeEmitsTheCodedSymbols :
    loadedState.valid.dtab = true ∧ loadedState.outLen.toNat ≤ loadedState.params.outMax ∧ loadedState.dtabN.toNat ≤ 256 ∧
    (∀ j < loadedState.dtabN.toNat, 1 ≤ (loadedState.dtabAt j).len.toNat ∧
      (loadedState.dtabAt j).code.toNat < 2 ^ (loadedState.dtabAt j).len.toNat) ∧
    (∀ j < loadedState.dtabN.toNat, ∀ k < loadedState.dtabN.toNat, j ≠ k →
      codePrefix (loadedState.dtabAt j).len.toNat (loadedState.dtabAt j).code.toNat (loadedState.dtabAt k).len.toNat
        (loadedState.dtabAt k).code.toNat = false) ∧
    entries9.length = loadedState.outLen.toNat ∧ (∀ j ∈ entries9, j < loadedState.dtabN.toNat) ∧
    entries9.flatMap (fun j => codeBits (loadedState.dtabAt j).len.toNat (loadedState.dtabAt j).code.toNat) <+:
      unpackBits (loadedState.bytesAt .abuf loadedState.payOff.toNat loadedState.payBytes.toNat) := by decide +kernel

/-- No table; OUT_LEN one past OUT_MAX; OUT_LEN = 0. -/
theorem witness_DecodeChecksBeforeTheLoop :
    State.reset.valid.dtab = false ∧ loadedState.valid.dtab = true ∧
    ({ loadedState with outLen := 65537#32 } : State).params.outMax <
      ({ loadedState with outLen := 65537#32 } : State).outLen.toNat ∧
    ({ loadedState with outLen := 0#32 } : State).outLen = 0#32 := by decide

/-- A payload one byte short, and an empty table with a payload bit. -/
theorem witness_DecodeErrorKeepsPartialOutput :
    loadedState.outLen.toNat ≤ loadedState.params.outMax ∧ loadedState.status.err = false ∧
    (∃ t, exec .decode { loadedState with payBytes := 1#32 } = .next t ∧ t.status.err = true ∧ t.errs.code = 0x01#8) ∧
    (∃ t, exec .decode { loadedState with dtabN := 0#9 } = .next t ∧ t.status.err = true ∧ t.errs.sub = 0x08#8) :=
  ⟨by decide, rfl, ⟨_, rfl, by decide +kernel⟩, ⟨_, rfl, by decide +kernel⟩⟩

/-- The table of "aabbbcccc" with one payload byte. -/
def oneByte (b : Byte) : State := { loadedState with abuf := memOf [b], payOff := 0#32, payBytes := 1#32 }

/-- The code of an entry of a state's decode table, as bits. -/
def codeOf (s : State) (j : Nat) : List Bool := codeBits (s.dtabAt j).len.toNat (s.dtabAt j).code.toNat

/-- OUT_OF_RANGE: 0xAF is the codes 10, 10, 11, 11; 0x01 is seven codes 0 and the beginning 1 of 10. -/
theorem witness_DecodeErrorKeepsPartialOutput_outOfRange :
    (∀ j < 3, ∀ k < 3, j ≠ k → codePrefix (loadedState.dtabAt j).len.toNat (loadedState.dtabAt j).code.toNat
      (loadedState.dtabAt k).len.toNat (loadedState.dtabAt k).code.toNat = false) ∧
    (∀ j < 3, 1 ≤ (loadedState.dtabAt j).len.toNat ∧ (loadedState.dtabAt j).code.toNat < 2 ^ (loadedState.dtabAt j).len.toNat) ∧
    unpackBits ((oneByte 0xAF#8).bytesAt .abuf 0 1) = [0, 0, 1, 1].flatMap (codeOf (oneByte 0xAF#8)) ++ [] ∧
    unpackBits ((oneByte 0x01#8).bytesAt .abuf 0 1) = [2, 2, 2, 2, 2, 2, 2].flatMap (codeOf (oneByte 0x01#8)) ++ [true] ∧
    [true] <+: codeOf (oneByte 0x01#8) 0 ∧ [2, 2, 2, 2, 2, 2, 2].length < (oneByte 0x01#8).outLen.toNat := by decide +kernel

/-- A table of the one code 00, and the payload 0001…: one code, the beginning 0, then a bit with which no code begins. -/
def loneCode : State := { oneByte 0x10#8 with dtab := tableOf DEntry.zero [(0, DEntry.mk true 0x61 2 0)], dtabN := 1#9 }

theorem witness_DecodeErrorKeepsPartialOutput_noLeaf :
    [0].flatMap (codeOf loneCode) ++ [false] ++ [true] <+: unpackBits (loneCode.bytesAt .abuf 0 1) ∧
    ([false] <+: codeOf loneCode 0 ∧ [false].length < (loneCode.dtabAt 0).len.toNat) ∧
    (∀ j < loneCode.dtabN.toNat, ¬ [false] ++ [true] <+: codeOf loneCode j) ∧ [0].length < loneCode.outLen.toNat := by decide +kernel

theorem witness_DecompressEmitsTheStoredSymbols :
    (artState artifact9).params.wellFormed = true ∧ (artState artifact9).StoredTableOk ∧
    (3 = (artState artifact9).memRead .abuf 4 2 ∧
      (artState artifact9).memRead .abuf 0 4 ≤ (artState artifact9).params.outMax ∧
      entries9.length = (artState artifact9).memRead .abuf 0 4 ∧ (∀ j ∈ entries9, j < 3) ∧
      entries9.flatMap (fun j => codeBits ((artState artifact9).tabEntry j).len ((artState artifact9).tabEntry j).code) <+:
        unpackBits ((artState artifact9).bytesAt .abuf (6 + 6 * 3) ((artState artifact9).artLen.toNat - (6 + 6 * 3)))) :=
  ⟨by decide, witness_StoredTableOk, by decide +kernel⟩

theorem witness_CompressedInputRoundTrips :
    fullState.params.wellFormed = true ∧ fullState.phase = .idle ∧ fullState.status.err = false ∧
    fullState.inLen.toNat ≤ fullState.params.inMax ∧ fullState.inLen.toNat ≤ fullState.params.outMax ∧
    6 + 6 * 256 + fullState.inLen.toNat ≤ fullState.params.artMax := by decide

/-- The three kinds of a storing write; for the buffers the last byte of each. -/
theorem witness_BusyDropsStoringWrites :
    (State.reset.accept 0#32).phase = .busy 0#32 ∧
    (0x027#32 &&& 0xFFFFFFFC#32) ∈ [0x004#32, 0x020#32, 0x024#32] ∧
    ((0x8#4).getLsbD 3 = true ∧ (0x1FFFC#32 &&& 0xFFFFFFFC#32).toNat < 0x20000 ∧
      (0x1FFFC#32 &&& 0xFFFFFFFC#32).toNat - 0x10000 + 3 < State.reset.params.inMax) ∧
    ((0x8#4).getLsbD 3 = true ∧ (0x3FFFC#32 &&& 0xFFFFFFFC#32).toNat < 0x40000 ∧
      (0x3FFFC#32 &&& 0xFFFFFFFC#32).toNat - 0x20000 + 3 < State.reset.params.artMax) := by decide

/-- One address of each kind, at an end of its range; the buffer lanes at the capacity 65533 of a small IBUF and 131069 of a
small ABUF. -/
theorem witness_OtherWritesChangeNothing :
    (0x3FC < 0x400 ∧ (0x7#4 : Strobe) ≠ 0xF#4) ∧ (0x000 < 0x400 ∧ 0x000 ∉ [0x004, 0x008, 0x00C, 0x020, 0x024]) ∧
    (0x400 ≤ 0xFFFC ∧ 0xFFFC < 0x10000) ∧ 0x40000 ≤ (0x40000#32 &&& 0xFFFFFFFC#32).toNat ∧
    (0x1FFFC < 0x20000 ∧ ∀ k < 4, (0xE#4).getLsbD k = true → 65533 ≤ 0x1FFFC - 0x10000 + k) ∧
    (0x3FFFC < 0x40000 ∧ ∀ k < 4, (0xE#4).getLsbD k = true → 131069 ≤ 0x3FFFC - 0x20000 + k) := by decide

theorem witness_BufferWritesSetEnabledLanes :
    State.reset.phase = .idle ∧ (Buf.ibuf, 0x10000, 0x20000) ∈ [(Buf.ibuf, 0x10000, 0x20000), (Buf.abuf, 0x20000, 0x40000)] ∧
    0x1FFFC = (0x1FFFF#32 &&& 0xFFFFFFFC#32).toNat ∧ 0x10000 ≤ 0x1FFFC ∧ 0x1FFFC < 0x20000 ∧
    0x4FFFC = (0x4FFFF#32 &&& 0xFFFFFFFC#32).toNat ∧ 0x40000 ≤ 0x4FFFC ∧ 0x4FFFC < 0x50000 := by decide

theorem witness_BufferReadsAreLittleEndian :
    State.reset.phase = .idle ∧ (Buf.obuf, 0x40000, 0x50000) ∈
      [(Buf.ibuf, 0x10000, 0x20000), (Buf.abuf, 0x20000, 0x40000), (Buf.obuf, 0x40000, 0x50000)] ∧
    0x4FFFC = (0x4FFFD#32 &&& 0xFFFFFFFC#32).toNat ∧ 0x40000 ≤ 0x4FFFC ∧ 0x4FFFC < 0x50000 ∧ 3 < 4 := by decide

/-- Each kind of location, at the ends of its range: reserved, exact during BUSY, and drawn during BUSY. -/
theorem witness_ReadsHaveNoSideEffect :
    State.reset.phase = .idle ∧ (State.reset.accept 0x1F#32).phase = .busy 0x1F#32 ∧
    0x06C = (0x06F#32 &&& 0xFFFFFFFC#32).toNat ∧ 0x3FC = (0x3FF#32 &&& 0xFFFFFFFC#32).toNat ∧
    (∀ wa ∈ [0x01C, 0x3FC], wa < 0x400 ∧ wa ∉ [0x000, 0x004, 0x008, 0x00C, 0x010, 0x014, 0x018, 0x020, 0x024, 0x028, 0x02C, 0x030,
      0x034, 0x038, 0x03C, 0x040, 0x044, 0x048, 0x04C, 0x050, 0x060, 0x064, 0x068, 0x06C]) ∧
    (∀ wa ∈ [0xD00, 0xFFC], 0xD00 ≤ wa ∧ wa < 0x1000) ∧ (∀ wa ∈ [0x2800, 0xFFFC], 0x2800 ≤ wa ∧ wa < 0x10000) ∧
    0x50000 ≤ (0x50000#32 &&& 0xFFFFFFFC#32).toNat ∧
    (∀ wa ∈ [0x400, 0xCFC], 0x400 ≤ wa ∧ wa < 0xD00) ∧ (∀ wa ∈ [0x1000, 0x27FC], 0x1000 ≤ wa ∧ wa < 0x2800) ∧
    (∀ wa ∈ [0x10000, 0x4FFFC], 0x10000 ≤ wa ∧ wa < 0x50000) := by decide

theorem witness_RegisterWritesTakeEffect : State.reset.phase = .idle := rfl

theorem witness_RegistersReadTheirFields : State.reset.phase = .idle := rfl

theorem witness_TableWindowsReadTheirEntries : State.reset.phase = .idle ∧ 255 < 256 ∧ 510 < 511 := by decide

theorem witness_IrqIsALevel : ∃ t, exec .clear { loadedState with ie := ⟨true, true⟩ } = .next t := ⟨_, rfl⟩

theorem witness_ResetEventResetsTheCore : loadedState.phase = .idle := rfl

/-- A reset in the middle of an ENCODE that would succeed and of one that would fail; of a DECODE that would succeed, of one that would
fail in the loop and of one that would fail before it; and of a command that writes no buffer. -/
theorem witness_ResetDuringCommandTouchesItsOutputOnly :
    (codedState.accept 0x13#32).phase = .busy 0x13#32 ∧
    (∃ u, completeWord 0x13#32 (codedState.accept 0x13#32) = .next u ∧ u.status.err = false ∧ u.artLen = 26#32) ∧
    (∃ u, completeWord 0x13#32 (strangeState.accept 0x13#32) = .next u ∧ u.status.err = true) ∧
    (∃ u, completeWord 0x21#32 (loadedState.accept 0x21#32) = .next u ∧ u.status.err = false ∧ u.outCnt = 9#32) ∧
    (∃ u, completeWord 0x21#32 ((oneByte 0xAF#8).accept 0x21#32) = .next u ∧ u.status.err = true ∧ u.outCnt = 4#32 ∧
      u.errs.step = 0x21#8 ∧ u.errs.code = 0x01#8) ∧
    (∃ u, completeWord 0x21#32 (State.reset.accept 0x21#32) = .next u ∧ u.status.err = true ∧ u.errs.code = 0x05#8) ∧
    0x10#32 ∉ [0x13#32, 0x1F#32] ∧ 0x10#32 ∉ [0x21#32, 0x2F#32] := by
  refine ⟨rfl, ⟨_, rfl, ?_⟩, ⟨_, rfl, ?_⟩, ⟨_, rfl, ?_⟩, ⟨_, rfl, ?_⟩, ⟨_, rfl, ?_⟩, ?_⟩ <;> decide +kernel

theorem witness_RunCompletesItsCommand : (inputState text9).phase = .idle ∧ (inputState text9).agenda = [] ∧
    ∃ v, exec .freq ((inputState text9).accept (encode .freq)) = .next v := ⟨rfl, rfl, _, rfl⟩

/-- Five bytes that end at the last byte of IBUF, and none at its end. -/
theorem witness_PutStoresItsBytes : State.reset.params.wellFormed = true ∧ State.reset.phase = .idle ∧ State.reset.agenda = [] ∧
    Buf.ibuf ∈ [Buf.ibuf, Buf.abuf] ∧ 65531 + [0x61#8, 0x61#8, 0x62#8, 0x62#8, 0x62#8].length ≤ capOf State.reset.params .ibuf ∧
    65536 + ([] : List Byte).length ≤ capOf State.reset.params .ibuf := by decide

theorem witness_StepKeepsBuffersCanonical : (inputState text9).BuffersOk ∧ ∃ t, step (inputState text9) = .next t :=
  ⟨fun b => by cases b <;> decide, _, rfl⟩

theorem witness_StepKeepsPhaseCoherent : (State.reset.accept 0x10#32).PhaseOk ∧ ∃ t, step (State.reset.accept 0x10#32) = .next t :=
  ⟨fun w h => by cases h; exact ⟨rfl, rfl⟩, _, rfl⟩

/-- The registers of a finished BUILD and CANON: K = 3, NNODES = 5, ROOT = 4. -/
theorem witness_StepKeepsPipelineState :
    ({ codedState with nnodes := 5#9, root := 4#9 } : State).ValidChain ∧
    ({ codedState with nnodes := 5#9, root := 4#9 } : State).TreeRegsOk ∧
    ({ codedState with nnodes := 5#9, root := 4#9 } : State).LengthsOk ∧
    ∃ t, step { codedState with nnodes := 5#9, root := 4#9 } = .next t :=
  ⟨⟨fun _ => rfl, fun _ => rfl⟩, by unfold State.TreeRegsOk; decide, fun _ => by decide +kernel, _, rfl⟩

theorem witness_StepKeepsDecodeTable : loadedState.DtabOk ∧ loadedState.valid.dtab = true ∧ ∃ t, step loadedState = .next t :=
  ⟨by unfold State.DtabOk; decide +kernel, rfl, _, rfl⟩

theorem witness_CommandsRecordOnlyTheirErrors :
    State.reset.status.err = false ∧ ∃ t, exec .freq { State.reset with inLen := 65537#32 } = .next t ∧ t.status.err = true :=
  ⟨rfl, _, rfl, by decide +kernel⟩

/-- A BUSY state with a row on record, and its step. -/
theorem witness_CommandsRecordOnlyTheirErrors_step :
    ({ State.reset.accept 0x10#32 with errs := ⟨0x21#8, 0x08#8, 0x02#8, 0#32, 1#32⟩ } : State).ErrorOk ∧
    ∃ t, step { State.reset.accept 0x10#32 with errs := ⟨0x21#8, 0x08#8, 0x02#8, 0#32, 1#32⟩ } = .next t :=
  ⟨by unfold State.ErrorOk; decide, _, rfl⟩

/-- A host read and a host write before the core's turn; and a reset among them. -/
theorem witness_AcceptedCommandCompletes :
    let s := { State.reset.accept 1#32 with agenda := [.hostRead 0x008#32, .hostWrite 0x008#32 0xE#32 0xF#4] }
    s.phase = .busy 1#32 ∧ (∀ e ∈ s.agenda, (∃ a, e = .hostRead a) ∨ ∃ a d strb, e = .hostWrite a d strb) ∧
    ∃ t, Sys2Proof.core.run 2 { State.reset.accept 1#32 with agenda := [.reset false] } = .next t := by
  refine ⟨rfl, ?_, _, rfl⟩
  intro e he
  rcases List.mem_cons.1 he with rfl | he
  · exact .inl ⟨_, rfl⟩
  · exact .inr ⟨_, _, _, List.mem_singleton.1 he⟩

end Sys2Proof.Tests
end

section
/-! SUPPORT. The proofs of the scope's statements (00_scope.md): one event per step, a core that never stops, canonical buffers, and
COMPRESS with what ENCODE and DECOMPRESS make of its artifact. -/

namespace Sys2Proof.Machine

/-! ## Whose turn it is -/

/-- With an empty agenda the core moves (log entry 3). -/
theorem step_of_agenda_nil {s : State} (h : s.agenda = []) : step s = coreTurn s := by
  rw [step, takeTurn, h]

/-- The head of the agenda is what happens, on the state without it (log entry 3). -/
theorem step_of_agenda_cons {s : State} {e : Event} {rest : List Event} (h : s.agenda = e :: rest) :
    step s = perform { s with agenda := rest } e := by
  rw [step, takeTurn, h]

/-- The core has no step while it is idle (00_scope.md R6). -/
theorem coreTurn_of_idle {s : State} (h : s.phase = .idle) : coreTurn s = .next s := by
  rw [coreTurn, h]

/-- Settles O6: the agenda's head decides which arm of `perform` runs. -/
theorem stepTakesTheNextEvent : Obligations.StepTakesTheNextEvent := by
  intro s rest
  exact ⟨fun _ h => step_of_agenda_cons h, fun _ _ _ h => step_of_agenda_cons h, fun _ h => step_of_agenda_cons h⟩

/-- Settles O8: both ways to the core's turn, in phase IDLE. -/
theorem idleCoreStandsStill : Obligations.IdleCoreStandsStill := by
  intro s hidle
  constructor
  · intro h
    rw [step_of_agenda_nil h, coreTurn_of_idle hidle]
  · intro rest h
    rw [step_of_agenda_cons h]
    exact coreTurn_of_idle hidle

/-! ## The core never stops -/

/-- A completion is the end of some result: a command's or an illegal word's (40_control.md R121, R125). -/
theorem completeWord_eq_finish (w : Word) (s : State) : ∃ r : Result, completeWord w s = .next r.finish := by
  rcases completeWord_cases w s with ⟨i, _, h⟩ | ⟨r, _, h⟩
  · exact ⟨_, h⟩
  · exact ⟨_, h⟩

theorem coreTurn_next (s : State) : ∃ t, coreTurn s = .next t := by
  cases h : s.phase with
  | idle => exact ⟨s, coreTurn_of_idle h⟩
  | busy w =>
    obtain ⟨r, hr⟩ := completeWord_eq_finish w s
    exact ⟨r.finish, by rw [coreTurn, h]; exact hr⟩

theorem perform_next (s : State) (e : Event) : ∃ t, perform s e = .next t := by
  cases e with
  | hostRead a => exact ⟨_, rfl⟩
  | hostWrite a d strb => exact ⟨_, rfl⟩
  | reset powerOn => exact ⟨_, rfl⟩
  | coreTurn => exact coreTurn_next s

/-- Every step answers a next state (00_scope.md R18). -/
theorem step_next (s : State) : ∃ t, step s = .next t := by
  cases h : s.agenda with
  | nil => rw [step_of_agenda_nil h]; exact coreTurn_next s
  | cons e rest => rw [step_of_agenda_cons h]; exact perform_next _ e

/-- Acceptance (40_control.md R120): a full-strobe write to CMD while IDLE. -/
theorem hostWrite_cmd_of_idle {s : State} (h : s.phase = .idle) (w : Word) : hostWrite s 0x004#32 w 0xF#4 = s.accept w := by
  have hloc : locOf (wordAddr 0x004#32) = .reg .cmd := by decide
  have hstore : storesAt s.params (.reg .cmd) 0xF#4 = true := rfl
  simp [hostWrite, hloc, State.writeLoc, hstore, State.store, State.busy_idle h]

/-- Settles O9: every completion is `Result.finish`, which sets IDLE and DONE, and an idle core accepts. -/
theorem coreNeverStops : Obligations.CoreNeverStops := by
  refine ⟨step_next, fun w s => ?_⟩
  obtain ⟨r, hr⟩ := completeWord_eq_finish w s
  refine ⟨r.finish, hr, r.finish_phase, r.finish_done, fun v => ?_⟩
  rw [hostWrite_cmd_of_idle r.finish_phase]
  rfl

/-! ## Canonical buffers -/

/-- Canonical buffers, on a build with parameters p. -/
def State.BuffersOkOn (p : Params) (s : State) : Prop := s.BuffersOk ∧ s.params = p

theorem State.BuffersOkOn.congr {p : Params} {s t : State} (h : s.BuffersOkOn p) (h1 : t.params = s.params) (h2 : t.ibuf = s.ibuf)
    (h3 : t.abuf = s.abuf) (h4 : t.obuf = s.obuf) : t.BuffersOkOn p :=
  ⟨h.1.congr h1 h2 h3 h4, h1.trans h.2⟩

/-- Writing one byte below the capacity keeps the buffers canonical and within their capacities. -/
theorem State.BuffersOk.setByte {s : State} (h : s.BuffersOk) (b : Buf) {j : Nat} (hj : j < capOf s.params b) (v : Byte) :
    (s.setBuf b ((s.buf b).set j v)).BuffersOk := by
  have hpar : (s.setBuf b ((s.buf b).set j v)).params = s.params := by cases b <;> rfl
  intro c
  rw [State.setBuf_buf, hpar]
  split
  · next hc =>
    subst hc
    exact ⟨Memory.wf_set (h c).1 j v, Memory.within_set (h c).2 hj v⟩
  · exact h c

/-- An artifact that fits ABUF keeps the buffers canonical (45_encoder.md R190). -/
theorem State.BuffersOk.afterEncode {s : State} (h : s.BuffersOk) (hart : s.artifactSize ≤ s.params.artMax) :
    s.afterEncode.BuffersOk :=
  h.putBytes .abuf s.artifact (by rw [s.artifact_length]; exact hart) rfl fun b => by cases b <;> rfl

/-- The loop emits at most OUT_LEN symbols, so what DECODE writes fits OBUF (46_decoder.md R221). -/
theorem State.BuffersOk.putDecoded {s : State} (h : s.BuffersOk) (hout : s.outLen.toNat ≤ s.params.outMax) :
    (s.putDecoded s.decoded).BuffersOk :=
  h.putBytes .obuf s.decoded.out (le_trans (decodeLoop_length_le _ _ _ _ _ _) hout) rfl fun b => by cases b <;> rfl

/-- What an aborted command leaves in the buffers is canonical (70_reset_and_hazards.md R272). -/
theorem State.BuffersOk.abort {s : State} (h : s.BuffersOk) (w : Word) : (s.abort w).BuffersOk := by
  unfold State.abort
  split
  · exact h.scramble .abuf _ (abufBytes_runEncode_le s)
  · exact h.scramble .abuf _ (abufBytes_runCompress_le s)
  · exact h.scramble .obuf _ (obufBytes_runDecode_le s)
  · exact h.scramble .obuf _ (obufBytes_runDecompress_le s)
  · exact h
  · exact h

theorem State.abort_params (s : State) (w : Word) : (s.abort w).params = s.params := by
  unfold State.abort
  split <;> simp

/-- Empty buffers are canonical (70_reset_and_hazards.md R270). -/
theorem State.powerOnBuffers_buffersOk (s : State) : s.powerOnBuffers.BuffersOk := by
  intro b
  have hempty : s.powerOnBuffers.buf b = { cells := [] } := by cases b <;> rfl
  rw [hempty]
  exact ⟨Memory.wf_empty, Memory.within_empty _⟩

theorem State.BuffersOkOn.resetBuffers {p : Params} {s : State} (h : s.BuffersOkOn p) (powerOn : Bool) :
    (s.resetBuffers powerOn).BuffersOkOn p := by
  unfold State.resetBuffers
  split
  · exact ⟨s.powerOnBuffers_buffersOk, h.2⟩
  · split
    · exact h
    · next w _ => exact ⟨h.1.abort w, (s.abort_params w).trans h.2⟩

/-- Every effect of a command keeps the buffers canonical: only ENCODE and DECODE write one, and each checks its capacity first. -/
theorem effectsKeep_buffersOkOn (p : Params) : EffectsKeep (State.BuffersOkOn p) where
  nop _ h := h.congr rfl rfl rfl rfl
  clear _ h := h.congr rfl rfl rfl rfl
  freq _ h := h.congr rfl rfl rfl rfl
  build _ _ h := h.congr rfl rfl rfl rfl
  canon _ _ _ h := h.congr rfl rfl rfl rfl
  encode _ hart h := ⟨h.1.afterEncode hart, h.2⟩
  loadtabError _ h := h.congr rfl rfl rfl rfl
  loadtab _ _ h := h.congr rfl rfl rfl rfl
  decodeError _ _ hout h := ⟨h.1.putDecoded hout, h.2⟩
  decode _ _ hout h := ⟨(h.1.putDecoded hout).congr rfl rfl rfl rfl, h.2⟩

/-- Every event keeps the buffers canonical: the host writes below the capacity, and a reset empties or scrambles. -/
theorem eventsKeep_buffersOkOn (p : Params) : EventsKeep (State.BuffersOkOn p) where
  agenda _ _ h := h.congr rfl rfl rfl rfl
  read _ _ _ h := h.congr rfl rfl rfl rfl
  w1c _ _ h := h.congr rfl rfl rfl rfl
  ie _ _ h := h.congr rfl rfl rfl rfl
  drop _ _ h := h.congr rfl rfl rfl rfl
  accept _ _ _ h := h.congr rfl rfl rfl rfl
  inLen _ _ _ h := h.congr rfl rfl rfl rfl
  artLen _ _ _ h := h.congr rfl rfl rfl rfl
  write b _ _ v hj h := ⟨h.1.setByte b hj v, by cases b <;> exact h.2⟩
  reset _ powerOn h := (h.resetBuffers powerOn).congr rfl rfl rfl rfl
  complete _ h := h.congr rfl rfl rfl rfl
  completeError _ _ h := h.congr rfl rfl rfl rfl

/-- Settles O55, by the step's induction over effects and events. -/
theorem stepKeepsBuffersCanonical : Obligations.StepKeepsBuffersCanonical := by
  intro s t hs ht
  exact step_keeps (effectsKeep_buffersOkOn s.params) (eventsKeep_buffersOkOn s.params) ht ⟨hs, rfl⟩

/-! ## ENCODE's operands (00_scope.md R17) -/

/-- An ENCODE that leaves ERR at 0 wrote its artifact (45_encoder.md R192). -/
theorem exec_encode_of_err_false {s t : State} (h : exec .encode s = .next t) (herr : t.status.err = false) :
    t = s.afterEncode.complete := by
  rw [exec_eq] at h
  cases h
  rcases runEncode_cases s with ⟨e, hr, _⟩ | ⟨_, _, hr⟩
  · simp [runOf, hr, Result.finish] at herr
  · simp only [runOf, hr, Result.finish]

theorem State.afterEncode_byteAt_abuf (s : State) (i : Nat) :
    s.afterEncode.byteAt .abuf i = if h : i < s.artifact.length then s.artifact[i] else s.byteAt .abuf i :=
  s.byteAt_putBytes .abuf s.artifact i

section
variable {s1 s2 : State} (hin : s1.input = s2.input) (hlen : s1.len = s2.len)
include hin hlen

theorem State.payloadSize_congr : s1.payloadSize = s2.payloadSize := by
  simp only [State.payloadSize, State.lenAt, hin, hlen]

theorem State.artifactSize_congr : s1.artifactSize = s2.artifactSize := by
  simp only [State.artifactSize, State.payloadSize_congr hin hlen, State.coded, hlen]

/-- The artifact is a function of the input bytes and the code table (45_encoder.md R199). -/
theorem State.artifact_congr (hcode : s1.code = s2.code) : s1.artifact = s2.artifact := by
  have hn : s1.inputLen = s2.inputLen := by rw [← s1.input_length, hin, s2.input_length]
  have hentry : s1.entryBytes = s2.entryBytes := by
    funext i
    simp only [State.entryBytes, State.lenAt, State.codeAt, hlen, hcode]
  simp only [State.artifact, State.payloadBits, State.coded, State.lenAt, State.codeAt, hn, hentry, hin, hlen, hcode]

end

/-- Settles O26: each run is `afterEncode`, and the artifact depends on the input and the code table only. -/
theorem artifactDependsOnOperandsOnly : Obligations.ArtifactDependsOnOperandsOnly := by
  intro s1 s2 t1 t2 hn hbytes hlen hcode h1 h2 _ e1 _ e2
  obtain rfl := exec_encode_of_err_false h1 e1
  obtain rfl := exec_encode_of_err_false h2 e2
  have hin : s1.input = s2.input := by
    unfold State.input State.bytesAt State.inputLen
    rw [← hn]
    exact List.map_congr_left fun k hk => by simpa using hbytes k (List.mem_range.1 hk)
  have hsize := State.artifactSize_congr hin hlen
  refine ⟨congrArg (BitVec.ofNat 32) hsize, congrArg (BitVec.ofNat 32) (State.payloadSize_congr hin hlen), fun i hi => ?_⟩
  have hi1 : i < s1.artifact.length := by
    rw [s1.artifact_length]
    exact lt_of_lt_of_le hi (by simpa [State.afterEncode] using Nat.mod_le _ _)
  have hart := State.artifact_congr hin hlen hcode
  show s1.afterEncode.byteAt .abuf i = s2.afterEncode.byteAt .abuf i
  rw [s1.afterEncode_byteAt_abuf, s2.afterEncode_byteAt_abuf, dif_pos hi1, dif_pos (hart ▸ hi1)]
  simp only [hart]

/-! ## COMPRESS, and DECOMPRESS after it (00_scope.md R16) -/

theorem Params.inMax_le_of_wellFormed {p : Params} (h : p.wellFormed = true) : p.inMax ≤ 65536 := by
  simp only [Params.wellFormed, Bool.and_eq_true, decide_eq_true_eq] at h
  omega

section
variable (s : State)

/-- The frame of COMPRESS's first three steps: tables, the registers of the tree, VALID and EMPTY (45_encoder.md R198). -/
theorem State.pipelined_eq :
    s.pipelined =
      { s with
        freq := s.pipelined.freq
        len := s.pipelined.len
        node := s.pipelined.node
        code := s.pipelined.code
        nsym := s.pipelined.nsym
        nnodes := s.pipelined.nnodes
        root := s.pipelined.root
        valid := { freq := true, tree := true, code := true, dtab := s.valid.dtab }
        status := { s.status with empty := s.pipelined.status.empty } } := rfl

/-- The frame of ENCODE (45_encoder.md R193). -/
theorem State.afterEncode_eq :
    s.afterEncode =
      { s with
        abuf := s.afterEncode.abuf
        artLen := s.afterEncode.artLen
        payBits := s.afterEncode.payBits
        valid := { s.valid with dtab := false }
        status := { s.status with empty := s.afterEncode.status.empty } } := rfl

@[simp] theorem State.pipelined_params : s.pipelined.params = s.params := by rw [s.pipelined_eq]

@[simp] theorem State.pipelined_errs : s.pipelined.errs = s.errs := by rw [s.pipelined_eq]

@[simp] theorem State.pipelined_inLen : s.pipelined.inLen = s.inLen := by rw [s.pipelined_eq]

@[simp] theorem State.pipelined_dtab : s.pipelined.dtab = s.dtab := by rw [s.pipelined_eq]

@[simp] theorem State.pipelined_ibuf : s.pipelined.ibuf = s.ibuf := by rw [s.pipelined_eq]

@[simp] theorem State.pipelined_abuf : s.pipelined.abuf = s.abuf := by rw [s.pipelined_eq]

@[simp] theorem State.pipelined_obuf : s.pipelined.obuf = s.obuf := by rw [s.pipelined_eq]

@[simp] theorem State.pipelined_powerOnId : s.pipelined.powerOnId = s.powerOnId := by rw [s.pipelined_eq]

@[simp] theorem State.pipelined_err : s.pipelined.status.err = s.status.err := by rw [s.pipelined_eq]

@[simp] theorem State.pipelined_valid : s.pipelined.valid = { freq := true, tree := true, code := true, dtab := s.valid.dtab } := by
  rw [s.pipelined_eq]

@[simp] theorem State.afterEncode_params : s.afterEncode.params = s.params := by rw [s.afterEncode_eq]

@[simp] theorem State.afterEncode_errs : s.afterEncode.errs = s.errs := by rw [s.afterEncode_eq]

@[simp] theorem State.afterEncode_inLen : s.afterEncode.inLen = s.inLen := by rw [s.afterEncode_eq]

@[simp] theorem State.afterEncode_dtab : s.afterEncode.dtab = s.dtab := by rw [s.afterEncode_eq]

@[simp] theorem State.afterEncode_ibuf : s.afterEncode.ibuf = s.ibuf := by rw [s.afterEncode_eq]

@[simp] theorem State.afterEncode_obuf : s.afterEncode.obuf = s.obuf := by rw [s.afterEncode_eq]

@[simp] theorem State.afterEncode_err : s.afterEncode.status.err = s.status.err := by rw [s.afterEncode_eq]

@[simp] theorem State.afterEncode_valid : s.afterEncode.valid = { s.valid with dtab := false } := by
  rw [s.afterEncode_eq]

@[simp] theorem State.pipelined_byteAt (b : Buf) (i : Nat) : s.pipelined.byteAt b i = s.byteAt b i := by
  cases b <;> simp [State.byteAt]

theorem State.pipelined_input : s.pipelined.input = s.input := by
  simp [State.input, State.bytesAt, State.inputLen]

@[simp] theorem State.complete_byteAt (b : Buf) (i : Nat) : s.complete.byteAt b i = s.byteAt b i := by
  cases b <;> rfl

end

/-- The register ART_LEN holds the length of an artifact below 2^32 bytes. -/
theorem State.afterEncode_artLen_toNat {s : State} (h : s.artifactSize < 2 ^ 32) :
    s.afterEncode.artLen.toNat = s.artifactSize := by
  rw [State.afterEncode, BitVec.toNat_ofNat]
  exact Nat.mod_eq_of_lt h

/-- The end of ENCODE but for ABUF, which is as ENCODE found it. -/
def State.encodedButAbuf (s : State) : State := { s.afterEncode.complete with abuf := s.abuf }

@[simp] theorem State.encodedButAbuf_params (s : State) : s.encodedButAbuf.params = s.params := by simp [State.encodedButAbuf]

@[simp] theorem State.encodedButAbuf_err (s : State) : s.encodedButAbuf.status.err = s.status.err := by
  simp [State.encodedButAbuf]

@[simp] theorem State.encodedButAbuf_artLen (s : State) : s.encodedButAbuf.artLen = s.afterEncode.artLen := rfl

/-- ENCODE ends with the artifact at the start of ABUF. -/
theorem State.afterEncode_complete_eq (s : State) :
    s.afterEncode.complete = s.encodedButAbuf.putBytes .abuf 0 s.artifact := rfl

section
variable {s : State} (hp : s.params.wellFormed = true) (hin : s.inLen.toNat ≤ s.params.inMax)
include hp hin

theorem State.pipelined_artLen_toNat : s.pipelined.afterEncode.artLen.toNat = s.pipelined.artifactSize := by
  have hsize := s.pipelined_artifactSize_le
  have hmax := Params.inMax_le_of_wellFormed hp
  have hn : s.inputLen ≤ s.params.inMax := hin
  exact State.afterEncode_artLen_toNat (by omega)

/-- COMPRESS's outcome on an input that fits the default bound of ABUF (00_scope.md R7). -/
theorem exec_compress_done (hart : 6 + 6 * 256 + s.inLen.toNat ≤ s.params.artMax) :
    exec .compress s = .next s.pipelined.afterEncode.complete := by
  obtain ⟨hrun, -, -⟩ := runCompress_done s hin (Params.inMax_le_of_wellFormed hp) hart
  rw [exec_eq]
  simp only [runOf, hrun, Result.finish]

/-- DECOMPRESS's outcome behind COMPRESS: the input, with no error. -/
theorem exec_decompress_after_compress (hart : 6 + 6 * 256 + s.inLen.toNat ≤ s.params.artMax)
    (hout : s.inLen.toNat ≤ s.params.outMax) :
    ∃ v : State, exec .decompress s.pipelined.afterEncode.complete = .next v.complete ∧ v.outCnt.toNat = s.inLen.toNat ∧
      v.status.err = s.status.err ∧ ∀ i < s.inLen.toNat, v.byteAt .obuf i = s.byteAt .ibuf i := by
  obtain ⟨-, hcodes, hcoded⟩ := runCompress_done s hin (Params.inMax_le_of_wellFormed hp) hart
  have hlen : s.pipelined.inputLen = s.inLen.toNat := congrArg BitVec.toNat s.pipelined_inLen
  rw [← s.pipelined_input] at hcoded
  obtain ⟨v, hrun, hcnt, herr, -, hbytes⟩ := runDecompress_artifact s.pipelined s.pipelined.encodedButAbuf hcodes hcoded
    (by simpa using State.pipelined_artLen_toNat hp hin) (by simpa using le_trans s.pipelined_artifactSize_le hart)
    (by simpa [hlen] using hout)
  refine ⟨v, ?_, hcnt.trans hlen, by simpa using herr, fun i hi => ?_⟩
  · rw [State.afterEncode_complete_eq, exec_eq, runOf, hrun, Result.finish]
  · rw [hbytes i (by rwa [State.input_length, hlen])]
    simp [State.input, State.bytesAt]

end

/-- Settles O29, from COMPRESS's outcome: its steps write none of the kept fields, and its artifact ends inside the bound. -/
theorem compressSucceeds : Obligations.CompressSucceeds := by
  intro s hp hin hart
  have hlen := State.pipelined_artLen_toNat hp hin
  have hbound : s.pipelined.artifactSize ≤ 6 + 6 * 256 + s.inLen.toNat := s.pipelined_artifactSize_le
  have htail : ∀ i, s.pipelined.artifactSize ≤ i → s.pipelined.afterEncode.byteAt .abuf i = s.byteAt .abuf i := by
    intro i hi
    rw [← State.artifact_length] at hi
    rw [State.afterEncode_byteAt_abuf, dif_neg (Nat.not_lt.2 hi), State.pipelined_byteAt]
  exact ⟨_, exec_compress_done hp hin hart, by simpa [hlen] using ⟨hbound, htail⟩⟩

/-- Settles O39: COMPRESS's artifact carries a table that LOADTAB accepts and the codes of the input, which DECODE reads back. -/
theorem compressedInputRoundTrips : Obligations.CompressedInputRoundTrips := by
  intro s hp _ herr hin hout hart
  obtain ⟨v, hdec, hcnt, hverr, hbytes⟩ := exec_decompress_after_compress hp hin hart hout
  exact ⟨_, _, exec_compress_done hp hin hart, by simpa using herr, hdec, by simpa using hverr.trans herr,
    BitVec.eq_of_toNat_eq hcnt, fun i hi => (v.complete_byteAt .obuf i).trans (hbytes i hi)⟩

end Sys2Proof.Machine
end

section
/-! SUPPORT. The proofs of the state's statements (10_state.md): the register words and their fields, the writes to registers, the
interrupt level, the reset state, and the pipeline's VALID chain, tree registers and code lengths. -/

namespace Sys2Proof.Machine

/-! ## The encoder pipeline's state (10_state.md R31 to R33, R57) -/

/-- The VALID chain, the registers of the tree and the lengths of a valid code table, together. -/
def State.PipelineOk (s : State) : Prop := s.ValidChain ∧ s.TreeRegsOk ∧ s.LengthsOk

/-- DTAB is no part of the encoder pipeline: with the other VALID bits, LEN and the registers of the tree unchanged, all is as
before. -/
theorem State.PipelineOk.congr {s t : State} (h : s.PipelineOk) (hvalid : t.valid = { s.valid with dtab := t.valid.dtab })
    (hlen : t.len = s.len) (hnsym : t.nsym = s.nsym) (hnnodes : t.nnodes = s.nnodes) (hroot : t.root = s.root) :
    t.PipelineOk := by
  have hcode : t.valid.code = s.valid.code := by rw [hvalid]
  have htree : t.valid.tree = s.valid.tree := by rw [hvalid]
  have hfreq : t.valid.freq = s.valid.freq := by rw [hvalid]
  simpa only [State.PipelineOk, State.ValidChain, State.TreeRegsOk, State.LengthsOk, State.lenAt, hcode, htree, hfreq, hlen,
    hnsym, hnnodes, hroot] using h

/-- The registers of no tree, with no valid table of the pipeline (10_state.md R44). -/
theorem State.pipelineOk_of_noTree {s : State} (htree : s.valid.tree = false) (hcode : s.valid.code = false)
    (hnsym : s.nsym = 0#9) (hnnodes : s.nnodes = 0#9) (hroot : s.root = 0x1FF#9) : s.PipelineOk := by
  refine ⟨⟨by simp [hcode], by simp [htree]⟩, ?_, by simp [State.LengthsOk, hcode]⟩
  rw [State.TreeRegsOk, hnsym, hnnodes, hroot]
  decide

/-- FREQ clears TREE and CODE and leaves the registers of the tree alone (10_state.md R57). -/
theorem State.PipelineOk.afterFreq {s : State} (h : s.PipelineOk) : s.afterFreq.PipelineOk := by
  obtain ⟨_, hregs, _⟩ := h
  have hcode : s.afterFreq.valid.code = false := rfl
  have htree : s.afterFreq.valid.tree = false := rfl
  exact ⟨⟨by simp [hcode], by simp [htree]⟩, hregs, by simp [State.LengthsOk, hcode]⟩

theorem nodeCount_lt {k : Nat} (h : k ≤ 256) : nodeCount k < 2 ^ 9 := by
  unfold nodeCount
  split <;> omega

theorem rootIndex_lt {k : Nat} (h : k ≤ 256) : rootIndex k < 2 ^ 9 := by
  unfold rootIndex
  split <;> omega

/-- BUILD's counts fit their 9-bit registers, for at most 256 symbols are present (42_tree.md R151). -/
theorem State.afterBuild_treeRegsOk (s : State) : s.afterBuild.TreeRegsOk := by
  have hk : s.leaves.length ≤ 256 := by rw [s.leaves_length]; exact s.present_length_le
  have hnsym : s.afterBuild.nsym.toNat = s.leaves.length := Nat.mod_eq_of_lt (by omega)
  rw [State.TreeRegsOk, hnsym]
  exact ⟨hk, Nat.mod_eq_of_lt (nodeCount_lt hk), Nat.mod_eq_of_lt (rootIndex_lt hk)⟩

/-- BUILD sets TREE behind a valid FREQ, and clears CODE (10_state.md R57). -/
theorem State.afterBuild_pipelineOk {s : State} (hfreq : s.valid.freq = true) : s.afterBuild.PipelineOk := by
  have hcode : s.afterBuild.valid.code = false := rfl
  have hfreq' : s.afterBuild.valid.freq = true := hfreq
  exact ⟨⟨by simp [hcode], fun _ => hfreq'⟩, s.afterBuild_treeRegsOk, by simp [State.LengthsOk, hcode]⟩

/-- CANON sets CODE behind a valid TREE, after it has checked every length (43_codegen.md R171). -/
theorem State.PipelineOk.afterCanon {s : State} (h : s.PipelineOk) (htree : s.valid.tree = true)
    (hlen : ∀ i < 256, (s.lenAt i).toNat ≤ lMax) : s.afterCanon.PipelineOk := by
  obtain ⟨⟨_, hfreq⟩, hregs, _⟩ := h
  exact ⟨⟨fun _ => htree, hfreq⟩, hregs, fun _ => hlen⟩

theorem effectsKeep_pipelineOk : EffectsKeep State.PipelineOk where
  nop _ h := h.congr rfl rfl rfl rfl rfl
  clear _ _ := State.pipelineOk_of_noTree rfl rfl rfl rfl rfl
  freq _ h := h.afterFreq
  build _ hfreq _ := State.afterBuild_pipelineOk hfreq
  canon _ htree hlen h := h.afterCanon htree hlen
  encode _ _ h := h.congr rfl rfl rfl rfl rfl
  loadtabError _ h := h.congr rfl rfl rfl rfl rfl
  loadtab _ _ h := h.congr rfl rfl rfl rfl rfl
  decodeError _ _ _ h := h.congr rfl rfl rfl rfl rfl
  decode _ _ _ h := h.congr rfl rfl rfl rfl rfl

/-- No transaction of the host reaches VALID, LEN or the registers of the tree (20_memory.md R63, R64); a reset leaves no tree. -/
theorem eventsKeep_pipelineOk : EventsKeep State.PipelineOk where
  agenda _ _ h := h.congr rfl rfl rfl rfl rfl
  read _ _ _ h := h.congr rfl rfl rfl rfl rfl
  w1c _ _ h := h.congr rfl rfl rfl rfl rfl
  ie _ _ h := h.congr rfl rfl rfl rfl rfl
  drop _ _ h := h.congr rfl rfl rfl rfl rfl
  accept _ _ _ h := h.congr rfl rfl rfl rfl rfl
  inLen _ _ _ h := h.congr rfl rfl rfl rfl rfl
  artLen _ _ _ h := h.congr rfl rfl rfl rfl rfl
  write _ _ _ _ _ h := h.congr (by simp) (by simp) (by simp) (by simp) (by simp)
  reset _ _ _ := State.pipelineOk_of_noTree rfl rfl rfl rfl rfl
  complete _ h := h.congr rfl rfl rfl rfl rfl
  completeError _ _ h := h.congr rfl rfl rfl rfl rfl

/-- Settles O57, by the step's induction over effects and events: only FREQ, BUILD, CANON and the resets touch the pipeline. -/
theorem stepKeepsPipelineState : Obligations.StepKeepsPipelineState :=
  fun _ _ hs ht => step_keeps effectsKeep_pipelineOk eventsKeep_pipelineOk ht hs

/-! ## Words made of fields (10_state.md section 2) -/

@[simp] theorem bitAt_false (k : Nat) : bitAt k false = 0#32 := rfl

/-- The number of a word with flags at bits 0 to 4. -/
theorem toNat_flagWord : ∀ b0 b1 b2 b3 b4 : Bool,
    (bitAt 0 b0 ||| bitAt 1 b1 ||| bitAt 2 b2 ||| bitAt 3 b3 ||| bitAt 4 b4).toNat =
      b0.toNat + 2 * b1.toNat + 4 * b2.toNat + 8 * b3.toNat + 16 * b4.toNat := by decide

/-- STATUS while IDLE, where BUSY = 0 (10_state.md R23). -/
theorem State.statusWord_toNat_of_idle {s : State} (h : s.phase = .idle) :
    s.statusWord.toNat =
      2 * s.status.done.toNat + 4 * s.status.err.toNat + 8 * s.status.ovr.toNat + 16 * s.status.empty.toNat := by
  rw [State.statusWord, toNat_flagWord, State.busy_idle h, Bool.toNat_false, Nat.zero_add]

theorem State.ieWord_toNat (s : State) : s.ieWord.toNat = s.ie.doneIe.toNat + 2 * s.ie.errIe.toNat := by
  simpa [State.ieWord] using toNat_flagWord s.ie.doneIe s.ie.errIe false false false

theorem State.validWord_toNat (s : State) :
    s.validWord.toNat = s.valid.freq.toNat + 2 * s.valid.tree.toNat + 4 * s.valid.code.toNat + 8 * s.valid.dtab.toNat := by
  simpa [State.validWord] using toNat_flagWord s.valid.freq s.valid.tree s.valid.code s.valid.dtab false

/-- Fields side by side: the higher field counts in units of the lower one's size. -/
theorem toNat_append_eq_add {m n : Nat} (x : BitVec m) (y : BitVec n) : (x ++ y).toNat = 2 ^ n * x.toNat + y.toNat := by
  rw [BitVec.toNat_append, Nat.shiftLeft_eq, Nat.mul_comm, ← Nat.two_pow_add_eq_or_of_lt y.isLt]

theorem State.errCodeWord_toNat (s : State) :
    s.errCodeWord.toNat = s.errs.code.toNat + 256 * s.errs.sub.toNat + 65536 * s.errs.step.toNat := by
  simp only [State.errCodeWord, toNat_append_eq_add, BitVec.toNat_ofNat]
  omega

/-- A 9-bit register reads as its number, with 0 above it (10_state.md R31). -/
theorem index_setWidth_toNat (x : Index) : (x.setWidth 32).toNat = x.toNat := BitVec.toNat_setWidth_of_le (by decide)

/-! ## Registers on the bus (10_state.md R44) -/

/-- A register stands at its offset. -/
theorem locOf_wordAddr_offset (r : Reg) : locOf (wordAddr (BitVec.ofNat 32 r.offset)) = .reg r := by cases r <;> rfl

/-- While IDLE a read is exact (70_reset_and_hazards.md R282). -/
theorem State.readData_of_idle {s : State} (h : s.phase = .idle) (a : Word) : s.readData a = s.locWord (locOf (wordAddr a)) := by
  simp [State.readData, State.readDraws, h]

theorem State.readData_reg {s : State} (h : s.phase = .idle) (r : Reg) :
    s.readData (BitVec.ofNat 32 r.offset) = s.regWord r := by
  rw [s.readData_of_idle h, locOf_wordAddr_offset, State.locWord]

/-- A reserved location reads 0 in every phase (10_state.md R43). -/
theorem State.readData_reserved (s : State) {a : Word} (ha : locOf (wordAddr a) = .reserved) : s.readData a = 0#32 := by
  simp [State.readData, State.readDraws, ha, Loc.exactInBusy, State.locWord]

/-- Settles O46: every register reads its word, and each word is the sum of its fields. -/
theorem registersReadTheirFields : Obligations.RegistersReadTheirFields := by
  intro s h
  have reg := s.readData_reg h
  have field : ∀ (r : Reg) {n : Nat}, (s.regWord r).toNat = n → (s.readData (BitVec.ofNat 32 r.offset)).toNat = n :=
    fun r _ hn => by rw [reg, hn]
  exact ⟨reg .id, reg .cmd, field .status (s.statusWord_toNat_of_idle h), field .ie s.ieWord_toNat,
    field .errCode s.errCodeWord_toNat, reg .errInfo, reg .errAux, reg .inLen, reg .artLen,
    field .nsym (index_setWidth_toNat _), field .nnodes (index_setWidth_toNat _), field .root (index_setWidth_toNat _), reg .payBits,
    reg .outLen, reg .payOff, reg .payBytes, field .dtabN (index_setWidth_toNat _), reg .outCnt, reg .decBits,
    field .valid s.validWord_toNat, reg .pInMax, reg .pArtMax, reg .pOutMax, reg .pLmax, s.readData_reserved rfl,
    s.readData_reserved rfl, s.readData_reserved rfl⟩

/-- A full-strobe write to a register's offset (20_memory.md R63). -/
theorem hostWrite_reg (s : State) (r : Reg) (d : Word) (strb : Strobe) :
    hostWrite s (BitVec.ofNat 32 r.offset) d strb = s.writeLoc (.reg r) d strb := by
  rw [hostWrite, locOf_wordAddr_offset]

/-- A write that stores takes effect while IDLE (70_reset_and_hazards.md R280). -/
theorem State.writeLoc_reg_of_idle {s : State} (h : s.phase = .idle) {r : Reg} {strb : Strobe}
    (hr : storesAt s.params (.reg r) strb = true) (d : Word) : s.writeLoc (.reg r) d strb = s.store (.reg r) d strb := by
  unfold State.writeLoc
  split
  · next e => cases e; cases hr
  · next e => cases e; cases hr
  · rw [if_pos hr, State.busy_idle h]
    rfl

/-- Settles O40, register by register. -/
theorem registerWritesTakeEffect : Obligations.RegisterWritesTakeEffect := by
  intro s d
  refine ⟨hostWrite_reg s .status d 0xF#4, hostWrite_reg s .ie d 0xF#4, fun h => ⟨?_, ?_⟩⟩
  · exact (hostWrite_reg s .inLen d 0xF#4).trans (State.writeLoc_reg_of_idle h rfl d)
  · exact (hostWrite_reg s .artLen d 0xF#4).trans (State.writeLoc_reg_of_idle h rfl d)

/-! ## The interrupt level (10_state.md R58) -/

/-- With both enables clear IRQ is low. -/
theorem State.irq_of_disabled {s : State} (h : s.ie = { doneIe := false, errIe := false }) : s.irq = false := by
  simp [State.irq, h]

/-- Settles O48: CLEAR and a reset clear both enables. -/
theorem irqIsALevel : Obligations.IrqIsALevel := by
  refine ⟨fun s => rfl, fun s t h => ?_, fun s p => ?_⟩
  · rw [exec_eq] at h
    cases h
    exact State.irq_of_disabled rfl
  · exact State.irq_of_disabled rfl

/-! ## The reset state (10_state.md R44, R59) -/

/-- A table of equal entries, read as the accessors read it. -/
theorem getD_replicate {α : Type} (n i : Nat) (x : α) : (Vector.replicate n x)[i]?.getD x = x := by
  by_cases h : i < n <;> simp [h]

theorem State.reset_freqAt (i : Nat) : State.reset.freqAt i = 0#32 := getD_replicate 256 i _

theorem State.reset_lenAt (i : Nat) : State.reset.lenAt i = 0#8 := getD_replicate 256 i _

theorem State.reset_codeAt (i : Nat) : State.reset.codeAt i = 0#32 := getD_replicate 256 i _

theorem State.reset_nodeAt (i : Nat) : State.reset.nodeAt i = Node.zero := getD_replicate 511 i _

theorem State.reset_dtabAt (j : Nat) : State.reset.dtabAt j = DEntry.zero := getD_replicate 256 j _

/-- The registers whose reset value is 0 (10_state.md R44). -/
def Reg.zeroAtReset : List Reg :=
  [.cmd, .status, .ie, .errCode, .errInfo, .errAux, .inLen, .artLen, .nsym, .nnodes, .payBits, .outLen, .payOff, .payBytes, .dtabN,
    .outCnt, .decBits, .valid]

theorem State.reset_regWord_zero : ∀ r ∈ Reg.zeroAtReset, State.reset.regWord r = 0#32 := by decide

/-- Settles O50: the offsets of the first clause are those of `Reg.zeroAtReset`. -/
theorem resetStateReadsAsSpecified : Obligations.ResetStateReadsAsSpecified := by
  have reg := State.readData_reg (s := State.reset) rfl
  refine ⟨fun off hoff => ?_, reg .id, reg .root, reg .pInMax, reg .pArtMax, reg .pOutMax, reg .pLmax,
    fun i _ => ⟨State.reset_freqAt i, State.reset_lenAt i, State.reset_codeAt i, State.reset_dtabAt i⟩,
    fun i _ => State.reset_nodeAt i, rfl, rfl⟩
  obtain ⟨r, hr, rfl⟩ : ∃ r ∈ Reg.zeroAtReset, r.offset = off := List.mem_map.1 hoff
  rw [reg, State.reset_regWord_zero r hr]

theorem State.reset_buffersOk : State.reset.BuffersOk := by
  intro b
  have hempty : State.reset.buf b = { cells := [] } := by cases b <;> rfl
  rw [hempty]
  exact ⟨Memory.wf_empty, Memory.within_empty _⟩

/-- Settles O54: nothing is written, valid or running after reset. -/
theorem resetStateMeetsInvariant : Obligations.ResetStateMeetsInvariant := by
  obtain ⟨hchain, hregs, hlens⟩ : State.reset.PipelineOk := State.pipelineOk_of_noTree rfl rfl rfl rfl rfl
  exact {
    buffers := State.reset_buffersOk
    phase := fun w h => by cases h
    chain := hchain
    treeRegs := hregs
    lengths := hlens
    dtab := fun h => by cases h
    error := List.mem_cons_self }

end Sys2Proof.Machine
end

section
/-! SUPPORT. The proofs of the host bus's statements (20_memory.md): the words and byte lanes of the address map, reads with and
without a draw, the table windows, buffer writes, and the writes that change nothing. -/

namespace Sys2Proof.Machine

/-! ## Word addresses (20_memory.md R61) -/

/-- The address mask keeps every bit but the lowest two. -/
theorem getLsbD_addressMask : ∀ k < 32, (0xFFFFFFFC#32).getLsbD k = decide (2 ≤ k) := by decide

theorem and_addressMask (a : Word) : a &&& 0xFFFFFFFC#32 = a >>> 2 <<< 2 := by
  refine BitVec.eq_of_getLsbD_eq fun k hk => ?_
  rw [BitVec.getLsbD_and, getLsbD_addressMask k hk, BitVec.getLsbD_shiftLeft, BitVec.getLsbD_ushiftRight]
  by_cases h2 : 2 ≤ k
  · simp [h2, hk, Nat.not_lt.2 h2]
  · simp [h2, Nat.lt_of_not_le h2]

/-- The word address is the address rounded down to a multiple of 4. -/
theorem wordAddr_ofNat {n : Nat} (hn : n < 2 ^ 32) : wordAddr (BitVec.ofNat 32 n) = n / 4 * 4 := by
  rw [wordAddr, and_addressMask, BitVec.toNat_shiftLeft, BitVec.toNat_ushiftRight, BitVec.toNat_ofNat, Nat.mod_eq_of_lt hn,
    Nat.shiftRight_eq_div_pow, Nat.shiftLeft_eq]
  omega

/-! ## Byte lanes (20_memory.md R66) -/

/-- Lane k of a word made of four consecutive bytes is the byte k places on. -/
theorem laneOf_ofLanes (f : Nat → Byte) (i : Nat) {k : Nat} (hk : k < 4) :
    laneOf (ofLanes (f i) (f (i + 1)) (f (i + 2)) (f (i + 3))) k = f (i + k) := by
  refine BitVec.eq_of_toNat_eq ?_
  simp only [laneOf, ofLanes, BitVec.extractLsb'_toNat, toNat_append_eq_add, Nat.shiftRight_eq_div_pow]
  interval_cases k
  · rw [Nat.mul_zero, Nat.pow_zero, Nat.div_one, Nat.add_zero i]
    omega
  all_goals omega

/-! ## The windows of the address map (20_memory.md R62) -/

/-- A register offset of the map is that register's location. -/
theorem locOf_offset (r : Reg) : locOf r.offset = .reg r := by cases r <;> rfl

/-- The register window holds registers and reserved words only (10_state.md R43, R44). -/
theorem locOf_registerWindow {wa : Nat} (h : wa < 0x400) : locOf wa = .reserved ∨ ∃ r : Reg, r.offset = wa ∧ locOf wa = .reg r := by
  rw [locOf, if_pos h]
  split
  · next r hr => exact .inr ⟨r, Reg.offset_ofOffset hr, rfl⟩
  · exact .inl rfl

theorem locOf_freq {i : Nat} (h : i < 256) : locOf (0x400 + 4 * i) = .freq i := by
  simp (disch := omega) only [locOf, if_neg, if_pos, Loc.freq.injEq]
  omega

theorem locOf_code {i : Nat} (h : i < 256) : locOf (0x800 + 4 * i) = .code i := by
  simp (disch := omega) only [locOf, if_neg, if_pos, Loc.code.injEq]
  omega

theorem locOf_len {i : Nat} (h : i < 256) : locOf (0xC00 + i) = .len i := by
  simp (disch := omega) only [locOf, if_neg, if_pos, Loc.len.injEq]
  omega

theorem locOf_nodeWeight {i : Nat} (h : i < 512) : locOf (0x1000 + 8 * i) = .nodeWeight i := by
  simp (disch := omega) only [locOf, if_neg, if_pos, Loc.nodeWeight.injEq]
  omega

theorem locOf_nodeLinks {i : Nat} (h : i < 512) : locOf (0x1004 + 8 * i) = .nodeLinks i := by
  simp (disch := omega) only [locOf, if_neg, if_pos, Loc.nodeLinks.injEq]
  omega

theorem locOf_dtabCode {j : Nat} (h : j < 256) : locOf (0x2000 + 8 * j) = .dtabCode j := by
  simp (disch := omega) only [locOf, if_neg, if_pos, Loc.dtabCode.injEq]
  omega

theorem locOf_dtabInfo {j : Nat} (h : j < 256) : locOf (0x2004 + 8 * j) = .dtabInfo j := by
  simp (disch := omega) only [locOf, if_neg, if_pos, Loc.dtabInfo.injEq]
  omega

/-- Each buffer's window, from its base to its end. -/
theorem locOf_buf {b : Buf} {lo hi wa : Nat}
    (hb : (b, lo, hi) ∈ [(Buf.ibuf, 0x10000, 0x20000), (Buf.abuf, 0x20000, 0x40000), (Buf.obuf, 0x40000, 0x50000)])
    (h1 : lo ≤ wa) (h2 : wa < hi) : locOf wa = .buf b (wa - lo) := by
  simp only [List.mem_cons, Prod.mk.injEq, List.not_mem_nil, or_false] at hb
  obtain ⟨rfl, rfl, rfl⟩ | ⟨rfl, rfl, rfl⟩ | ⟨rfl, rfl, rfl⟩ := hb
  · exact locOf_ibuf h1 h2
  · exact locOf_abuf h1 h2
  · exact locOf_obuf h1 h2

/-! ## Reads (20_memory.md R69, 70_reset_and_hazards.md R282) -/

/-- A read that takes no draw reads the location's word. -/
theorem hostRead_exact {s : State} {a : Word} (h : s.readDraws (locOf (wordAddr a)) = false) :
    s.readData a = s.locWord (locOf (wordAddr a)) ∧ (hostRead s a).draws = s.draws := by
  simp [State.readData, hostRead, h]

/-- A read that takes a draw reads the draw. -/
theorem hostRead_drawn {s : State} {a : Word} (h : s.readDraws (locOf (wordAddr a)) = true) :
    s.readData a = Config.freeWord s.draws ∧ (hostRead s a).draws = s.draws + 1 := by
  simp [State.readData, hostRead, h]

theorem State.readDraws_of_idle {s : State} (h : s.phase = .idle) (l : Loc) : s.readDraws l = false := by
  simp [State.readDraws, h]

theorem State.readDraws_of_exact (s : State) {l : Loc} (h : l.exactInBusy = true) : s.readDraws l = false := by
  simp [State.readDraws, h]

theorem State.readDraws_of_busy {s : State} {w : Word} (h : s.phase = .busy w) {l : Loc} (hl : l.exactInBusy = false) :
    s.readDraws l = true := by
  simp [State.readDraws, State.busy_busy h, hl]

/-- The registers of the exact list of 70_reset_and_hazards.md R282. -/
def Reg.exactList : List Reg := [.id, .cmd, .status, .ie, .pInMax, .pArtMax, .pOutMax, .pLmax]

theorem Reg.exactInBusy_exactList : ∀ r ∈ Reg.exactList, r.exactInBusy = true := by decide

/-- The registers outside the exact list. -/
def Reg.inexactList : List Reg :=
  [.errCode, .errInfo, .errAux, .inLen, .artLen, .nsym, .nnodes, .root, .payBits, .outLen, .payOff, .payBytes, .dtabN, .outCnt,
    .decBits, .valid]

theorem Reg.exactInBusy_inexactList : ∀ r ∈ Reg.inexactList, r.exactInBusy = false := by decide

/-- Settles O45: a read's one effect follows from whether its location is exact, and each clause says which locations are. -/
theorem readsHaveNoSideEffect : Obligations.ReadsHaveNoSideEffect := by
  rintro s a wa rfl
  refine ⟨rfl, fun hres => ?_, fun h => (hostRead_exact (State.readDraws_of_idle h _)).2, fun w h => ⟨fun x hx => ?_, fun hin => ?_⟩⟩
  · have hloc : locOf (wordAddr a) = .reserved := by
      refine locOf_reserved (hres.imp_left fun ⟨hlt, hno⟩ => ⟨hlt, fun r hr => hno ?_⟩)
      rw [← wordAddr, ← hr]
      cases r <;> decide
    exact ⟨s.readData_reserved hloc, (hostRead_exact (s.readDraws_of_exact (by rw [hloc]; rfl))).2⟩
  · obtain ⟨r, hr, he⟩ : ∃ r ∈ Reg.exactList, (r.offset, s.regWord r) = (wordAddr a, x) := List.mem_map.1 hx
    obtain ⟨hoff, rfl⟩ := Prod.mk.inj he
    have hloc : locOf (wordAddr a) = .reg r := by rw [← hoff, locOf_offset]
    have hread := hostRead_exact (s.readDraws_of_exact (l := locOf (wordAddr a)) (by rw [hloc]; exact Reg.exactInBusy_exactList r hr))
    rwa [hloc] at hread
  · refine hostRead_drawn (State.readDraws_of_busy h ?_)
    rcases hin with hreg | hwin
    · obtain ⟨r, hr, hoff⟩ : ∃ r ∈ Reg.inexactList, r.offset = wordAddr a := List.mem_map.1 hreg
      rw [← hoff, locOf_offset]
      exact Reg.exactInBusy_inexactList r hr
    · exact locOf_inexact hwin

/-- Settles O44: a buffer word is four lanes, each the byte or 0. -/
theorem bufferReadsAreLittleEndian : Obligations.BufferReadsAreLittleEndian := by
  rintro s a b lo hi wa k h hb rfl h1 h2 hk
  rw [s.readData_of_idle h, wordAddr, locOf_buf hb h1 h2]
  exact laneOf_ofLanes (s.bufLane b) _ hk

/-! ## Table windows (20_memory.md R62) -/

/-- While IDLE an aligned address below 2^32 reads the word of its location. -/
theorem State.readData_ofNat {s : State} (h : s.phase = .idle) {n : Nat} {l : Loc} (hn : n < 2 ^ 32) (h4 : n % 4 = 0)
    (hl : locOf n = l) : s.readData (BitVec.ofNat 32 n) = s.locWord l := by
  have haddr : n / 4 * 4 = n := by omega
  rw [s.readData_of_idle h, wordAddr_ofNat hn, haddr, hl]

/-- While IDLE the word around LEN[i] is four entries of LEN. -/
theorem State.readData_len {s : State} (h : s.phase = .idle) {i : Nat} (hi : i < 256) :
    s.readData (BitVec.ofNat 32 (0xC00 + i)) = s.locWord (.len (i / 4 * 4)) := by
  have haddr : (0xC00 + i) / 4 * 4 = 0xC00 + i / 4 * 4 := by omega
  rw [s.readData_of_idle h, wordAddr_ofNat (by omega), haddr, locOf_len (by omega)]

/-- Word 1 of an arena entry as a number (10_state.md R47). -/
theorem Node.links_toNat (n : Node) :
    n.links.toNat = 2147483648 * n.leaf.toNat + 262144 * n.sym.toNat + 512 * n.c1.toNat + n.c0.toNat := by
  simp only [Node.links, toNat_append_eq_add, BitVec.toNat_ofBool, BitVec.toNat_ofNat]
  omega

/-- Word 1 of a decode-table entry as a number (10_state.md R49). -/
theorem DEntry.info_toNat (e : DEntry) : e.info.toNat = 2147483648 * e.v.toNat + 256 * e.len.toNat + e.sym.toNat := by
  simp only [DEntry.info, toNat_append_eq_add, BitVec.toNat_ofBool, BitVec.toNat_ofNat]
  omega

/-- Entry 511, which does not exist, reads as the zero entry (20_memory.md R62). -/
theorem State.nodeAt_511 (s : State) : s.nodeAt 511 = Node.zero := by simp [State.nodeAt]

/-- Settles O47, window by window. -/
theorem tableWindowsReadTheirEntries : Obligations.TableWindowsReadTheirEntries := by
  intro s i h hi
  refine ⟨State.readData_ofNat h (by omega) (by omega) (locOf_freq hi), State.readData_ofNat h (by omega) (by omega) (locOf_code hi),
    ?_, State.readData_ofNat h (by omega) (by omega) (locOf_dtabCode hi), ?_, fun n hn => ⟨?_, ?_⟩, ?_, ?_⟩
  · have hsplit : i / 4 * 4 + i % 4 = i := by omega
    rw [State.readData_len h hi]
    exact (laneOf_ofLanes s.lenAt _ (Nat.mod_lt i (by decide))).trans (congrArg s.lenAt hsplit)
  · rw [State.readData_ofNat h (by omega) (by omega) (locOf_dtabInfo hi)]
    exact DEntry.info_toNat _
  · exact State.readData_ofNat h (by omega) (by omega) (locOf_nodeWeight (by omega))
  · rw [State.readData_ofNat h (by omega) (by omega) (locOf_nodeLinks (by omega))]
    exact Node.links_toNat _
  · exact (State.readData_ofNat h (by decide) (by decide) (locOf_nodeWeight (i := 511) (by decide))).trans
      (congrArg Node.w s.nodeAt_511)
  · exact (State.readData_ofNat h (by decide) (by decide) (locOf_nodeLinks (i := 511) (by decide))).trans
      (congrArg Node.links s.nodeAt_511)

/-! ## Buffer writes (20_memory.md R67) -/

/-- A byte of a buffer after one byte was written into it. -/
theorem State.byteAt_setBuf_set (s : State) (b : Buf) (a : Nat) (v : Byte) (j : Nat) :
    (s.setBuf b ((s.buf b).set a v)).byteAt b j = if j = a then v else s.byteAt b j := by
  rw [State.byteAt, State.setBuf_buf, if_pos rfl, Memory.get?_set, State.setBuf_powerOnId]
  split <;> rfl

/-- The four lanes of a bus word (20_memory.md R60). -/
theorem mem_lanes {k : Nat} : k ∈ [0, 1, 2, 3] ↔ k < 4 := by
  simp only [List.mem_cons, List.not_mem_nil, or_false]
  omega

section
variable (b : Buf) (i : Nat) (d : Word) (strb : Strobe) (s : State)

theorem State.writeLane_params (k : Nat) : (State.writeLane b i d strb s k).params = s.params := by
  unfold State.writeLane
  split <;> simp

/-- A byte of the buffer after one lane. -/
theorem State.byteAt_writeLane (k j : Nat) :
    (State.writeLane b i d strb s k).byteAt b j =
      if j = i + k ∧ laneOn s.params b i strb k = true then laneOf d k else s.byteAt b j := by
  unfold State.writeLane
  split
  · next hon => simp [State.byteAt_setBuf_set, hon]
  · next hoff => simp [hoff]

/-- A byte of the buffer after some lanes: no two lanes write one byte. -/
theorem State.byteAt_writeLanes (ks : List Nat) (j : Nat) :
    (ks.foldl (State.writeLane b i d strb) s).byteAt b j =
      if i ≤ j ∧ j - i ∈ ks ∧ laneOn s.params b i strb (j - i) = true then laneOf d (j - i) else s.byteAt b j := by
  induction ks generalizing s with
  | nil => simp
  | cons k ks ih =>
    rw [List.foldl_cons, ih, State.writeLane_params, State.byteAt_writeLane]
    by_cases hj : j = i + k
    · subst hj
      by_cases hon : laneOn s.params b i strb k = true <;> simp [hon]
    · have hiff : (i ≤ j ∧ j - i ∈ k :: ks ∧ laneOn s.params b i strb (j - i) = true) ↔
          (i ≤ j ∧ j - i ∈ ks ∧ laneOn s.params b i strb (j - i) = true) :=
        and_congr_right fun hle => by rw [List.mem_cons, or_iff_right (by omega)]
      simp only [hj, false_and, if_false, hiff]

/-- A buffer write changes its buffer only. -/
theorem State.writeLanes_frame :
    [0, 1, 2, 3].foldl (State.writeLane b i d strb) s = s.setBuf b (([0, 1, 2, 3].foldl (State.writeLane b i d strb) s).buf b) := by
  refine writeLanes_keep (P := fun t => t = s.setBuf b (t.buf b)) b i d strb s (by cases b <;> rfl) fun t j v _ ht => ?_
  rw [State.setBuf_buf, if_pos rfl]
  conv_lhs => rw [ht]
  cases b <;> rfl

/-- With every lane off nothing is written. -/
theorem State.writeLanes_eq_self {ks : List Nat} (h : ∀ k ∈ ks, laneOn s.params b i strb k = false) :
    ks.foldl (State.writeLane b i d strb) s = s := by
  induction ks with
  | nil => rfl
  | cons k ks ih =>
    have hk : State.writeLane b i d strb s k = s := by simp [State.writeLane, h k List.mem_cons_self]
    rw [List.foldl_cons, hk]
    exact ih fun k' hk' => h k' (List.mem_cons_of_mem k hk')

/-- A write to OBUF changes nothing (20_memory.md R67). -/
theorem State.writeLoc_obuf : s.writeLoc (.buf .obuf i) d strb = s := rfl

/-- A write to IBUF or ABUF, in every phase: no enabled lane below the capacity, dropped while BUSY, or stored. -/
theorem State.writeLoc_buf {b : Buf} (hb : b ≠ .obuf) :
    s.writeLoc (.buf b i) d strb =
      if [0, 1, 2, 3].any (laneOn s.params b i strb) then
        if s.busy then s.dropWrite else [0, 1, 2, 3].foldl (State.writeLane b i d strb) s
      else s := by
  cases b with
  | ibuf => rfl
  | abuf => rfl
  | obuf => exact absurd rfl hb

/-- While IDLE a write to IBUF or ABUF stores its lanes. -/
theorem State.writeLoc_buf_of_idle {b : Buf} (hb : b ≠ .obuf) (h : s.phase = .idle) :
    s.writeLoc (.buf b i) d strb = [0, 1, 2, 3].foldl (State.writeLane b i d strb) s := by
  rw [s.writeLoc_buf i d strb hb, State.busy_idle h]
  split
  · rfl
  · next hoff => exact (s.writeLanes_eq_self b i d strb (by simpa using hoff)).symm

end

/-- Settles O43: the stored lanes, byte by byte, and their frame. -/
theorem bufferWritesSetEnabledLanes : Obligations.BufferWritesSetEnabledLanes := by
  intro s a d strb wa hwa
  replace hwa : wordAddr a = wa := hwa.symm
  refine ⟨fun b lo hi h hmem h1 h2 => ?_, fun h1 h2 => ?_⟩
  · have hb : b ≠ .obuf := by rintro rfl; simp at hmem
    have hwrite : hostWrite s a d strb = [0, 1, 2, 3].foldl (State.writeLane b (wa - lo) d strb) s := by
      rw [hostWrite, hwa, locOf_buf (List.mem_append_left [_] hmem) h1 h2]
      exact s.writeLoc_buf_of_idle _ d strb hb h
    rw [hwrite]
    refine ⟨fun i => ?_, State.writeLanes_frame b _ d strb s⟩
    rw [State.byteAt_writeLanes]
    refine if_congr ?_ rfl rfl
    rw [mem_lanes, laneOn, Bool.and_eq_true, decide_eq_true_eq]
    constructor
    · rintro ⟨hle, hlane, hstrb, hcap⟩
      exact ⟨hle, by omega, hstrb, by omega⟩
    · rintro ⟨hle, hlane, hstrb, hcap⟩
      exact ⟨hle, by omega, hstrb, by omega⟩
  · rw [hostWrite, hwa, locOf_obuf h1 h2]
    exact s.writeLoc_obuf _ d strb

/-! ## Writes that change nothing (20_memory.md R63, R64, R67) -/

/-- A write without a full strobe, or to no register that takes writes (20_memory.md R63). -/
theorem State.writeLoc_reg_eq_self (s : State) (r : Reg) (d : Word) {strb : Strobe}
    (h : strb ≠ 0xF#4 ∨ r.offset ∉ [0x004, 0x008, 0x00C, 0x020, 0x024]) : s.writeLoc (.reg r) d strb = s := by
  rcases h with h | h
  · cases r <;> simp [State.writeLoc, storesAt, h]
  · cases r <;> simp [State.writeLoc, storesAt, Reg.offset] at h ⊢

/-- A write to the register window that is no full strobe to a register that takes writes (20_memory.md R63, 10_state.md R43). -/
theorem hostWrite_registerWindow (s : State) {a : Word} (d : Word) {strb : Strobe} (hlt : wordAddr a < 0x400)
    (h : strb ≠ 0xF#4 ∨ wordAddr a ∉ [0x004, 0x008, 0x00C, 0x020, 0x024]) : hostWrite s a d strb = s := by
  rw [hostWrite]
  rcases locOf_registerWindow hlt with hloc | ⟨r, hoff, hloc⟩
  · rw [hloc]
    rfl
  · rw [hloc]
    exact s.writeLoc_reg_eq_self r d (hoff ▸ h)

/-- A write to a table window, OBUF or a reserved address, none of which stores (20_memory.md R64, R67). -/
theorem State.writeLoc_readOnly (s : State) (d : Word) (strb : Strobe) {wa : Nat}
    (h : (0x400 ≤ wa ∧ wa < 0x10000) ∨ 0x40000 ≤ wa) : s.writeLoc (locOf wa) d strb = s := by
  rw [locOf, if_neg (by omega)]
  split_ifs
  any_goals omega
  all_goals rfl

/-- A buffer write with no enabled lane below the capacity (20_memory.md R67). -/
theorem State.writeLoc_buf_eq_self (s : State) {b : Buf} (hb : b ≠ .obuf) (i : Nat) (d : Word) {strb : Strobe}
    (h : ∀ k < 4, strb.getLsbD k = true → capOf s.params b ≤ i + k) : s.writeLoc (.buf b i) d strb = s := by
  rw [s.writeLoc_buf i d strb hb, if_neg]
  rw [List.any_eq_true]
  rintro ⟨k, hk, hon⟩
  rw [laneOn, Bool.and_eq_true, decide_eq_true_eq] at hon
  obtain ⟨hstrb, hcap⟩ := hon
  exact Nat.not_lt.2 (h k (mem_lanes.1 hk) hstrb) hcap

/-- Settles O42, range by range. -/
theorem otherWritesChangeNothing : Obligations.OtherWritesChangeNothing := by
  rintro s a d strb wa rfl h
  rcases h with ⟨hlt, hpart⟩ | ⟨hlt, hno⟩ | htab | htop | ⟨h1, h2, hoff⟩ | ⟨h1, h2, hoff⟩
  · exact hostWrite_registerWindow s d hlt (.inl hpart)
  · exact hostWrite_registerWindow s d hlt (.inr hno)
  · exact s.writeLoc_readOnly d strb (.inl htab)
  · exact s.writeLoc_readOnly d strb (.inr htop)
  · rw [hostWrite, wordAddr, locOf_ibuf h1 h2]
    exact s.writeLoc_buf_eq_self (by decide) _ d hoff
  · rw [hostWrite, wordAddr, locOf_abuf h1 h2]
    exact s.writeLoc_buf_eq_self (by decide) _ d hoff

end Sys2Proof.Machine
end

section
/-! SUPPORT. The proofs of the encoding's statements (30_encoding.md): the decoder against the encoder and against the opcode map,
the places of packed bits, and the host programs RUN and PUT. -/

namespace Sys2Proof.Machine

/-! ## The fields of a command word (30_encoding.md R90, R91) -/

theorem opcField_toNat (w : Word) : (opcField w).toNat = w.toNat % 256 := by
  simp [opcField]

theorem rsvdField_toNat (w : Word) : (rsvdField w).toNat = w.toNat / 256 := by
  have hw := w.isLt
  rw [rsvdField, BitVec.extractLsb'_toNat, Nat.shiftRight_eq_div_pow]
  omega

theorem rsvdField_eq_zero_iff (w : Word) : rsvdField w = 0#24 ↔ w.toNat / 256 = 0 := by
  rw [← BitVec.toNat_inj, rsvdField_toNat, BitVec.toNat_ofNat]

/-- The number of a command's word is its opcode, for RSVD is 0. -/
theorem encode_toNat (i : Instr) : (encode i).toNat = i.opc.toNat := by cases i <;> rfl

/-- A word is the word of a command exactly when its fields are the command's opcode and 0. -/
theorem eq_encode_iff (w : Word) (i : Instr) : w = encode i ↔ opcField w = i.opc ∧ rsvdField w = 0#24 := by
  have hopc := i.opc.isLt
  rw [rsvdField_eq_zero_iff, ← BitVec.toNat_inj, ← BitVec.toNat_inj, encode_toNat, opcField_toNat]
  omega

/-! ## The opcode map (30_encoding.md R91) -/

theorem ofOpc_opc (i : Instr) : ofOpc i.opc = some i := by cases i <;> rfl

/-- The opcode map reads an opcode as the command that has it, and no other. -/
theorem ofOpc_eq_some_iff (b : Byte) (i : Instr) : ofOpc b = some i ↔ b = i.opc := by
  constructor
  · intro h
    unfold ofOpc at h
    split at h <;> cases h <;> exact BitVec.eq_of_toNat_eq ‹_›
  · rintro rfl
    exact ofOpc_opc i

/-- The ten opcodes of the map. -/
def definedOpcs : List Nat := [0x00, 0x01, 0x10, 0x11, 0x12, 0x13, 0x1F, 0x20, 0x21, 0x2F]

theorem opc_mem_definedOpcs (i : Instr) : i.opc.toNat ∈ definedOpcs := by cases i <;> decide

/-- Each of the ten is a command's opcode. -/
theorem exists_opc_of_mem_definedOpcs : ∀ n ∈ definedOpcs, ∃ i : Instr, n = i.opc.toNat := by
  simp only [definedOpcs, List.forall_mem_cons]
  exact ⟨⟨.nop, rfl⟩, ⟨.clear, rfl⟩, ⟨.freq, rfl⟩, ⟨.build, rfl⟩, ⟨.canon, rfl⟩, ⟨.encode, rfl⟩, ⟨.compress, rfl⟩,
    ⟨.loadtab, rfl⟩, ⟨.decode, rfl⟩, ⟨.decompress, rfl⟩, List.forall_mem_nil _⟩

/-- The map has no command exactly for the other opcodes. -/
theorem ofOpc_eq_none_iff (b : Byte) : ofOpc b = none ↔ b.toNat ∉ definedOpcs := by
  constructor
  · intro h hmem
    obtain ⟨i, hi⟩ := exists_opc_of_mem_definedOpcs _ hmem
    rw [BitVec.eq_of_toNat_eq hi, ofOpc_opc] at h
    cases h
  · refine fun h => Option.eq_none_iff_forall_ne_some.2 fun i hi => h ?_
    rw [(ofOpc_eq_some_iff b i).1 hi]
    exact opc_mem_definedOpcs i

/-- The rows of the map: each command with the number of its word. -/
def opcodeMap : List (Instr × Nat) :=
  [(.nop, 0x00), (.clear, 0x01), (.freq, 0x10), (.build, 0x11), (.canon, 0x12), (.encode, 0x13), (.compress, 0x1F),
    (.loadtab, 0x20), (.decode, 0x21), (.decompress, 0x2F)]

theorem mem_opcodeMap_iff (i : Instr) (n : Nat) : (i, n) ∈ opcodeMap ↔ n = (encode i).toNat := by
  rw [encode_toNat]
  cases i <;> simp [opcodeMap, Instr.opc]

/-! ## The classes of command words (30_encoding.md R92) -/

theorem decodeWord_eq_ok_iff_fields (w : Word) (i : Instr) :
    decodeWord w = .ok i ↔ ofOpc (opcField w) = some i ∧ rsvdField w = 0#24 := by
  unfold decodeWord
  split
  · next h => simp [h]
  · next j h => split <;> simp [*]

theorem decodeWord_eq_undefinedOpc_iff (w : Word) :
    decodeWord w = .error .undefinedOpc ↔ w.toNat % 256 ∉ definedOpcs := by
  rw [← opcField_toNat, ← ofOpc_eq_none_iff]
  unfold decodeWord
  split
  · next h => simp [h]
  · next j h => split <;> simp [h]

theorem decodeWord_eq_reservedBits_iff (w : Word) :
    decodeWord w = .error .reservedBits ↔ w.toNat % 256 ∈ definedOpcs ∧ w.toNat / 256 ≠ 0 := by
  rw [← opcField_toNat, ← (ofOpc_eq_none_iff _).not_left, ne_eq, ← rsvdField_eq_zero_iff]
  unfold decodeWord
  split
  · next h => simp [h]
  · next j h => split <;> simp [*]

/-- A word decodes to a command exactly when it is the command's word. -/
theorem decodeWord_eq_ok_iff (w : Word) (i : Instr) : decodeWord w = .ok i ↔ w = encode i := by
  rw [decodeWord_eq_ok_iff_fields, ofOpc_eq_some_iff, eq_encode_iff]

theorem decodeWord_encode (i : Instr) : decodeWord (encode i) = .ok i := (decodeWord_eq_ok_iff _ i).2 rfl

theorem exists_decodeWord_eq_ok_iff (w : Word) :
    (∃ i, decodeWord w = .ok i) ↔ w.toNat % 256 ∈ definedOpcs ∧ w.toNat / 256 = 0 := by
  rw [← opcField_toNat, ← rsvdField_eq_zero_iff]
  simp only [decodeWord_eq_ok_iff, eq_encode_iff, exists_and_right]
  refine and_congr_left fun _ => ⟨?_, fun h => ?_⟩
  · rintro ⟨i, hi⟩
    rw [hi]
    exact opc_mem_definedOpcs i
  · obtain ⟨i, hi⟩ := exists_opc_of_mem_definedOpcs _ h
    exact ⟨i, BitVec.eq_of_toNat_eq hi⟩

/-- An illegal word's completion (40_control.md R125). -/
theorem completeWord_of_error {w : Word} {r : Illegal} (h : decodeWord w = .error r) (s : State) :
    completeWord w s = .next (runIllegal w r s).finish := by
  rw [completeWord, h]

/-- Settles O2: the decoder tests the two fields that make a word the command's. -/
theorem decodingInvertsEncoding : Obligations.DecodingInvertsEncoding :=
  fun w i _ => decodeWord_eq_ok_iff w i

/-- Settles O3, class by class; the record of an illegal word's completion carries its class. -/
theorem wordsAreClassifiedInOrder : Obligations.WordsAreClassifiedInOrder := by
  intro w
  refine ⟨decodeWord_eq_undefinedOpc_iff w, decodeWord_eq_reservedBits_iff w, fun i => ?_, exists_decodeWord_eq_ok_iff w,
    fun s hopc => ?_, fun s hopc hrsvd => ?_⟩
  · rw [decodeWord_eq_ok_iff, ← BitVec.toNat_inj]
    exact (mem_opcodeMap_iff i w.toNat).symm
  · exact ⟨_, completeWord_of_error ((decodeWord_eq_undefinedOpc_iff w).2 hopc) s, rfl, rfl⟩
  · exact ⟨_, completeWord_of_error ((decodeWord_eq_reservedBits_iff w).2 ⟨hopc, hrsvd⟩) s, rfl, rfl⟩

/-- Settles O1: the ten words are the words of the ten commands. -/
theorem opcodeMapWordsDecode : Obligations.OpcodeMapWordsDecode :=
  ⟨decodeWord_encode .nop, decodeWord_encode .clear, decodeWord_encode .freq, decodeWord_encode .build, decodeWord_encode .canon,
    decodeWord_encode .encode, decodeWord_encode .compress, decodeWord_encode .loadtab, decodeWord_encode .decode,
    decodeWord_encode .decompress, (decodeWord_eq_undefinedOpc_iff _).2 (by decide),
    (decodeWord_eq_reservedBits_iff _).2 (by decide)⟩

/-! ## Places of packed bits (30_encoding.md R110, R111) -/

/-- Bit p of a byte string sits in byte p / 8 at position 7 - p % 8. -/
theorem unpackBits_getElem? (bs : List Byte) (p : Nat) :
    (unpackBits bs)[p]? = bs[p / 8]?.map fun b => b.getLsbD (7 - p % 8) := by
  induction bs generalizing p with
  | nil => rfl
  | cons b bs ih =>
    rw [unpackBits, List.flatMap_cons, ← unpackBits]
    by_cases hp : p < 8
    · rw [List.getElem?_append_left hp, Nat.div_eq_of_lt hp, Nat.mod_eq_of_lt hp]
      interval_cases p <;> rfl
    · obtain ⟨q, rfl⟩ := Nat.exists_eq_add_of_le (Nat.not_lt.1 hp)
      rw [List.getElem?_append_right (Nat.le_add_right 8 q), bitsOfByte_length, Nat.add_sub_cancel_left, ih,
        Nat.add_mod_left, Nat.add_div_left q (by decide), List.getElem?_cons_succ]

theorem unpackBits_getElem {bs : List Byte} {p : Nat} (hp : p < (unpackBits bs).length) :
    (unpackBits bs)[p] = (bs[p / 8]?.getD 0#8).getLsbD (7 - p % 8) := by
  have hbyte : p / 8 < bs.length := by rw [unpackBits_length] at hp; omega
  have hbit := unpackBits_getElem? bs p
  rw [List.getElem?_eq_getElem hp, List.getElem?_eq_getElem hbyte] at hbit
  simpa [List.getElem?_eq_getElem hbyte] using hbit

/-- Settles O21: unpacked, the bytes are the bits and then zeros, and unpacking reads each bit at its place. -/
theorem packedBitsPositions : Obligations.PackedBitsPositions := by
  intro bits
  obtain ⟨n, -, hun⟩ := unpackBits_packBits bits
  refine ⟨packBits_length bits, fun p hp => ?_, fun p hlo hhi => ?_⟩
  · rw [← unpackBits_getElem (by rw [hun, List.length_append]; omega)]
    simp only [hun, List.getElem_append_left hp]
  · rw [← unpackBits_length] at hhi
    rw [← unpackBits_getElem hhi]
    simp only [hun, List.getElem_append_right hlo, List.getElem_replicate]

/-! ## Runs of a program's events (30_encoding.md R114) -/

/-- A run is its first steps and then the rest. -/
theorem run_append {m : Nat} {s t : State} (h : Sys2Proof.core.run m s = .next t) (n : Nat) :
    Sys2Proof.core.run (m + n) s = Sys2Proof.core.run n t := by
  induction m generalizing s with
  | zero => cases h; rw [Nat.zero_add]
  | succ m ih =>
    obtain ⟨u, hu⟩ := step_next s
    rw [run_cons hu] at h
    rw [Nat.succ_add, run_cons hu, ih h]

/-- A program is all of the agenda when nothing else is to happen. -/
theorem State.withProgram_of_agenda_nil {s : State} (h : s.agenda = []) (p : List Stmt) :
    s.withProgram p = s.withHost (programEvents s.params.base p) s.reads := by
  rw [State.withProgram, h]
  rfl

/-- The head of the agenda is what happens next (log entry 3). -/
theorem step_withHost_cons (s : State) (e : Event) (rest : List Event) (rd : List Word) :
    step (s.withHost (e :: rest) rd) = perform (s.withHost rest rd) e :=
  step_of_agenda_cons rfl

section
variable {s : State} {base : Word} (hbase : s.params.base = base) (a d : Word) (strb : Strobe) (rest : List Event) (rd : List Word)
include hbase

/-- On a platform with base address `base` a program's addresses are offsets from it (20_memory.md R76). -/
theorem State.relAddr_base_add : s.relAddr (base + a) = a := by
  rw [State.relAddr, hbase, BitVec.add_comm, BitVec.add_sub_cancel]

/-- A host write at an offset, first in the agenda. -/
theorem step_hostWrite :
    step (s.withHost (.hostWrite (base + a) d strb :: rest) rd) = .next (hostWrite (s.withHost rest rd) a d strb) := by
  rw [step_withHost_cons, perform, State.relAddr_base_add (by exact hbase)]

/-- A host read at an offset, first in the agenda. -/
theorem step_hostRead : step (s.withHost (.hostRead (base + a) :: rest) rd) = .next (hostRead (s.withHost rest rd) a) := by
  rw [step_withHost_cons, perform, State.relAddr_base_add (by exact hbase)]

end

/-! ## RUN (30_encoding.md R115) -/

/-- Bit 0 of STATUS is BUSY (10_state.md R23). -/
theorem State.statusWord_getLsbD_zero (s : State) : s.statusWord.getLsbD 0 = s.busy := by
  have hbit : ∀ b0 b1 b2 b3 b4 : Bool,
      (bitAt 0 b0 ||| bitAt 1 b1 ||| bitAt 2 b2 ||| bitAt 3 b3 ||| bitAt 4 b4).getLsbD 0 = b0 := by decide
  exact hbit _ _ _ _ _

/-- STATUS reads exactly in every phase, and the read leaves everything but the record as it is. -/
theorem hostRead_status (s : State) :
    hostRead s (BitVec.ofNat 32 Reg.status.offset) = s.withHost s.agenda (s.statusWord :: s.reads) := by
  rw [hostRead, State.readData, locOf_wordAddr_offset, s.readDraws_of_exact rfl]
  rfl

/-- Polls of STATUS record its word, whose bits no read changes. -/
theorem run_polls {s : State} {base : Word} (hbase : s.params.base = base) (n : Nat) (rest : List Event) (rd : List Word) :
    Sys2Proof.core.run n (s.withHost (List.replicate n (rdEvent base Reg.status.offset) ++ rest) rd) =
      .next (s.withHost rest (List.replicate n s.statusWord ++ rd)) := by
  induction n generalizing rd with
  | zero => rfl
  | succ n ih =>
    rw [List.replicate_succ, List.cons_append, rdEvent, run_cons (step_hostRead hbase _ _ rd), hostRead_status]
    refine (ih (s.statusWord :: rd)).trans ?_
    rw [ List.replicate_succ', List.append_assoc, List.singleton_append]

/-- The effects keep the parameters: no command writes them (10_state.md R42). -/
theorem effectsKeep_params (p : Params) : EffectsKeep fun s => s.params = p where
  nop _ h := h
  clear _ h := h
  freq _ h := h
  build _ _ h := h
  canon _ _ _ h := h
  encode _ _ h := h
  loadtabError _ h := h
  loadtab _ _ h := h
  decodeError _ _ _ h := h
  decode _ _ _ h := h

section
variable (i : Instr) (s : State)

theorem runOf_finish_params : (runOf i s).finish.params = s.params := by
  have hparams : (runOf i s).state.params = s.params := (effectsKeep_params s.params).runOf i s rfl
  revert hparams
  cases runOf i s <;> exact id

theorem runOf_finish_agenda : (runOf i s).finish.agenda = s.agenda := by
  have hrun : runOf i s = (runOf i s).withHost s.agenda s.reads := runOf_withHost i s s.agenda s.reads
  rw [hrun, Result.finish_withHost]
  rfl

/-- The core's turn behind the acceptance of a command, whatever the agenda and the record (40_control.md R121). -/
theorem step_accepted (rest : List Event) (rd : List Word) :
    step ((s.accept (encode i)).withHost (.coreTurn :: rest) rd) =
      .next ((runOf i (s.accept (encode i))).finish.withHost rest rd) := by
  rw [step_withHost_cons, ← exec_withHost]
  show completeWord (encode i) _ = _
  rw [completeWord, decodeWord_encode]

end

/-- The first event of RUN, from an idle core: acceptance, with the WAIT left to happen. -/
theorem step_run_of_idle (i : Instr) {s : State} (hidle : s.phase = .idle) (hagenda : s.agenda = []) (polls : Nat) :
    step (s.withProgram [.run i polls]) =
      .next ((s.accept (encode i)).withHost (waitEvents s.params.base polls) s.reads) := by
  rw [State.withProgram_of_agenda_nil hagenda, programEvents, List.flatMap_singleton, Stmt.events, wrEvent,
    step_hostWrite rfl]
  exact congrArg _ (hostWrite_cmd_of_idle (s := s.withHost (waitEvents s.params.base polls) s.reads) hidle (encode i))

/-- Settles O52: acceptance, the polls, the completion, and the poll that sees it. -/
theorem runCompletesItsCommand : Obligations.RunCompletesItsCommand := by
  intro s v i polls hidle hagenda hexec
  rw [exec_eq] at hexec
  cases hexec
  refine ⟨?_, by rw [State.statusWord_getLsbD_zero]; rfl, ?_⟩
  · have hpolls := run_polls (s := s.accept (encode i)) rfl polls [.coreTurn, rdEvent s.params.base Reg.status.offset] s.reads
    have hlast := run_polls (congrArg Params.base (runOf_finish_params i (s.accept (encode i)))) 1 []
      (List.replicate polls (s.accept (encode i)).statusWord ++ s.reads)
    rw [run_cons (step_run_of_idle i hidle hagenda polls)]
    refine (run_append hpolls 2).trans ((run_cons (step_accepted i s _ _) 1).trans (hlast.trans ?_))
    rw [← hagenda, ← s.accept_agenda (encode i), ← runOf_finish_agenda]
    rfl
  · rw [State.statusWord_getLsbD_zero, State.busy_idle (Result.finish_phase _)]

/-! ## PUT (30_encoding.md R115) -/

/-- Bit k of the strobe of four consecutive lanes says whether the lane k places on is enabled. -/
theorem strobeOf_getLsbD (f : Nat → Bool) (i : Nat) {k : Nat} (hk : k < 4) :
    (strobeOf (f i) (f (i + 1)) (f (i + 2)) (f (i + 3))).getLsbD k = f (i + k) := by
  have hbits : ∀ k0 k1 k2 k3 : Bool, (strobeOf k0 k1 k2 k3).getLsbD 0 = k0 ∧ (strobeOf k0 k1 k2 k3).getLsbD 1 = k1 ∧
      (strobeOf k0 k1 k2 k3).getLsbD 2 = k2 ∧ (strobeOf k0 k1 k2 k3).getLsbD 3 = k3 := by decide
  obtain ⟨h0, h1, h2, h3⟩ := hbits (f i) (f (i + 1)) (f (i + 2)) (f (i + 3))
  interval_cases k <;> assumption

/-- The bytes of the list stand at the addresses from x on. -/
theorem placed_add (x : Nat) (bytes : List Byte) (k : Nat) : placed x bytes (x + k) = bytes[k]? := by
  rw [placed, if_pos (Nat.le_add_right x k), Nat.add_sub_cancel_left]

theorem placed_eq_none_iff {x : Nat} {bytes : List Byte} {y : Nat} :
    placed x bytes y = none ↔ y < x ∨ x + bytes.length ≤ y := by
  rw [placed]
  split
  · rw [List.getElem?_eq_none_iff]
    omega
  · simp only [true_iff]
    omega

/-- The data of the write that PUT makes to the word at wa. -/
def putData (x : Nat) (bytes : List Byte) (wa : Nat) : Word :=
  ofLanes ((placed x bytes wa).getD 0#8) ((placed x bytes (wa + 1)).getD 0#8) ((placed x bytes (wa + 2)).getD 0#8)
    ((placed x bytes (wa + 3)).getD 0#8)

/-- The strobe of the write that PUT makes to the word at wa. -/
def putStrobe (x : Nat) (bytes : List Byte) (wa : Nat) : Strobe :=
  strobeOf (placed x bytes wa).isSome (placed x bytes (wa + 1)).isSome (placed x bytes (wa + 2)).isSome
    (placed x bytes (wa + 3)).isSome

theorem putWord_eq (base : Word) (x : Nat) (bytes : List Byte) (wa : Nat) :
    putWord base x bytes wa = .hostWrite (base + BitVec.ofNat 32 wa) (putData x bytes wa) (putStrobe x bytes wa) := rfl

theorem laneOf_putData (x : Nat) (bytes : List Byte) (wa : Nat) {k : Nat} (hk : k < 4) :
    laneOf (putData x bytes wa) k = (placed x bytes (wa + k)).getD 0#8 :=
  laneOf_ofLanes (fun y => (placed x bytes y).getD 0#8) wa hk

theorem putStrobe_getLsbD (x : Nat) (bytes : List Byte) (wa : Nat) {k : Nat} (hk : k < 4) :
    (putStrobe x bytes wa).getLsbD k = (placed x bytes (wa + k)).isSome :=
  strobeOf_getLsbD (fun y => (placed x bytes y).isSome) wa hk

/-- The words that PUT writes are those around its bytes. -/
theorem mem_wordsOf_iff {x n wa : Nat} : wa ∈ wordsOf x n ↔ wa % 4 = 0 ∧ x < wa + 4 ∧ wa < x + n ∧ n ≠ 0 := by
  rw [wordsOf]
  split
  · simp [*]
  · simp only [List.mem_map, List.mem_range]
    constructor
    · rintro ⟨t, ht, rfl⟩
      omega
    · rintro ⟨h4, hlo, hhi, hn⟩
      exact ⟨wa / 4 - x / 4, by omega, by omega⟩

/-- The window of IBUF or ABUF on the bus holds the buffer's whole capacity (00_scope.md R7, 20_memory.md R62). -/
theorem locOf_windowBase_add {p : Params} (hp : p.wellFormed = true) {b : Buf} (hb : b ∈ [Buf.ibuf, Buf.abuf]) {wa : Nat}
    (hlo : windowBase b ≤ wa) (hhi : wa < windowBase b + capOf p b) : locOf wa = .buf b (wa - windowBase b) := by
  simp only [Params.wellFormed, Bool.and_eq_true, decide_eq_true_eq] at hp
  simp only [List.mem_cons, List.not_mem_nil, or_false] at hb
  rcases hb with rfl | rfl <;> simp only [windowBase, capOf] at hlo hhi
  · exact locOf_ibuf hlo (by omega)
  · exact locOf_abuf hlo (by omega)

/-- Every window ends below 2^32. -/
theorem windowBase_add_capOf_lt {p : Params} (hp : p.wellFormed = true) (b : Buf) : windowBase b + capOf p b < 2 ^ 32 := by
  simp only [Params.wellFormed, Bool.and_eq_true, decide_eq_true_eq] at hp
  cases b <;> simp only [windowBase, capOf] <;> omega

theorem windowBase_mod_four (b : Buf) : windowBase b % 4 = 0 := by cases b <;> rfl

/-- What byte j of a buffer holds when PUT has written the words `ws`. -/
def State.putByte (s : State) (b : Buf) (o : Nat) (bytes : List Byte) (ws : List Nat) (j : Nat) : Byte :=
  if (windowBase b + j) / 4 * 4 ∈ ws then (placed (windowBase b + o) bytes (windowBase b + j)).getD (s.byteAt b j)
  else s.byteAt b j

section
variable {s : State} {b : Buf} {o : Nat} {bytes : List Byte}

theorem State.setBuf_buf_self : s.setBuf b (s.buf b) = s := by cases b <;> rfl

theorem State.setBuf_buf_same (m : Memory) : (s.setBuf b m).buf b = m := by cases b <;> rfl

theorem State.setBuf_setBuf (m m' : Memory) : (s.setBuf b m).setBuf b m' = s.setBuf b m' := by cases b <;> rfl

/-- The record of the host is no part of the buffers. -/
theorem State.withHost_setBuf (a : List Event) (rd : List Word) (m : Memory) :
    (s.withHost a rd).setBuf b m = (s.setBuf b m).withHost a rd := by cases b <;> rfl

theorem State.withHost_byteAt (a : List Event) (rd : List Word) (j : Nat) : (s.withHost a rd).byteAt b j = s.byteAt b j := by
  cases b <;> rfl

/-- One more word written first. -/
theorem State.putByte_cons {u : State} {wa : Nat} (h : ∀ j, u.byteAt b j = s.putByte b o bytes [wa] j) (ws : List Nat) (j : Nat) :
    u.putByte b o bytes ws j = s.putByte b o bytes (wa :: ws) j := by
  rw [State.putByte, h, State.putByte, State.putByte]
  by_cases hwa : (windowBase b + j) / 4 * 4 = wa
  · cases placed (windowBase b + o) bytes (windowBase b + j) <;> simp [hwa]
  · simp [hwa]

/-- All of PUT's words together write every byte of its list. -/
theorem State.putByte_wordsOf (j : Nat) :
    s.putByte b o bytes (wordsOf (windowBase b + o) bytes.length) j =
      (placed (windowBase b + o) bytes (windowBase b + j)).getD (s.byteAt b j) := by
  rw [State.putByte]
  split
  · rfl
  · next hword =>
    have hnone : placed (windowBase b + o) bytes (windowBase b + j) = none := by
      rw [mem_wordsOf_iff] at hword
      rw [placed_eq_none_iff]
      omega
    rw [hnone, Option.getD_none]

/-- A byte of the buffer behind the write that PUT makes to the word at wa. -/
theorem State.byteAt_putLanes (hcap : o + bytes.length ≤ capOf s.params b) {wa : Nat} (h4 : wa % 4 = 0)
    (hlo : windowBase b ≤ wa) (j : Nat) :
    ([0, 1, 2, 3].foldl (State.writeLane b (wa - windowBase b) (putData (windowBase b + o) bytes wa)
      (putStrobe (windowBase b + o) bytes wa)) s).byteAt b j = s.putByte b o bytes [wa] j := by
  rw [State.byteAt_writeLanes, State.putByte]
  simp only [List.mem_singleton, mem_lanes]
  have hbase := windowBase_mod_four b
  by_cases hword : (windowBase b + j) / 4 * 4 = wa
  · have hj : wa + (j - (wa - windowBase b)) = windowBase b + j := by omega
    have hlane : j - (wa - windowBase b) < 4 := by omega
    rw [if_pos hword, laneOn, laneOf_putData _ _ _ hlane, putStrobe_getLsbD _ _ _ hlane, hj]
    cases hplaced : placed (windowBase b + o) bytes (windowBase b + j) with
    | none => simp
    | some v =>
      have hbound := mt placed_eq_none_iff.2 (hplaced ▸ Option.some_ne_none v)
      rw [if_pos ⟨by omega, hlane, by simp; omega⟩, Option.getD_some, Option.getD_some]
  · rw [if_neg hword, if_neg fun ⟨hle, hlane, _⟩ => hword (by omega)]

variable (hb : b ∈ [Buf.ibuf, Buf.abuf])
include hb

/-- One write of PUT, from an idle core. -/
theorem hostWrite_putWord (hp : s.params.wellFormed = true) (hidle : s.phase = .idle) (hcap : o + bytes.length ≤ capOf s.params b)
    {wa : Nat} (hwa : wa ∈ wordsOf (windowBase b + o) bytes.length) :
    ∃ m, hostWrite s (BitVec.ofNat 32 wa) (putData (windowBase b + o) bytes wa) (putStrobe (windowBase b + o) bytes wa) =
        s.setBuf b m ∧ ∀ j, (s.setBuf b m).byteAt b j = s.putByte b o bytes [wa] j := by
  obtain ⟨h4, hlo, hhi, -⟩ := mem_wordsOf_iff.1 hwa
  have hbase := windowBase_mod_four b
  have hend := windowBase_add_capOf_lt hp b
  have hobuf : b ≠ .obuf := by rintro rfl; simp at hb
  have haddr : wordAddr (BitVec.ofNat 32 wa) = wa := by rw [wordAddr_ofNat (by omega)]; omega
  rw [hostWrite, haddr, locOf_windowBase_add hp hb (by omega) (by omega), State.writeLoc_buf_of_idle _ _ _ _ hobuf hidle]
  have hframe := State.writeLanes_frame b (wa - windowBase b) (putData (windowBase b + o) bytes wa)
    (putStrobe (windowBase b + o) bytes wa) s
  exact ⟨_, hframe, fun j => hframe ▸ State.byteAt_putLanes hcap h4 (by omega) j⟩

/-- The writes of PUT, word by word. -/
theorem run_putWords (hp : s.params.wellFormed = true) (hidle : s.phase = .idle) (hcap : o + bytes.length ≤ capOf s.params b)
    (ws : List Nat) (hws : ∀ wa ∈ ws, wa ∈ wordsOf (windowBase b + o) bytes.length) :
    ∃ m, Sys2Proof.core.run ws.length (s.withHost (ws.map (putWord s.params.base (windowBase b + o) bytes)) s.reads) =
        .next ((s.setBuf b m).withHost [] s.reads) ∧ ∀ j, (s.setBuf b m).byteAt b j = s.putByte b o bytes ws j := by
  induction ws generalizing s with
  | nil => exact ⟨s.buf b, by rw [State.setBuf_buf_self]; rfl, fun j => by rw [State.setBuf_buf_self]; rfl⟩
  | cons wa ws ih =>
    obtain ⟨hwa, hws⟩ := List.forall_mem_cons.1 hws
    obtain ⟨m, hwrite, hbyte⟩ := hostWrite_putWord
      (s := s.withHost (ws.map (putWord s.params.base (windowBase b + o) bytes)) s.reads) hb hp hidle hcap hwa
    rw [State.withHost_setBuf] at hwrite hbyte
    simp only [State.putByte, State.withHost_byteAt] at hbyte
    obtain ⟨m', hrun, hbyte'⟩ := ih (s := s.setBuf b m) (by simpa using hp) (by simpa using hidle) (by simpa using hcap) hws
    rw [State.setBuf_params, State.setBuf_reads] at hrun
    rw [State.setBuf_setBuf] at hrun hbyte'
    refine ⟨m', ?_, fun j => (hbyte' j).trans (State.putByte_cons hbyte ws j)⟩
    rw [List.length_cons, List.map_cons, putWord_eq, run_cons (step_hostWrite rfl _ _ _ _ _), hwrite, hrun]

end

/-- Settles O53: the words of PUT write every byte of its list and no other. -/
theorem putStoresItsBytes : Obligations.PutStoresItsBytes := by
  intro s b o bytes hp hidle hagenda hb hcap
  obtain ⟨m, hrun, hbyte⟩ := run_putWords hb hp hidle hcap (wordsOf (windowBase b + o) bytes.length) fun _ h => h
  have hstart : s.withProgram [.put b o bytes] =
      s.withHost ((wordsOf (windowBase b + o) bytes.length).map (putWord s.params.base (windowBase b + o) bytes)) s.reads := by
    rw [State.withProgram_of_agenda_nil hagenda, programEvents, List.flatMap_singleton, Stmt.events]
  have hend : (s.setBuf b m).withHost [] s.reads = s.setBuf b m := by
    rw [← hagenda]
    cases b <;> rfl
  rw [← hstart, hend] at hrun
  simp only [State.putByte_wordsOf] at hbyte
  refine ⟨s.setBuf b m, _, hrun, by simpa using hagenda, congrArg (s.setBuf b) (State.setBuf_buf_same m).symm, fun k hk => ?_,
    fun i hi => ?_⟩
  · rw [hbyte, ← Nat.add_assoc, placed_add, List.getElem?_eq_getElem hk, Option.getD_some]
  · rw [hbyte, placed_eq_none_iff.2 (by omega), Option.getD_none]

end Sys2Proof.Machine
end

section
/-! SUPPORT. The proofs of the command protocol's and the control commands' statements (40_control.md): acceptance, the step of the
accepted command, illegal words, NOP, CLEAR, and the composite commands as their steps in order. -/

namespace Sys2Proof.Machine

/-! ## Composite commands (40_control.md R127) -/

section
variable (s : State)

/-! What CANON, ENCODE and DECODE read is no part of what a completion writes. -/

@[simp] theorem State.complete_inputLen : s.complete.inputLen = s.inputLen := rfl

@[simp] theorem State.complete_input : s.complete.input = s.input := rfl

@[simp] theorem State.complete_tooLong : s.complete.tooLong = s.tooLong := rfl

@[simp] theorem State.complete_unknownAt (bs : List Byte) : s.complete.unknownAt bs = s.unknownAt bs := rfl

@[simp] theorem State.complete_artifactSize : s.complete.artifactSize = s.artifactSize := rfl

@[simp] theorem State.complete_decoded : s.complete.decoded = s.decoded := rfl

/-- CANON reads neither the phase nor DONE, and its own completion sets both. -/
theorem exec_canon_complete : exec .canon s.complete = exec .canon s := by
  refine congrArg Host.Outcome.next ?_
  unfold runCanon
  rw [s.complete_valid, s.complete_tooLong]
  split
  · cases s.tooLong <;> rfl
  · rfl

/-- ENCODE reads neither the phase nor DONE, and its own completion sets both. -/
theorem exec_encode_complete : exec .encode s.complete = exec .encode s := by
  refine congrArg Host.Outcome.next ?_
  unfold runEncode
  rw [s.complete_valid, s.complete_params, s.complete_inputLen, s.complete_input, s.complete_unknownAt, s.complete_artifactSize]
  split
  · split
    · rfl
    · cases s.unknownAt s.input with
      | some p => rfl
      | none => dsimp only; split <;> rfl
  · rfl

/-- DECODE reads neither the phase nor DONE, and its own completion sets both. -/
theorem exec_decode_complete : exec .decode s.complete = exec .decode s := by
  refine congrArg Host.Outcome.next ?_
  unfold runDecode State.decodeResult
  rw [s.complete_valid, s.complete_params, s.complete_outLen, s.complete_decoded]
  split
  · split
    · rfl
    · cases s.decoded.how <;> rfl
  · rfl

end

/-- COMPRESS is FREQ where FREQ raises. -/
theorem exec_compress_of_overflow {s : State} (h : s.params.inMax < s.inLen.toNat) : exec .compress s = exec .freq s := by
  rcases runFreq_cases s with ⟨_, e, hr, _⟩ | ⟨hle, _⟩
  · rw [exec_eq, exec_eq, runOf, runOf, runCompress, hr]
    rfl
  · exact absurd hle (Nat.not_le.2 h)

/-- Behind FREQ, BUILD finds its table, so only CANON and ENCODE can raise. -/
theorem runCompress_of_fits {s : State} (h : s.inLen.toNat ≤ s.params.inMax) :
    runCompress s = (runCanon s.afterFreq.afterBuild).andThen runEncode := by
  rw [runCompress, runFreq_done s h]
  show ((runBuild s.afterFreq).andThen runCanon).andThen runEncode = _
  rw [runBuild_done s.afterFreq rfl]
  rfl

/-- Of CANON and then ENCODE, on a valid tree: CANON's error when a code is too long, ENCODE's outcome otherwise. -/
theorem finish_canon_andThen_encode {s c : State} (htree : s.valid.tree = true) (hc : exec .canon s = .next c) :
    .next ((runCanon s).andThen runEncode).finish =
      if ∃ i : Fin 256, 32 < (s.lenAt i).toNat then (.next c : Host.Outcome State Fault Refusal) else exec .encode c := by
  rw [exec_eq] at hc
  cases hc
  rcases runCanon_cases s with ⟨hno, _⟩ | ⟨_, e, i, hlong, hr, _⟩ | ⟨_, hle, hr⟩
  · simp [hno] at htree
  · have hex : ∃ i : Fin 256, 32 < (s.lenAt i).toNat := by
      by_contra hno
      push Not at hno
      rw [s.tooLong_eq_none.2 fun i hi => hno ⟨i, hi⟩] at hlong
      cases hlong
    rw [if_pos hex, runOf, hr]
    rfl
  · have hno : ¬ ∃ i : Fin 256, 32 < (s.lenAt i).toNat := by
      rintro ⟨i, hi⟩
      exact absurd (hle i i.isLt) (Nat.not_le.2 hi)
    rw [if_neg hno, runOf, hr]
    exact (exec_encode_complete s.afterCanon).symm

/-- DECOMPRESS is LOADTAB where LOADTAB raises. -/
theorem exec_decompress_of_not_stored {s : State} (h : ¬ s.StoredTableOk) : exec .decompress s = exec .loadtab s := by
  rcases runLoadtab_cases s with ⟨_, e, _, hr⟩ | ⟨hok, _⟩
  · rw [exec_eq, exec_eq, runOf, runOf, runDecompress, hr]
    rfl
  · exact absurd hok h

/-- DECOMPRESS of an acceptable artifact is DECODE behind LOADTAB's commit. -/
theorem exec_decompress_of_stored {s : State} (h : s.StoredTableOk) : exec .decompress s = exec .decode s.afterLoadtab := by
  rw [exec_eq, exec_eq, runOf, runOf, runDecompress, runLoadtab_done s h]
  rfl

/-- Settles O28: a step of a composite command finds what the single commands leave but for the phase and DONE, which no step
reads. -/
theorem compositeCommandsRunTheirSteps : Obligations.CompositeCommandsRunTheirSteps := by
  refine ⟨fun s => exec_compress_of_overflow, fun s a b c hin ha hb hc => ?_, fun s => exec_decompress_of_not_stored,
    fun s a hok ha => ?_⟩
  · rw [exec_eq, runOf, runFreq_done s hin] at ha
    cases ha
    rw [exec_eq, runOf, runBuild_done _ rfl] at hb
    cases hb
    have hcanon : exec .canon s.afterFreq.afterBuild = .next c := (exec_canon_complete _).symm.trans hc
    rw [exec_eq, runOf, runCompress_of_fits hin]
    exact finish_canon_andThen_encode rfl hcanon
  · rw [exec_eq, runOf, runLoadtab_done s hok] at ha
    cases ha
    rw [exec_decompress_of_stored hok]
    exact (exec_decode_complete s.afterLoadtab).symm

/-! ## The phase (40_control.md R120) -/

/-- With the phase, CMD and DONE unchanged, the phase is coherent as before. -/
theorem State.PhaseOk.congr {s t : State} (h : s.PhaseOk) (hphase : t.phase = s.phase) (hcmd : t.cmd = s.cmd)
    (hdone : t.status.done = s.status.done) : t.PhaseOk := by
  simpa only [State.PhaseOk, hphase, hcmd, hdone] using h

theorem State.phaseOk_of_idle {s : State} (h : s.phase = .idle) : s.PhaseOk := by
  simp [State.PhaseOk, h]

/-- An effect of a command leaves the phase, CMD and DONE to the completion. -/
theorem effectsKeep_phaseOk : EffectsKeep State.PhaseOk where
  nop _ h := h.congr rfl rfl rfl
  clear _ h := h.congr rfl rfl rfl
  freq _ h := h.congr rfl rfl rfl
  build _ _ h := h.congr rfl rfl rfl
  canon _ _ _ h := h.congr rfl rfl rfl
  encode _ _ h := h.congr rfl rfl rfl
  loadtabError _ h := h.congr rfl rfl rfl
  loadtab _ _ h := h.congr rfl rfl rfl
  decodeError _ _ _ h := h.congr rfl rfl rfl
  decode _ _ _ h := h.congr rfl rfl rfl

/-- Acceptance makes the phase coherent, W1C can only clear DONE, and resets and completions leave IDLE. -/
theorem eventsKeep_phaseOk : EventsKeep State.PhaseOk where
  agenda _ _ h := h.congr rfl rfl rfl
  read _ _ _ h := h.congr rfl rfl rfl
  w1c _ _ h w hw := by
    obtain ⟨hcmd, hdone⟩ := h w hw
    exact ⟨hcmd, by simp [Status.w1c, hdone]⟩
  ie _ _ h := h.congr rfl rfl rfl
  drop _ _ h := h.congr rfl rfl rfl
  accept _ _ _ _ w hw := by
    cases hw
    exact ⟨rfl, rfl⟩
  inLen _ _ _ h := h.congr rfl rfl rfl
  artLen _ _ _ h := h.congr rfl rfl rfl
  write _ _ _ _ _ h := h.congr (by simp) (by simp) (by simp)
  reset _ _ _ := State.phaseOk_of_idle rfl
  complete _ _ := State.phaseOk_of_idle rfl
  completeError _ _ _ := State.phaseOk_of_idle rfl

/-- Settles O56, by the step's induction over effects and events. -/
theorem stepKeepsPhaseCoherent : Obligations.StepKeepsPhaseCoherent :=
  fun _ _ hs ht => step_keeps effectsKeep_phaseOk eventsKeep_phaseOk ht hs

/-! ## Acceptance and the completion step (40_control.md R120 to R122) -/

/-- A write that would store is dropped while BUSY (70_reset_and_hazards.md R280). -/
theorem State.writeLoc_of_busy {s : State} {v : Word} (h : s.phase = .busy v) {l : Loc} {strb : Strobe}
    (hl : storesAt s.params l strb = true) (d : Word) : s.writeLoc l d strb = s.dropWrite := by
  unfold State.writeLoc
  split
  · cases hl
  · cases hl
  · rw [if_pos hl, if_pos (State.busy_busy h)]

/-- Settles O7: CMD takes full strobes only, and its write stores while IDLE and is dropped while BUSY. -/
theorem commandWriteIsAccepted : Obligations.CommandWriteIsAccepted := by
  intro s w strb
  refine ⟨?_, fun hpart => ?_, ?_⟩
  · rintro hidle rfl
    exact hostWrite_cmd_of_idle hidle w
  · exact (hostWrite_reg s .cmd w strb).trans (s.writeLoc_reg_eq_self .cmd w (.inl hpart))
  · rintro v hbusy rfl
    exact (hostWrite_reg s .cmd w 0xF#4).trans (State.writeLoc_of_busy hbusy rfl w)

/-- In phase BUSY(w) the core's turn is the command that w decodes to. -/
theorem coreTurn_of_busy {s : State} {w : Word} {i : Instr} (hbusy : s.phase = .busy w) (hw : decodeWord w = .ok i) :
    coreTurn s = exec i s := by
  rw [coreTurn, hbusy]
  show completeWord w s = _
  rw [completeWord, hw]

/-- Placing a whole word is its acceptance, with the core's turn next (log entry 10). -/
theorem State.withFetchWord_toNat (s : State) (w : Word) :
    s.withFetchWord 32 w.toNat = { s.accept w with agenda := .coreTurn :: s.agenda } := by
  rw [State.withFetchWord, State.withCommand, Nat.mod_eq_of_lt w.isLt, BitVec.ofNat_toNat, BitVec.setWidth_eq]

/-- Settles O5: each of the three placements is the core's turn in phase BUSY(w). -/
theorem stepRunsTheAcceptedCommand : Obligations.StepRunsTheAcceptedCommand := by
  intro s w i _ hw
  refine ⟨fun hbusy hnil => ?_, fun rest hbusy hturn => ?_, ?_⟩
  · rw [step_of_agenda_nil hnil, coreTurn_of_busy hbusy hw]
  · rw [step_of_agenda_cons hturn]
    exact coreTurn_of_busy hbusy hw
  · rw [s.withFetchWord_toNat, step_of_agenda_cons rfl]
    exact coreTurn_of_busy (s.accept_phase w) hw

/-! ## Illegal words, NOP and CLEAR (40_control.md R123 to R125) -/

/-- The record of an illegal word holds the word in INFO and its class in SUB. -/
theorem runIllegal_finish (w : Word) (r : Illegal) (s : State) :
    (runIllegal w r s).finish =
      { s with
        phase := .idle
        status := { s.status with done := true, err := true }
        errs := { step := opcField w, sub := (illegalKind r).sub, code := (illegalKind r).code, info := w, aux := 0#32 } } := by
  have hinfo : BitVec.ofNat 32 w.toNat = w := by rw [BitVec.ofNat_toNat, BitVec.setWidth_eq]
  simp only [runIllegal, Result.finish, State.recordError, State.complete, Raise.record, hinfo]

/-- Settles O4, for both classes of illegal words. -/
theorem illegalWordCompletesWithItsError : Obligations.IllegalWordCompletesWithItsError := by
  intro w r s hw
  rw [completeWord_of_error hw, runIllegal_finish]
  cases r <;> rfl

/-- Settles O10: NOP's effect and its completion write STATUS and the phase only. -/
theorem nopCompletes : Obligations.NopCompletes := fun _ => rfl

/-- Settles O11: the register and table reset, then the completion, which leaves DONE as the only flag. -/
theorem clearCompletes : Obligations.ClearCompletes := by
  intro s
  refine ⟨s.resetRegs.complete, exec_eq .clear s, ?_, rfl⟩
  exact BitVec.eq_of_toNat_eq (State.statusWord_toNat_of_idle s.resetRegs.complete_phase)

end Sys2Proof.Machine
end

section
/-! SUPPORT. The proofs of FREQ's statements (41_frequency.md): its counts over input positions, its two outcomes, its totals. -/

namespace Sys2Proof.Machine

/-! ## Counts over input positions -/

/-- A symbol's count as the rule spells it, over input positions (41_frequency.md R141). -/
theorem State.countOf_input (s : State) (i : Nat) :
    countOf s.input i = ((List.range s.inLen.toNat).filter fun k => (s.byteAt .ibuf k).toNat = i).length := by
  rw [countOf, State.input, State.bytesAt, List.countP_map, List.countP_eq_length_filter, State.inputLen]
  simp only [Function.comp_def, Nat.zero_add]

theorem State.countOf_input_pos (s : State) (i : Nat) :
    0 < countOf s.input i ↔ ∃ k < s.inLen.toNat, (s.byteAt .ibuf k).toNat = i := by
  simp [s.countOf_input, List.length_pos_iff_exists_mem]

/-- EMPTY's test on the number N is the test on the register IN_LEN. -/
theorem State.inputLen_beq_zero (s : State) : (s.inputLen == 0) = decide (s.inLen = 0#32) := by
  rw [Bool.beq_eq_decide_eq, decide_eq_decide]
  exact (BitVec.toNat_eq (x := s.inLen) (y := 0#32)).symm

/-! ## The two outcomes -/

theorem runFreq_raised (s : State) (h : s.params.inMax < s.inputLen) :
    runFreq s = .raised s { step := Instr.freq.opc, kind := .overflowIn, info := s.inputLen, aux := s.params.inMax } :=
  if_pos h

theorem exec_freq_of_overflow {s : State} (h : s.params.inMax < s.inLen.toNat) :
    exec .freq s = .next
      (s.recordError { step := Instr.freq.opc, kind := .overflowIn, info := s.inputLen, aux := s.params.inMax }).complete := by
  rw [exec_eq, runOf, runFreq_raised s h, Result.finish]

theorem exec_freq_of_fits {s : State} (h : s.inLen.toNat ≤ s.params.inMax) : exec .freq s = .next s.afterFreq.complete := by
  rw [exec_eq, runOf, runFreq_done s h, Result.finish]

/-- Settles O12: the overflow's record, or the effect, whose table holds the counts over input positions. -/
theorem freqCountsTheInput : Obligations.FreqCountsTheInput := by
  intro s
  refine ⟨fun hover => ?_, fun hfits => ⟨s.afterFreq.freq, fun i hi => ?_, ?_⟩⟩
  · have hinfo : BitVec.ofNat 32 s.inputLen = s.inLen := by rw [State.inputLen, BitVec.ofNat_toNat, BitVec.setWidth_eq]
    rw [exec_freq_of_overflow hover, State.recordError, Raise.record, hinfo]
    rfl
  · exact (s.afterFreq_freqAt i hi).trans (s.countOf_input i)
  · rw [exec_freq_of_fits hfits, ← s.inputLen_beq_zero]
    rfl

/-! ## The totals (41_frequency.md R142) -/

theorem State.afterFreq_sum_range (s : State) :
    ((List.range 256).map fun i => (s.afterFreq.freqAt i).toNat).sum = s.inLen.toNat := by
  rw [← sum_filter_range 256 (fun i => 0 < (s.afterFreq.freqAt i).toNat) _ fun i _ h => by simpa using h, ← State.present_eq]
  exact s.afterFreq_sum

/-- Settles O13, from the counts that FREQ leaves. -/
theorem freqTotalsTheInputLength : Obligations.FreqTotalsTheInputLength := by
  intro s t hfits ht
  rw [exec_freq_of_fits hfits] at ht
  cases ht
  refine ⟨s.afterFreq_sum_range, fun i hi => ?_⟩
  show (s.afterFreq.freqAt i).toNat ≤ _ ∧ (0 < (s.afterFreq.freqAt i).toNat ↔ _)
  rw [s.afterFreq_freqAt i hi]
  exact ⟨(countOf_le s.input i).trans_eq s.input_length, s.countOf_input_pos i⟩

end Sys2Proof.Machine
end

section
/-! SUPPORT. The proofs of BUILD's statements (42_tree.md): its two outcomes, the arena's layout, each combination, and the code
lengths as depths in the tree. -/

namespace Sys2Proof.Machine

/-! ## The two outcomes (42_tree.md R151, R154) -/

theorem runBuild_raised {s : State} (h : s.valid.freq = false) :
    runBuild s = .raised s { step := Instr.build.opc, kind := .missingFreq, info := 0, aux := 0 } := by
  simp [runBuild, h]

theorem exec_build_of_noFreq {s : State} (h : s.valid.freq = false) :
    exec .build s = .next
      (s.recordError { step := Instr.build.opc, kind := .missingFreq, info := 0, aux := 0 }).complete := by
  rw [exec_eq, runOf, runBuild_raised h, Result.finish]

theorem exec_build_of_freq {s : State} (h : s.valid.freq = true) : exec .build s = .next s.afterBuild.complete := by
  rw [exec_eq, runOf, runBuild_done s h, Result.finish]

/-- ROOT as a register word, with the two cases of R154 apart. -/
theorem ofNat_rootIndex (k : Nat) :
    BitVec.ofNat 9 (rootIndex k) = if k = 0 then 0x1FF#9 else BitVec.ofNat 9 (2 * k - 2) :=
  apply_ite _ _ _ _

/-- Settles O14: the record of a missing frequency table, or the effect, whose registers are functions of K. -/
theorem buildCompletesOrReports : Obligations.BuildCompletesOrReports := by
  intro s
  refine ⟨fun hno => ?_, fun k hfreq hk => ⟨s.afterBuild.node, s.afterBuild.len, ?_⟩⟩
  · rw [exec_build_of_noFreq hno]
    rfl
  · rw [← s.present_eq, ← s.leaves_length] at hk
    subst hk
    rw [exec_build_of_freq hfreq, ← ofNat_rootIndex, ← Bool.beq_eq_decide_eq]
    rfl

/-! ## The arena that NODE holds (42_tree.md R152) -/

theorem entryOf_of_length_le {nodes : List Node} {i : Nat} (h : nodes.length ≤ i) : entryOf nodes i = Node.zero := by
  simp [entryOf, h]

/-- The arena of any number of leaves, none and one included: its length, and a root that alone has no parent. -/
theorem State.arena_ok (s : State) :
    (arenaOf s.leaves).length = 2 * s.present.length - 1 ∧
    ∃ act, ArenaOk s.present.length (arenaOf s.leaves) act ∧ ∀ j ∈ act.map Active.idx, j + 2 = 2 * s.present.length := by
  rw [← s.leaves_length]
  rcases Nat.eq_zero_or_pos s.leaves.length with h0 | hpos
  · rw [List.eq_nil_of_length_eq_zero h0]
    exact ⟨rfl, [], ArenaOk.first [] (by simp), by simp⟩
  · obtain ⟨hlen, ⟨act, hok, hidx⟩, -⟩ := arenaOf_tree s.leaves s.leaves_leaf hpos (s.leaves_length ▸ s.present_length_le)
    refine ⟨hlen, act, hok, fun j hj => ?_⟩
    rw [hidx, List.mem_singleton] at hj
    omega

theorem State.entryOf_arena_leaf (s : State) {k : Nat} (hk : k < s.present.length) :
    entryOf (arenaOf s.leaves) k = leafNode (s.freqAt s.present[k]) s.present[k] := by
  have hlen := s.leaves_length
  obtain ⟨-, -, hkeep, -⟩ := arenaOf_tree s.leaves s.leaves_leaf (by omega) (hlen ▸ s.present_length_le)
  rw [hkeep k (by omega), entryOf_leaves s hk]

/-- NODE after BUILD is the arena at every index. -/
theorem State.nodeAt_afterBuild (s : State) (i : Nat) : s.afterBuild.complete.nodeAt i = entryOf (arenaOf s.leaves) i := by
  have hnode : s.afterBuild.complete.nodeAt i = (nodeTable (arenaOf s.leaves))[i]?.getD Node.zero := rfl
  rw [hnode, nodeTable, tabulate_getElem?]
  by_cases hi : i < 511
  · rw [if_pos hi, Option.getD_some, entryOf]
  · have hk := s.present_length_le
    rw [if_neg hi, Option.getD_none, entryOf_of_length_le (by rw [s.arena_ok.1]; omega)]

/-- Settles O15: the arena's layout is the invariant that every combination keeps. -/
theorem buildLaysOutTheArena : Obligations.BuildLaysOutTheArena := by
  intro s t syms hfreq ht hsyms
  rw [← s.present_eq] at hsyms
  subst hsyms
  rw [exec_build_of_freq hfreq] at ht
  cases ht
  obtain ⟨hlen, act, hok, hroot⟩ := s.arena_ok
  simp only [s.nodeAt_afterBuild]
  refine ⟨fun k hk => s.entryOf_arena_leaf hk, fun i hi hi2 => hok.inner i hi (by omega),
    fun i _ hi => entryOf_of_length_le (by omega), fun j hj => ?_⟩
  obtain ⟨hin, -⟩ | ⟨-, p, ⟨⟨hp1, hp2⟩, hpj⟩, huniq⟩ := hok.parent j (by omega)
  · have := hroot j hin
    omega
  · exact ⟨p, ⟨hp1, by omega, hpj⟩, fun q ⟨hq1, hq2, hqj⟩ => huniq q ⟨⟨hq1, by omega⟩, hqj⟩⟩

/-! ## One combination (42_tree.md R153, R157) -/

/-- The order of R153 is total. -/
theorem Active.before_of_not_before {a b : Active} (h : b.before a = false) (hne : a ≠ b) : a.before b = true := by
  rw [Active.not_before_iff] at h
  rw [Active.before_iff]
  refine h.imp_right fun ⟨hw, hle⟩ => ⟨hw, Nat.lt_of_le_of_ne hle fun hidx => hne ?_⟩
  cases a
  cases b
  simp_all

/-- The argmin comes before every other member. -/
theorem argmin_before {l : List Active} {a b : Active} (h : argmin l = some a) (hb : b ∈ l) (hne : b ≠ a) : a.before b = true :=
  Active.before_of_not_before ((argmin_spec h).2 b hb) hne.symm

/-- The active set is the set of nodes that have no parent yet. -/
theorem ArenaOk.mem_idx_iff {k : Nat} {nodes : List Node} {act : List Active} (h : ArenaOk k nodes act) (j : Nat) :
    j ∈ act.map Active.idx ↔ j < nodes.length ∧ ∀ p, k ≤ p → p < nodes.length → ¬ childOf nodes p j := by
  constructor
  · intro hj
    obtain ⟨a, ha, rfl⟩ := List.mem_map.1 hj
    obtain ⟨-, hno⟩ | ⟨hout, -⟩ := h.parent _ (h.active_lt a ha)
    · exact ⟨h.active_lt a ha, hno⟩
    · exact absurd hj hout
  · rintro ⟨hlt, hno⟩
    obtain ⟨hin, -⟩ | ⟨-, p, ⟨⟨hp1, hp2⟩, hpj⟩, -⟩ := h.parent j hlt
    · exact hin
    · exact absurd hpj (hno p hp1 hp2)

/-- Combination u in the finished arena: its node is the parent of the two least members of the set of the nodes that exist and
have no parent yet, each with the weight that the arena holds. -/
theorem State.arena_combination (s : State) {u : Nat} (hu : u + 1 < s.present.length) :
    ∃ act x y, argmin act = some x ∧ argmin (act.erase x) = some y ∧ act.Nodup ∧
      entryOf (arenaOf s.leaves) (s.present.length + u) = innerNode x y ∧
      (∀ a ∈ act, (entryOf (arenaOf s.leaves) a.idx).w = a.w) ∧
      ∀ j, j ∈ act.map Active.idx ↔
        j < s.present.length + u ∧
          ∀ p, s.present.length ≤ p → p < s.present.length + u → ¬ childOf (arenaOf s.leaves) p j := by
  have hk := s.present_length_le
  rw [← s.leaves_length] at hu hk ⊢
  have hfirst := ArenaOk.first s.leaves s.leaves_leaf
  have hact := firstActive_length s.leaves
  obtain ⟨hok, hlen, -⟩ := hfirst.after rfl hact hk u (by omega)
  obtain ⟨x, y, hx, hy, -, -, -, hnode⟩ := combineState_node hfirst rfl hact hk hu
  have hkeep : ∀ i < s.leaves.length + u,
      entryOf (arenaOf s.leaves) i = entryOf (combineState s.leaves (firstActive s.leaves) u).1 i := fun i hi => by
    rw [arenaOf_eq]
    exact combineState_entry hfirst rfl hact hk (by omega) (by omega) hi
  refine ⟨_, x, y, hx, hy, hok.act_nodup, by rw [arenaOf_eq, hnode], fun a ha => ?_, fun j => ?_⟩
  · rw [hkeep _ (hlen ▸ hok.active_lt a ha), hok.active_w a ha]
  · rw [hok.mem_idx_iff, hlen]
    refine and_congr_right fun _ => forall_congr' fun p => forall_congr' fun _ => forall_congr' fun hp => ?_
    rw [childOf, childOf, hkeep p hp]

/-- Settles O16: the free nodes are the active set of the combination, whose two argmins are the children. -/
theorem buildCombinesTheTwoLeast : Obligations.BuildCombinesTheTwoLeast := by
  intro s t k u hfreq ht hk hu
  rw [← s.present_eq] at hk
  subst hk
  rw [exec_build_of_freq hfreq] at ht
  cases ht
  obtain ⟨act, a, b, ha, hb, hnodup, hnode, hweight, hmem⟩ := s.arena_combination hu
  have hle := s.present_length_le
  have ham := (argmin_spec ha).1
  obtain ⟨hbm, hab⟩ := mem_of_argmin_erase hnodup hb
  have hfree : ∀ c ∈ act, c.idx ∈ act.map Active.idx := fun c hc => List.mem_map_of_mem hc
  have hlt : ∀ c ∈ act, c.idx < 512 := fun c hc => by
    have := ((hmem c.idx).1 (hfree c hc)).1
    omega
  have hless : ∀ c ∈ act, ∀ d ∈ act, c.before d = true →
      (entryOf (arenaOf s.leaves) c.idx).w.toNat < (entryOf (arenaOf s.leaves) d.idx).w.toNat ∨
        (entryOf (arenaOf s.leaves) c.idx).w = (entryOf (arenaOf s.leaves) d.idx).w ∧ c.idx < d.idx := fun c hc d hd h => by
    rw [hweight c hc, hweight d hd]
    exact (Active.before_iff c d).1 h
  simp only [s.nodeAt_afterBuild, ← not_or]
  simp only [hnode, innerNode_c0 b (hlt a ham), innerNode_c1 a (hlt b hbm)]
  refine ⟨(hmem _).1 (hfree a ham), (hmem _).1 (hfree b hbm), hless a ham b hbm (argmin_before ha hbm hab.symm), ?_, ?_⟩
  · intro j hj hja hjb
    obtain ⟨c, hc, rfl⟩ := List.mem_map.1 ((hmem j).2 hj)
    have hca : c ≠ a := fun e => hja (congrArg Active.idx e)
    have hcb : c ≠ b := fun e => hjb (congrArg Active.idx e)
    exact hless b hbm c hc (argmin_before hb ((List.mem_erase_of_ne hca).2 hc) hcb)
  · rw [hweight a ham, hweight b hbm]
    exact innerNode_w

/-! ## Depths (42_tree.md R156) -/

/-- The depth of index i, counted from the root; 0 for an index that the tree does not hold. -/
def ArenaTree.depthOf (t : ArenaTree) (i : Nat) : Nat := ((t.depths 0).lookup i).getD 0

/-- In a tree that holds every index once, the depth listed with an index is its depth. -/
theorem ArenaTree.depthOf_eq {t : ArenaTree} (h : t.indices.Nodup) {i d : Nat} (hd : (i, d) ∈ t.depths 0) : t.depthOf i = d := by
  obtain ⟨l1, l2, hl⟩ := List.append_of_mem hd
  have hnot : ∀ p ∈ l1, (i != p.1) = true := fun p hp => by
    rw [← t.depths_fst 0, hl, List.map_append, List.nodup_append] at h
    exact bne_iff_ne.2 (h.2.2 p.1 (List.mem_map_of_mem hp) i (by simp)).symm
  rw [ArenaTree.depthOf, List.lookup_eq_some_iff.2 ⟨l1, l2, hl, hnot⟩, Option.getD_some]

theorem ArenaTree.exists_mem_depths {t : ArenaTree} {i : Nat} (h : i ∈ t.indices) : ∃ d, (i, d) ∈ t.depths 0 := by
  rw [← t.depths_fst 0] at h
  obtain ⟨⟨i, d⟩, hd, rfl⟩ := List.mem_map.1 h
  exact ⟨d, hd⟩

theorem ArenaTree.exists_mem_leafDepths {t : ArenaTree} {i : Nat} (h : i ∈ t.leaves) : ∃ d, (i, d) ∈ t.leafDepths 0 := by
  rw [← t.leafDepths_fst 0] at h
  obtain ⟨⟨i, d⟩, hd, rfl⟩ := List.mem_map.1 h
  exact ⟨d, hd⟩

theorem State.lenAt_afterBuild_eq {s : State} {i n : Nat} (hi : i < 256) (hn : s.buildLen i = n) :
    s.afterBuild.complete.lenAt i = BitVec.ofNat 8 n := by
  rw [← hn, ← s.lenAt_afterBuild i hi, BitVec.ofNat_toNat, BitVec.setWidth_eq]
  rfl

/-- Settles O17: over two symbols or more LEN holds the leaves' depths in the one tree that the arena holds. -/
theorem buildLengthsAreLeafDepths : Obligations.BuildLengthsAreLeafDepths := by
  intro s t syms hfreq ht hsyms
  rw [← s.present_eq] at hsyms
  subst hsyms
  rw [exec_build_of_freq hfreq] at ht
  cases ht
  refine ⟨fun i hi hzero => ?_, fun i hone => ?_, fun h2 => ?_⟩
  · exact State.lenAt_afterBuild_eq hi (s.buildLen_zero (by simp [s.mem_present, hzero]))
  · exact State.lenAt_afterBuild_eq ((s.mem_present i).1 (by simp [hone])).1 (s.buildLen_single hone)
  · obtain ⟨T, hroot, hfits, hind, hlv, hlen, -⟩ := s.buildLen_tree h2
    have hdepth : ∀ {i d}, (i, d) ∈ T.depths 0 → T.depthOf i = d := T.depthOf_eq (hind.nodup_iff.2 List.nodup_range)
    have hleaves : T.leaves.length = s.present.length := by rw [hlv.length_eq, List.length_range]
    refine ⟨T.depthOf, hroot ▸ hdepth (T.root_mem 0), fun p hp1 hp2 => ?_, fun k hk => ?_⟩
    · obtain ⟨d, hd⟩ := T.exists_mem_depths (hind.mem_iff.2 (List.mem_range.2 (show p < _ by omega)))
      obtain ⟨h0, h1⟩ := hfits.depths_child 0 _ hd hp1
      rw [s.nodeAt_afterBuild, hdepth hd]
      exact ⟨hdepth h0, hdepth h1⟩
    · obtain ⟨d, hd⟩ := T.exists_mem_leafDepths (hlv.mem_iff.2 (List.mem_range.2 hk))
      obtain ⟨_, hbuild⟩ := hlen _ hd
      have hbelow := T.leafDepths_below (by omega) 0 _ hd
      have hbound := (T.leafDepths_bounds 0 _ hd).2
      have hsym := ((s.mem_present _).1 (List.getElem_mem hk)).1
      rw [hdepth (T.leafDepths_sub 0 _ hd)]
      exact ⟨(s.lenAt_afterBuild _ hsym).trans hbuild, by omega, by omega⟩

end Sys2Proof.Machine
end

section
/-! SUPPORT. The proofs of CANON's statements (43_codegen.md): its three outcomes, the canonical assignment along its order, and the
code table behind BUILD, whose codes fit and do not begin one another. -/

namespace Sys2Proof.Machine

/-! ## The three outcomes (43_codegen.md R171) -/

theorem State.tooLong_eq_some (s : State) {i : Nat} (hi : i < 256) (hlong : lMax < (s.lenAt i).toNat)
    (hleast : ∀ j < i, (s.lenAt j).toNat ≤ lMax) : s.tooLong = some i := by
  rw [State.tooLong, indicesWhere_eq _ _ 0#8, List.head?_filter, List.find?_range_eq_some]
  exact ⟨decide_eq_true hlong, List.mem_range.2 hi, fun j hj => by simpa [State.lenAt] using hleast j hj⟩

theorem exec_canon_of_noTree {s : State} (h : s.valid.tree = false) :
    exec .canon s = .next
      (s.recordError { step := Instr.canon.opc, kind := .missingTree, info := 0, aux := 0 }).complete := by
  rw [exec_eq, runOf, runCanon, if_neg (by simp [h]), Result.finish]

theorem exec_canon_of_tooLong {s : State} {i : Nat} (h : s.valid.tree = true) (hi : s.tooLong = some i) :
    exec .canon s = .next
      (s.recordError { step := Instr.canon.opc, kind := .codeTooLong, info := i, aux := (s.lenAt i).toNat }).complete := by
  rw [exec_eq, runOf, runCanon, if_pos h, hi]
  rfl

theorem exec_canon_of_fits {s : State} (h : s.valid.tree = true) (hlen : ∀ i < 256, (s.lenAt i).toNat ≤ lMax) :
    exec .canon s = .next s.afterCanon.complete := by
  rw [exec_eq, runOf, runCanon_done s h hlen, Result.finish]

/-- Settles O18: the record of a missing tree or of the lowest code too long, or the effect with the table that it writes. -/
theorem canonCompletesOrReports : Obligations.CanonCompletesOrReports := by
  intro s
  refine ⟨fun hno => ?_, fun i hi htree hlong hleast => ?_, fun htree hlen => ⟨s.afterCanon.code, ?_⟩⟩
  · rw [exec_canon_of_noTree hno]
    rfl
  · rw [exec_canon_of_tooLong htree (s.tooLong_eq_some hi hlong hleast), State.recordError, Raise.record,
      BitVec.ofNat_toNat]
    rfl
  · rw [exec_canon_of_fits htree hlen, ← Bool.beq_eq_decide_eq]
    rfl

/-! ## The canonical assignment (43_codegen.md R172) -/

/-- The symbols with a length, by length and then by symbol. -/
def State.canonSymbols (s : State) : List Nat := s.canonOrder.map Prod.snd

theorem State.mem_canonSymbols (s : State) (i : Nat) : i ∈ s.canonSymbols ↔ i < 256 ∧ 0 < (s.lenAt i).toNat :=
  s.canonOrder_snd_perm.mem_iff.trans (s.mem_coded i)

theorem State.canonOrder_fst_of_mem (s : State) {p : Nat × Nat} (hp : p ∈ s.canonOrder) : p.1 = (s.lenAt p.2).toNat := by
  obtain ⟨j, hj, rfl⟩ := List.getElem_of_mem hp
  exact s.canonOrder_fst j hj

/-- No symbol stands twice in the order, so it rises strictly. -/
theorem State.canonSymbols_pairwise (s : State) : s.canonSymbols.Pairwise fun a b =>
    (s.lenAt a).toNat < (s.lenAt b).toNat ∨ ((s.lenAt a).toNat = (s.lenAt b).toNat ∧ a < b) := by
  refine List.pairwise_map.2 ((s.canonOrder_sorted.and (List.pairwise_map.1 s.canonOrder_nodup)).imp_of_mem ?_)
  rintro p q hp hq ⟨hle, hne⟩
  rw [← s.canonOrder_fst_of_mem hp, ← s.canonOrder_fst_of_mem hq]
  exact hle.imp_right fun ⟨hlen, hsym⟩ => ⟨hlen, Nat.lt_of_le_of_ne hsym hne⟩

theorem State.codeAt_afterCanon_of_lenAt_zero (s : State) {i : Nat} (hi : i < 256) (hzero : s.lenAt i = 0#8) :
    s.afterCanon.codeAt i = 0#32 := by
  rw [s.codeAt_afterCanon i hi, s.canonCode_zero (by simp [s.mem_coded, hzero])]

/-- CODE of the order's m-th symbol is the m-th canonical code mod 2^32. -/
theorem State.codeAt_afterCanon_canonSymbols (s : State) {m : Nat} (hv : m < (canonValues s.canonOrder).length)
    (hm : m < s.canonSymbols.length) :
    s.afterCanon.codeAt s.canonSymbols[m] = BitVec.ofNat 32 (canonValues s.canonOrder)[m] := by
  have hlt := ((s.mem_canonSymbols _).1 (List.getElem_mem hm)).1
  have hsym : s.canonSymbols[m] = (s.canonOrder[m]'(by simpa [State.canonSymbols] using hm)).2 := List.getElem_map _
  rw [s.codeAt_afterCanon _ hlt, State.canonCode, hsym, codeOf_eq s.canonOrder_nodup m _ hv]

theorem State.canonValues_canonSymbols_succ (s : State) {m : Nat} (hv : m + 1 < (canonValues s.canonOrder).length)
    (hm : m + 1 < s.canonSymbols.length) :
    (canonValues s.canonOrder)[m + 1] = ((canonValues s.canonOrder)[m] + 1) <<<
      ((s.lenAt s.canonSymbols[m + 1]).toNat - (s.lenAt s.canonSymbols[m]).toNat) := by
  have hlt : m + 1 < s.canonOrder.length := by simpa [State.canonSymbols] using hm
  rw [canonValues_succ s.canonOrder m hv hlt, s.canonOrder_fst _ hlt, s.canonOrder_fst m (by omega)]
  simp only [State.canonSymbols, List.getElem_map]

/-- Settles O19: CANON's sorted pairs give the order, and the recurrence over them gives the codes. -/
theorem canonAssignsCanonicalCodes : Obligations.CanonAssignsCanonicalCodes := by
  intro s t htree hlen ht
  rw [exec_canon_of_fits htree hlen] at ht
  cases ht
  exact ⟨fun i hi hzero => s.codeAt_afterCanon_of_lenAt_zero hi hzero,
    s.canonSymbols, canonValues s.canonOrder, s.mem_canonSymbols, s.canonSymbols_pairwise,
    by rw [canonValues_length, State.canonSymbols, List.length_map], canonValues_zero s.canonOrder,
    fun _ => s.canonValues_canonSymbols_succ, fun _ => s.codeAt_afterCanon_canonSymbols⟩

/-! ## The code table behind BUILD (43_codegen.md R174) -/

/-- A fitting code table fits at every symbol: one without a length has the code 0 < 2 ^ 0. -/
theorem State.codeAt_afterCanon_lt {s : State} (h : s.afterCanon.CodesOk) {i : Nat} (hi : i < 256) :
    (s.afterCanon.codeAt i).toNat < 2 ^ (s.lenAt i).toNat := by
  by_cases hzero : s.lenAt i = 0#8
  · rw [s.codeAt_afterCanon_of_lenAt_zero hi hzero]
    exact Nat.two_pow_pos _
  · exact h.fit i ((s.mem_coded i).2 ⟨hi, Nat.pos_of_ne_zero fun h0 => hzero (BitVec.eq_of_toNat_eq h0)⟩)

theorem State.lenAt_afterBuild_pos_iff (s : State) {i : Nat} (hi : i < 256) :
    0 < (s.afterBuild.lenAt i).toNat ↔ 0 < (s.freqAt i).toNat := by
  have hmem := s.afterBuild.mem_coded i
  rw [s.afterBuild_coded, s.mem_present] at hmem
  simpa [hi] using hmem.symm

/-- Settles O20: the lengths of BUILD meet the Kraft inequality, so the canonical codes fit them and none begins another. -/
theorem canonicalCodesArePrefixFree : Obligations.CanonicalCodesArePrefixFree := by
  intro s t u hfreq ht hlen hu
  rw [exec_build_of_freq hfreq] at ht
  cases ht
  rw [exec_canon_complete, exec_canon_of_fits (s := s.afterBuild) rfl hlen] at hu
  cases hu
  have hok := s.codesOk_afterCanon hlen
  exact ⟨fun i hi => s.lenAt_afterBuild_pos_iff hi, fun i hi => State.codeAt_afterCanon_lt hok hi,
    fun i hi j hj hij hposi hposj => hok.free i ((State.mem_coded _ i).2 ⟨hi, hposi⟩) j ((State.mem_coded _ j).2 ⟨hj, hposj⟩) hij⟩

end Sys2Proof.Machine
end

section
/-! SUPPORT. The proofs of the bit stream's statements (44_bitstream.md): one more bit changes one byte of the packed bytes,
which is the byte PutBit changes in the memory; and the reader's bit is the bit of the unpacked payload. -/

namespace Sys2Proof.Machine

/-! ## One more packed bit (30_encoding.md R110, R111) -/

/-- The byte that PutBit ors in holds the bit at one place. -/
theorem getLsbD_bit_shiftLeft (v : Bool) {n r : Nat} (hr : r < 8) :
    (BitVec.ofNat 8 v.toNat <<< n).getLsbD r = (decide (r = n) && v) := by
  cases v with
  | false => simp
  | true =>
    by_cases h : r = n
    · subst h
      simp [hr]
    · have hoff : ¬(n ≤ r ∧ r - n = 0) := by omega
      simpa [h, hr] using hoff

/-- One more bit, with every position past the last one read as 0. -/
theorem getElem?_concat_getD_false (bits : List Bool) (v : Bool) (p : Nat) :
    (bits ++ [v])[p]?.getD false = (bits[p]?.getD false || (decide (p = bits.length) && v)) := by
  rcases Nat.lt_trichotomy p bits.length with hlt | rfl | hgt
  · rw [List.getElem?_append_left hlt, decide_eq_false (Nat.ne_of_lt hlt), Bool.false_and, Bool.or_false]
  · simp
  · rw [List.getElem?_eq_none (by simpa using hgt), List.getElem?_eq_none (Nat.le_of_lt hgt)]
    simp [Nat.ne_of_gt hgt]

/-- R110 read by bytes: position r of byte j is meaningful bit 8 j + (7 - r), and 0 past the last one. -/
theorem packBits_getLsbD (bits : List Bool) (j : Nat) {r : Nat} (hr : r < 8) :
    ((packBits bits)[j]?.getD 0#8).getLsbD r = bits[8 * j + (7 - r)]?.getD false := by
  obtain ⟨-, hbit, hpad⟩ := packedBitsPositions bits
  have hj : (8 * j + (7 - r)) / 8 = j := by omega
  have hr' : 7 - (8 * j + (7 - r)) % 8 = r := by omega
  by_cases hlen : 8 * j + (7 - r) < bits.length
  · have hread := hbit _ hlen
    rw [hj, hr'] at hread
    rw [hread, List.getElem?_eq_getElem hlen, Option.getD_some]
  · rw [List.getElem?_eq_none (Nat.not_lt.1 hlen), Option.getD_none]
    by_cases hbytes : j < (packBits bits).length
    · have hzero := hpad (8 * j + (7 - r)) (by omega) (by omega)
      rwa [hj, hr'] at hzero
    · simp [List.getElem?_eq_none (Nat.not_lt.1 hbytes)]

/-- One more bit is ored into its byte; the other bytes stay. -/
theorem packBits_concat_getD (bits : List Bool) (v : Bool) (j : Nat) :
    (packBits (bits ++ [v]))[j]?.getD 0#8 = (packBits bits)[j]?.getD 0#8 |||
      if j = bits.length / 8 then BitVec.ofNat 8 v.toNat <<< (7 - bits.length % 8) else 0#8 := by
  refine BitVec.eq_of_getLsbD_eq fun r hr => ?_
  rw [BitVec.getLsbD_or, packBits_getLsbD _ _ hr, packBits_getLsbD _ _ hr, getElem?_concat_getD_false]
  have hplace : 8 * j + (7 - r) = bits.length ↔ j = bits.length / 8 ∧ r = 7 - bits.length % 8 := by omega
  congr 1
  split
  next hj => rw [getLsbD_bit_shiftLeft v hr, decide_eq_decide.2 (hplace.trans (and_iff_right hj))]
  next hj => rw [decide_eq_false fun hp => hj (hplace.1 hp).1, BitVec.getLsbD_zero, Bool.false_and]

/-! ## The writer's memory (44_bitstream.md R181) -/

/-- What PutBit leaves at each index: its byte, cleared when it is a new one, with the bit ored in. -/
theorem Writer.get?_putBit (w : Writer) (v : Bool) (i : Nat) :
    (w.putBit v).mem.get? i =
      if i = w.base + w.p / 8 then
        some ((if w.p % 8 = 0 then 0#8 else (w.mem.get? (w.base + w.p / 8)).getD 0#8) |||
          (BitVec.ofNat 8 v.toNat <<< (7 - w.p % 8)))
      else w.mem.get? i := by
  simp only [putBit, Memory.get?_set]
  split
  next hi => subst hi; split <;> simp
  next hi => split <;> simp [hi]

theorem Writer.wf_putBit {w : Writer} (h : w.mem.wf) (v : Bool) : (w.putBit v).mem.wf := by
  have hclear : (if w.p % 8 = 0 then w.mem.set (w.base + w.p / 8) 0x00#8 else w.mem).wf := by
    split
    · exact Memory.wf_set h _ _
    · exact h
  exact Memory.wf_set hclear _ _

theorem Writer.putBits_concat (w : Writer) (bits : List Bool) (v : Bool) :
    w.putBits (bits ++ [v]) = (w.putBits bits).putBit v := List.foldl_concat ..

theorem Writer.base_putBits (w : Writer) (bits : List Bool) : (w.putBits bits).base = w.base := by
  induction bits using List.reverseRecOn with
  | nil => rfl
  | append_singleton bits v ih => rw [putBits_concat]; exact ih

theorem Writer.p_putBits (w : Writer) (bits : List Bool) : (w.putBits bits).p = w.p + bits.length := by
  induction bits using List.reverseRecOn with
  | nil => rfl
  | append_singleton bits v ih => rw [putBits_concat, List.length_append, ← Nat.add_assoc, ← ih]; rfl

theorem Writer.wf_putBits {w : Writer} (h : w.mem.wf) (bits : List Bool) : (w.putBits bits).mem.wf := by
  induction bits using List.reverseRecOn with
  | nil => exact h
  | append_singleton bits v ih => rw [putBits_concat]; exact wf_putBit ih v

/-- Written at base b, the packed bytes cover ceil8 bytes from b. -/
theorem Memory.get?_writeBytes_packBits (m : Memory) (b : Nat) (bits : List Bool) (i : Nat) :
    (m.writeBytes b (packBits bits)).get? i =
      if b ≤ i ∧ i < b + ceil8 bits.length then some ((packBits bits)[i - b]?.getD 0#8) else m.get? i := by
  rw [Memory.get?_writeBytes, packBits_length]
  split
  next hi => rw [List.getElem?_eq_getElem (by rw [packBits_length]; omega), Option.getD_some]
  next => rfl

/-- The byte PutBit ors the next bit into is the packed bytes' own, or a new one. -/
theorem Memory.openByte_writeBytes_packBits (m : Memory) (b : Nat) (bits : List Bool) :
    (if bits.length % 8 = 0 then 0#8
      else ((m.writeBytes b (packBits bits)).get? (b + bits.length / 8)).getD 0#8) =
      (packBits bits)[bits.length / 8]?.getD 0#8 := by
  split
  next hnew => rw [List.getElem?_eq_none (by rw [packBits_length, ceil8]; omega), Option.getD_none]
  next hold =>
    rw [Memory.get?_writeBytes_packBits, if_pos (by unfold ceil8; omega), Option.getD_some, Nat.add_sub_cancel_left]

/-- The writer's invariant: the memory reads as after writing the bytes packed so far. -/
theorem Writer.get?_putBits (m : Memory) (b : Nat) (bits : List Bool) (i : Nat) :
    ((Writer.mk b 0 m).putBits bits).mem.get? i = (m.writeBytes b (packBits bits)).get? i := by
  induction bits using List.reverseRecOn generalizing i with
  | nil => rfl
  | append_singleton bits v ih =>
    rw [putBits_concat, get?_putBit, base_putBits, p_putBits, Nat.zero_add, ih, ih, Memory.openByte_writeBytes_packBits,
      Memory.get?_writeBytes_packBits, Memory.get?_writeBytes_packBits, packBits_concat_getD, List.length_append,
      List.length_singleton]
    dsimp only
    by_cases hi : i = b + bits.length / 8
    · subst hi
      rw [if_pos rfl, if_pos (by unfold ceil8; omega), Nat.add_sub_cancel_left, if_pos rfl]
    · have hcovered : b ≤ i ∧ i < b + ceil8 (bits.length + 1) ↔ b ≤ i ∧ i < b + ceil8 bits.length := by
        unfold ceil8; omega
      rw [if_neg hi, if_congr hcovered rfl rfl]
      split
      next hin => rw [if_neg (by omega), BitVec.or_zero]
      next => rfl

/-- Settles O22: bit by bit, the byte that PutBit changes is the byte that one more packed bit changes. -/
theorem writerLeavesPackedBits : Obligations.WriterLeavesPackedBits := fun m b bits h =>
  ⟨by rw [Writer.p_putBits, Nat.zero_add], Writer.wf_putBits h bits, Writer.get?_putBits m b bits⟩

/-! ## The reader (44_bitstream.md R183) -/

/-- The reader's bit is one bit of one byte. -/
theorem State.payloadBit_eq (s : State) (b q : Nat) :
    s.payloadBit b q = (((s.byteAt .abuf (b + q / 8)).toNat >>> (7 - q % 8)) % 2 == 1) := by
  simp [State.payloadBit, State.memRead, State.bytesAt, beNat]

theorem State.bytesAt_getElem? (s : State) (b : Buf) {a n k : Nat} (h : k < n) :
    (s.bytesAt b a n)[k]? = some (s.byteAt b (a + k)) := by
  rw [State.bytesAt, List.getElem?_map, List.getElem?_range h, Option.map_some]

/-- Settles O23: unpacking reads each bit at its place, and unpacked packed bits are the bits and then zeros. -/
theorem readerReturnsTheWrittenBits : Obligations.ReaderReturnsTheWrittenBits := by
  refine ⟨fun s b n q hq => ⟨?_, s.payloadBit_eq b q⟩, fun bits => ?_⟩
  · rw [unpackBits_getElem?, s.bytesAt_getElem? .abuf (by omega), Option.map_some, s.payloadBit_eq,
      BitVec.getLsbD, Nat.testBit_eq_decide_div_mod_eq, Nat.shiftRight_eq_div_pow]
    rfl
  · obtain ⟨n, -, hun⟩ := unpackBits_packBits bits
    rw [hun, List.take_left]

end Sys2Proof.Machine
end

section
/-! SUPPORT. The proofs of ENCODE's statements (45_encoder.md): its outcomes in check order, and the artifact field by field. -/

namespace Sys2Proof.Machine

/-! ## The outcomes in check order (45_encoder.md R190) -/

theorem State.input_getElem (s : State) {k : Nat} (hk : k < s.input.length) : s.input[k] = s.byteAt .ibuf k := by
  simp [State.input, State.bytesAt]

/-- The register IN_LEN holds the number N, so the record's INFO is the register. -/
theorem State.ofNat_inputLen (s : State) : BitVec.ofNat 32 s.inputLen = s.inLen := by
  rw [State.inputLen, BitVec.ofNat_toNat, BitVec.setWidth_eq]

/-- Every input byte has a code, over input positions and over the input's bytes. -/
theorem State.input_coded {s : State} (h : ∀ k < s.inLen.toNat, s.lenAt (s.byteAt .ibuf k).toNat ≠ 0#8) :
    ∀ b ∈ s.input, 0 < (s.lenAt b.toNat).toNat := by
  intro b hb
  obtain ⟨k, hk, rfl⟩ := List.getElem_of_mem hb
  rw [s.input_getElem hk]
  exact Nat.pos_of_ne_zero fun h0 => h k (hk.trans_eq s.input_length) (BitVec.eq_of_toNat_eq h0)

/-- The search for an uncoded input byte stops at the lowest one. -/
theorem State.unknownAt_input_eq_some {s : State} {k : Nat} (hk : k < s.inLen.toNat)
    (hzero : s.lenAt (s.byteAt .ibuf k).toNat = 0#8) (hleast : ∀ j < k, s.lenAt (s.byteAt .ibuf j).toNat ≠ 0#8) :
    s.unknownAt s.input = some (s.byteAt .ibuf k, k) := by
  have hlen : k < s.input.length := by rwa [s.input_length]
  rw [State.unknownAt, List.find?_eq_some_iff_getElem]
  refine ⟨by simp [hzero], k, by rwa [List.length_zipIdx], ?_, fun j hj => ?_⟩
  · rw [List.getElem_zipIdx, s.input_getElem, Nat.zero_add]
  · rw [List.getElem_zipIdx, s.input_getElem]
    simpa [← BitVec.toNat_inj] using hleast j hj

section
variable {s : State}

theorem exec_encode_of_noCode (h : s.valid.code = false) :
    exec .encode s = .next
      (s.recordError { step := Instr.encode.opc, kind := .missingCode, info := 0, aux := 0 }).complete := by
  rw [exec_eq, runOf, runEncode, if_neg (by simp [h]), Result.finish]

variable (h : s.valid.code = true)
include h

theorem exec_encode_of_overflowIn (hover : s.params.inMax < s.inputLen) :
    exec .encode s = .next
      (s.recordError { step := Instr.encode.opc, kind := .overflowIn, info := s.inputLen, aux := s.params.inMax }).complete := by
  rw [exec_eq, runOf, runEncode, if_pos h, if_pos hover, Result.finish]

variable (hfits : s.inputLen ≤ s.params.inMax)
include hfits

theorem exec_encode_of_unknown {b : Byte} {i : Nat} (hu : s.unknownAt s.input = some (b, i)) :
    exec .encode s = .next
      (s.recordError { step := Instr.encode.opc, kind := .unknownSymbol, info := i, aux := b.toNat }).complete := by
  rw [exec_eq, runOf, runEncode, if_pos h, if_neg (Nat.not_lt.2 hfits), hu]
  rfl

variable (hcoded : ∀ k < s.inLen.toNat, s.lenAt (s.byteAt .ibuf k).toNat ≠ 0#8)
include hcoded

theorem exec_encode_of_overflowArt (hover : s.params.artMax < s.artifactSize) :
    exec .encode s = .next
      (s.recordError
        { step := Instr.encode.opc, kind := .overflowArt, info := s.artifactSize, aux := s.params.artMax }).complete := by
  rw [exec_eq, runOf, runEncode, if_pos h, if_neg (Nat.not_lt.2 hfits), s.unknownAt_none _ (State.input_coded hcoded)]
  dsimp only
  rw [if_pos hover, Result.finish]

theorem exec_encode_of_fits (hart : s.artifactSize ≤ s.params.artMax) : exec .encode s = .next s.afterEncode.complete := by
  rw [exec_eq, runOf, runEncode_done s h hfits (State.input_coded hcoded) hart, Result.finish]

end

/-- T as the rules spell it, over symbols and input positions (45_encoder.md R190). -/
theorem State.artifactSize_eq (s : State) :
    6 + 6 * ((List.range 256).filter fun i => s.lenAt i ≠ 0#8).length +
      (((List.range s.inLen.toNat).map fun k => (s.lenAt (s.byteAt .ibuf k).toNat).toNat).sum + 7) / 8 = s.artifactSize := by
  rw [s.coded_eq_ne_zero, s.sum_lenAt_input]
  rfl

/-- Settles O25: the record of the first check that fails, check by check. -/
theorem encodeReportsItsFirstError : Obligations.EncodeReportsItsFirstError := by
  rintro s _ _ rfl rfl
  rw [s.artifactSize_eq]
  refine ⟨fun hno => ?_, fun hc hover => ?_, fun k hk hc hfits hzero hleast => ?_, fun hc hfits hcoded hover => ?_⟩
  · rw [exec_encode_of_noCode hno]
    rfl
  · rw [exec_encode_of_overflowIn hc hover, State.recordError, Raise.record, s.ofNat_inputLen]
    rfl
  · rw [exec_encode_of_unknown hc hfits (State.unknownAt_input_eq_some hk hzero hleast), State.recordError, Raise.record,
      BitVec.ofNat_toNat]
    rfl
  · rw [exec_encode_of_overflowArt hc hfits hcoded hover]
    rfl

/-! ## The artifact (45_encoder.md R193) -/

/-- The payload's bits over input positions (30_encoding.md R108). -/
theorem State.payloadBits_eq (s : State) :
    s.payloadBits = (List.range s.inLen.toNat).flatMap fun k =>
      codeBits (s.lenAt (s.byteAt .ibuf k).toNat).toNat (s.codeAt (s.byteAt .ibuf k).toNat).toNat := by
  simp [State.payloadBits, State.input, State.bytesAt, List.flatMap_map, State.inputLen]

/-- Unpacked, packed bits are the bits and then zeros to the end of the last byte (30_encoding.md R111). -/
theorem unpackBits_packBits_eq (bits : List Bool) :
    unpackBits (packBits bits) = bits ++ List.replicate (8 * ceil8 bits.length - bits.length) false := by
  obtain ⟨n, -, hun⟩ := unpackBits_packBits bits
  have hlen := congrArg List.length hun
  rw [unpackBits_length, packBits_length, List.length_append, List.length_replicate] at hlen
  rw [hun, hlen, Nat.add_sub_cancel_left]

/-- ENCODE writes no byte of ABUF at T or above. -/
theorem State.afterEncode_byteAt_of_le {s : State} {i : Nat} (h : s.artifactSize ≤ i) :
    s.afterEncode.byteAt .abuf i = s.byteAt .abuf i := by
  rw [s.afterEncode_byteAt_abuf, dif_neg (by rw [s.artifact_length]; exact Nat.not_lt.2 h)]

/-- Settles O24: the state is `afterEncode`, completed, and its ABUF holds the artifact's fields one after the other. -/
theorem encodeWritesTheArtifact : Obligations.EncodeWritesTheArtifact := by
  rintro s _ _ _ hc hfits hcoded rfl rfl rfl hart
  rw [s.artifactSize_eq] at hart ⊢
  rw [s.coded_eq_ne_zero, s.sum_lenAt_input, ← s.payloadBits_eq]
  refine ⟨s.afterEncode.complete, exec_encode_of_fits hc hfits hcoded hart, ?_, fun i hi => s.afterEncode_byteAt_of_le hi,
    s.artifact_headerLen s s.inputLen_lt, s.artifact_headerCount s, fun j hj => ?_, ?_⟩
  · rw [← s.inputLen_beq_zero]
    rfl
  · exact TabEntry.mk.inj (s.artifact_tabEntry s j hj)
  · refine (congrArg unpackBits (s.artifact_payload s)).trans ?_
    rw [unpackBits_packBits_eq, s.payloadBits_length]
    rfl

end Sys2Proof.Machine
end

section
/-! SUPPORT. The proofs of the decoder's statements (46_decoder.md): LOADTAB's commit, its errors in check order, the decode table
that every step keeps, and DECODE's outcomes on the codes that the payload begins with. -/

namespace Sys2Proof.Machine

/-! ## What LOADTAB commits (46_decoder.md R216) -/

section
variable {s : State} (h : s.StoredTableOk)
include h

/-- LOADTAB's outcome on an artifact that passes every check. -/
theorem exec_loadtab_of_stored : exec .loadtab s = .next s.afterLoadtab.complete := by
  rw [exec_eq, runOf, runLoadtab_done s h, Result.finish]

theorem State.StoredTableOk.headerCount_le : s.headerCount ≤ 256 := by
  obtain ⟨-, -, hcount, -⟩ := h
  exact hcount

/-- A stored count fits the 9 bits of DTAB_N. -/
theorem State.StoredTableOk.dtabN_toNat : s.afterLoadtab.dtabN.toNat = s.headerCount := by
  have hcount := h.headerCount_le
  rw [State.afterLoadtab, BitVec.toNat_ofNat]
  omega

theorem State.StoredTableOk.payOff_toNat : s.afterLoadtab.payOff.toNat = 6 + 6 * s.headerCount := by
  have hcount := h.headerCount_le
  rw [State.afterLoadtab, BitVec.toNat_ofNat]
  omega

theorem State.StoredTableOk.dtabAt_entry {j : Nat} (hj : j < s.headerCount) :
    s.afterLoadtab.dtabAt j = (s.tabEntry j).toDEntry :=
  s.dtabTable_entry h.headerCount_le j hj

/-- The symbols of a stored table ascend, not only from one entry to the next (46_decoder.md R214). -/
theorem State.StoredTableOk.sym_lt {j k : Nat} (hjk : j < k) (hk : k < s.headerCount) : (s.tabEntry j).sym < (s.tabEntry k).sym := by
  obtain ⟨-, -, -, -, -, hstep, -⟩ := h
  have hmono : StrictMonoOn (fun i => (s.tabEntry i).sym) (Set.Iio s.headerCount) :=
    strictMonoOn_of_lt_add_one Set.ordConnected_Iio fun i _ _ hi => hstep i hi
  exact hmono (hjk.trans hk) hk hjk

end

theorem State.payBytes_afterLoadtab_toNat (s : State) :
    s.afterLoadtab.payBytes.toNat = s.artLen.toNat - (6 + 6 * s.headerCount) := by
  rw [State.afterLoadtab, BitVec.toNat_ofNat]
  exact Nat.mod_eq_of_lt (lt_of_le_of_lt (Nat.sub_le _ _) s.artLen.isLt)

theorem State.outLen_afterLoadtab_toNat (s : State) : s.afterLoadtab.outLen.toNat = s.headerLen := by
  rw [State.afterLoadtab, BitVec.toNat_ofNat]
  exact Nat.mod_eq_of_lt (s.memRead_lt .abuf 0 4)

theorem State.dtabAt_afterLoadtab_of_le (s : State) {j : Nat} (hj : s.headerCount ≤ j) : s.afterLoadtab.dtabAt j = DEntry.zero := by
  have hnone : s.tabEntries[j]? = none := List.getElem?_eq_none (by rwa [s.tabEntries_length])
  simp only [State.dtabAt, State.afterLoadtab, dtabTable, tabulate_getElem?, hnone]
  split <;> rfl

/-- What LOADTAB commits is a decode table as DECODE takes it (46_decoder.md R216, R223). -/
theorem State.StoredTableOk.dtabOk {s : State} (h : s.StoredTableOk) : s.afterLoadtab.DtabOk := by
  have ⟨hart, _, _, htable, hfit, _, hfree⟩ := h
  intro _
  rw [h.dtabN_toNat, h.payOff_toNat, s.payBytes_afterLoadtab_toNat]
  refine ⟨h.headerCount_le, rfl, ?_, fun j hj => ?_, fun j _ hj => s.dtabAt_afterLoadtab_of_le hj, fun j hj k hk hjk => ?_,
    fun j hj k hk hjk => ?_⟩
  · exact (Nat.add_sub_cancel' htable).trans_le hart
  · rw [h.dtabAt_entry hj, TabEntry.toDEntry_len, TabEntry.toDEntry_code]
    exact ⟨rfl, hfit j hj⟩
  · rw [h.dtabAt_entry hj, h.dtabAt_entry hk, TabEntry.toDEntry_sym, TabEntry.toDEntry_sym]
    exact h.sym_lt hjk hk
  · rw [h.dtabAt_entry hj, h.dtabAt_entry hk, TabEntry.toDEntry_len, TabEntry.toDEntry_len, TabEntry.toDEntry_code,
      TabEntry.toDEntry_code]
    exact hfree j hj k hk hjk

/-- Settles O30: the state is `afterLoadtab`, completed, and its table holds the stored entries. -/
theorem loadtabCommits : Obligations.LoadtabCommits := by
  rintro s _ h rfl
  refine ⟨s.afterLoadtab.complete, exec_loadtab_of_stored h, ?_, fun j hj => h.dtabAt_entry hj,
    fun j _ hj => s.dtabAt_afterLoadtab_of_le hj⟩
  rw [← Bool.beq_eq_decide_eq]
  rfl

/-! ## The decode table that every step keeps -/

/-- Without a valid decode table nothing is asked of it. -/
theorem State.dtabOk_of_invalid {s : State} (h : s.valid.dtab = false) : s.DtabOk := by
  simp [State.DtabOk, h]

/-- With VALID.DTAB, the table, its registers and the parameters unchanged, the decode table is as before. -/
theorem State.DtabOk.congr {s t : State} (h : s.DtabOk) (hvalid : t.valid.dtab = s.valid.dtab) (hdtab : t.dtab = s.dtab)
    (hcount : t.dtabN = s.dtabN) (hoff : t.payOff = s.payOff) (hbytes : t.payBytes = s.payBytes)
    (hparams : t.params = s.params) : t.DtabOk := by
  simpa only [State.DtabOk, State.dtabAt, hvalid, hdtab, hcount, hoff, hbytes, hparams] using h

/-- LOADTAB commits a table that it has checked; CLEAR, ENCODE and a LOADTAB error leave none (10_state.md R57). -/
theorem effectsKeep_dtabOk : EffectsKeep State.DtabOk where
  nop _ h := h.congr rfl rfl rfl rfl rfl rfl
  clear _ _ := State.dtabOk_of_invalid rfl
  freq _ h := h.congr rfl rfl rfl rfl rfl rfl
  build _ _ h := h.congr rfl rfl rfl rfl rfl rfl
  canon _ _ _ h := h.congr rfl rfl rfl rfl rfl rfl
  encode _ _ _ := State.dtabOk_of_invalid rfl
  loadtabError _ _ := State.dtabOk_of_invalid rfl
  loadtab _ hstored _ := hstored.dtabOk
  decodeError _ _ _ h := h.congr rfl rfl rfl rfl rfl rfl
  decode _ _ _ h := h.congr rfl rfl rfl rfl rfl rfl

/-- No transaction of the host reaches the decode table or its registers (20_memory.md R63, R64); a reset leaves no table. -/
theorem eventsKeep_dtabOk : EventsKeep State.DtabOk where
  agenda _ _ h := h.congr rfl rfl rfl rfl rfl rfl
  read _ _ _ h := h.congr rfl rfl rfl rfl rfl rfl
  w1c _ _ h := h.congr rfl rfl rfl rfl rfl rfl
  ie _ _ h := h.congr rfl rfl rfl rfl rfl rfl
  drop _ _ h := h.congr rfl rfl rfl rfl rfl rfl
  accept _ _ _ h := h.congr rfl rfl rfl rfl rfl rfl
  inLen _ _ _ h := h.congr rfl rfl rfl rfl rfl rfl
  artLen _ _ _ h := h.congr rfl rfl rfl rfl rfl rfl
  write _ _ _ _ _ h := h.congr (by simp) (by simp) (by simp) (by simp) (by simp) (by simp)
  reset _ _ _ := State.dtabOk_of_invalid rfl
  complete _ h := h.congr rfl rfl rfl rfl rfl rfl
  completeError _ _ h := h.congr rfl rfl rfl rfl rfl rfl

/-- Settles O58, by the step's induction over effects and events: only LOADTAB makes a valid table. -/
theorem stepKeepsDecodeTable : Obligations.StepKeepsDecodeTable :=
  fun _ _ hs ht => step_keeps effectsKeep_dtabOk eventsKeep_dtabOk ht hs

/-! ## LOADTAB's errors in check order (46_decoder.md R211 to R215, R217) -/

theorem exec_loadtab_of_error {s : State} {e : Raise} (h : s.loadtabError = some e) :
    exec .loadtab s = .next (({ s with valid := s.valid.afterLoadtabError } : State).recordError e).complete := by
  rw [exec_eq, runOf, runLoadtab, h]
  rfl

/-- Settles O31: the state before with the record of the first failing check, whose row is one of LOADTAB's. -/
theorem loadtabErrorKeepsTheTable : Obligations.LoadtabErrorKeepsTheTable := by
  intro s hbad
  obtain ⟨e, he⟩ := Option.ne_none_iff_exists'.1 (mt s.loadtabError_none.1 hbad)
  obtain ⟨hstep, hkind⟩ := State.loadtabError_kind he
  refine ⟨_, exec_loadtab_of_error he, hstep, ?_, rfl⟩
  have hcodes : ∀ k ∈ [ErrKind.overflowArt, .truncHdr, .badCount, .truncTable, .badLen, .badCode, .badOrder, .notPrefixFree],
      k.code = 0x02#8 ∨ k.code = 0x06#8 := by decide
  exact hcodes e.kind hkind

/-- The register ART_LEN holds the number A, so the record's INFO is the register. -/
theorem State.ofNat_artifactLen (s : State) : BitVec.ofNat 32 s.artifactLen = s.artLen := by
  rw [State.artifactLen, BitVec.ofNat_toNat, BitVec.setWidth_eq]

section
variable {s : State}

theorem State.loadtabError_of_overflow (hover : s.params.artMax < s.artifactLen) :
    s.loadtabError = some { step := Instr.loadtab.opc, kind := .overflowArt, info := s.artifactLen, aux := s.params.artMax } := by
  rw [State.loadtabError, if_pos hover]

variable (hart : s.artifactLen ≤ s.params.artMax)
include hart

theorem State.loadtabError_of_noHeader (hshort : s.artifactLen < 6) :
    s.loadtabError = some { step := Instr.loadtab.opc, kind := .truncHdr, info := s.artifactLen, aux := 6 } := by
  rw [State.loadtabError, if_neg (Nat.not_lt.2 hart), if_pos hshort]

variable (hheader : 6 ≤ s.artifactLen)
include hheader

theorem State.loadtabError_of_badCount (hbad : 256 < s.headerCount) :
    s.loadtabError = some { step := Instr.loadtab.opc, kind := .badCount, info := s.headerCount, aux := 256 } := by
  rw [State.loadtabError, if_neg (Nat.not_lt.2 hart), if_neg (Nat.not_lt.2 hheader), if_pos hbad]

variable (hcount : s.headerCount ≤ 256)
include hcount

theorem State.loadtabError_of_noTable (hshort : s.artifactLen < 6 + 6 * s.headerCount) :
    s.loadtabError = some
      { step := Instr.loadtab.opc, kind := .truncTable, info := s.artifactLen, aux := 6 + 6 * s.headerCount } := by
  rw [State.loadtabError, if_neg (Nat.not_lt.2 hart), if_neg (Nat.not_lt.2 hheader), if_neg (Nat.not_lt.2 hcount),
    if_pos hshort]

variable (htable : 6 + 6 * s.headerCount ≤ s.artifactLen)
include htable

/-- Behind the length checks, the entries are checked before the pairs (46_decoder.md R214, R215). -/
theorem State.loadtabError_of_lengths :
    s.loadtabError = (entriesError 0 none s.tabEntries).or ((prefixPair s.tabEntries).map fun p =>
      { step := Instr.loadtab.opc, kind := .notPrefixFree, info := p.1, aux := p.2 }) := by
  rw [State.loadtabError, if_neg (Nat.not_lt.2 hart), if_neg (Nat.not_lt.2 hheader), if_neg (Nat.not_lt.2 hcount),
    if_neg (Nat.not_lt.2 htable)]
  cases entriesError 0 none s.tabEntries with
  | some r => rfl
  | none => cases prefixPair s.tabEntries <;> rfl

end

/-- Settles O32: the record of the first length check that fails, check by check. -/
theorem loadtabChecksLengthsInOrder : Obligations.LoadtabChecksLengthsInOrder := by
  rintro s _ _ rfl rfl
  refine ⟨fun hover => ?_, fun hart hshort => ?_, fun hart hheader hbad => ?_, fun hart hheader hcount hshort => ?_⟩
  · rw [exec_loadtab_of_error (State.loadtabError_of_overflow hover), State.recordError, Raise.record, s.ofNat_artifactLen]
    rfl
  · rw [exec_loadtab_of_error (State.loadtabError_of_noHeader hart hshort), State.recordError, Raise.record, s.ofNat_artifactLen]
    rfl
  · rw [exec_loadtab_of_error (State.loadtabError_of_badCount hart hheader hbad)]
    rfl
  · rw [exec_loadtab_of_error (State.loadtabError_of_noTable hart hheader hcount hshort), State.recordError, Raise.record,
      s.ofNat_artifactLen]
    rfl

/-! ## The first bad entry (46_decoder.md R214) -/

section
variable {j : Nat} {last : Option Nat} {e : TabEntry}

theorem entryError_of_badLen (h : e.len < 1 ∨ 32 < e.len) :
    entryError j last e = some { step := Instr.loadtab.opc, kind := .badLen, info := j, aux := e.len } :=
  if_pos h

variable (hpos : 1 ≤ e.len) (hmax : e.len ≤ 32)
include hpos hmax

theorem entryError_of_badCode (h : 2 ^ e.len ≤ e.code) :
    entryError j last e = some { step := Instr.loadtab.opc, kind := .badCode, info := j, aux := e.code } := by
  unfold entryError lMax
  rw [if_neg (not_or.2 ⟨Nat.not_lt.2 hpos, Nat.not_lt.2 hmax⟩), if_pos h]

theorem entryError_of_badOrder (hfit : e.code < 2 ^ e.len) {p : Nat} (h : e.sym ≤ p) :
    entryError j (some p) e = some { step := Instr.loadtab.opc, kind := .badOrder, info := j, aux := e.sym } := by
  unfold entryError lMax
  rw [if_neg (not_or.2 ⟨Nat.not_lt.2 hpos, Nat.not_lt.2 hmax⟩), if_neg (Nat.not_le.2 hfit)]
  exact if_pos h

end

/-- The symbol behind the first j entries is that of entry j - 1. -/
theorem lastSym_take {es : List TabEntry} {j : Nat} (h0 : 0 < j) (hj : j < es.length) :
    lastSym none (es.take j) = some es[j - 1].sym := by
  rw [lastSym, List.getLast?_take, if_neg h0.ne', List.getElem?_eq_getElem (by omega)]
  rfl

/-- Where every entry before j passes, the search stops at entry j if this one fails. -/
theorem entriesError_first {es : List TabEntry} {j : Nat} (hj : j < es.length)
    (hbefore : ∀ i (hi : i < j), es[i].Ok ∧ (0 < i → es[i - 1].sym < es[i].sym)) {r : Raise}
    (hr : entryError j (lastSym none (es.take j)) es[j] = some r) : entriesError 0 none es = some r := by
  have hpass : entriesError 0 none (es.take j) = none := by
    refine entriesError_none.2 ⟨fun e he => ?_, fun i hi => ?_, by simp⟩
    · obtain ⟨i, hi, rfl⟩ := List.mem_take_iff_getElem.1 he
      exact (hbefore i (by omega)).1
    · rw [List.length_take] at hi
      simpa using (hbefore (i + 1) (by omega)).2 (Nat.succ_pos i)
  rw [← List.take_append_drop j es, entriesError_append _ _ _ _ hpass, List.drop_eq_getElem_cons hj, List.length_take,
    Nat.min_eq_left hj.le, Nat.zero_add, entriesError, hr]

/-- Settles O33: entries 0 to j - 1 pass, so the search stops at entry j, by the check that fails there. -/
theorem loadtabReportsTheFirstBadEntry : Obligations.LoadtabReportsTheFirstBadEntry := by
  rintro s _ j hart hheader rfl hcount htable hj hbefore
  have hlen : j < s.tabEntries.length := by rwa [s.tabEntries_length]
  have hfirst : ∀ r, entryError j (lastSym none (s.tabEntries.take j)) (s.tabEntry j) = some r → s.loadtabError = some r := by
    intro r hr
    rw [State.loadtabError_of_lengths hart hheader hcount htable,
      entriesError_first hlen (fun i hi => ?_) (by rwa [s.tabEntries_getElem]), Option.some_or]
    obtain ⟨hpos, hmax, hfit, hsym⟩ := hbefore i hi
    rw [s.tabEntries_getElem, s.tabEntries_getElem]
    exact ⟨⟨hpos, hmax, hfit⟩, hsym⟩
  refine ⟨fun hbad => ?_, fun hpos hmax hbad => ?_, fun hpos hmax hfit h0 hbad => ?_⟩
  · rw [exec_loadtab_of_error (hfirst _ (entryError_of_badLen hbad))]
    rfl
  · rw [exec_loadtab_of_error (hfirst _ (entryError_of_badCode hpos hmax hbad))]
    rfl
  · rw [lastSym_take h0 hlen, s.tabEntries_getElem] at hfirst
    rw [exec_loadtab_of_error (hfirst _ (entryError_of_badOrder hpos hmax hfit hbad))]
    rfl

/-! ## The first prefix pair (46_decoder.md R215) -/

/-- A pair of stored entries, spelled out as R215 spells it. -/
theorem State.isPair_tabEntries_iff (s : State) (a b : Nat) :
    IsPair s.tabEntries a b ↔ a < s.headerCount ∧ b < s.headerCount ∧ a ≠ b ∧ (s.tabEntry a).len ≤ (s.tabEntry b).len ∧
      (s.tabEntry b).code >>> ((s.tabEntry b).len - (s.tabEntry a).len) = (s.tabEntry a).code := by
  simp only [IsPair, codePrefix, s.tabEntries_length, s.tabEntries_getElem, Bool.and_eq_true, decide_eq_true_eq, exists_prop,
    ne_comm (a := b)]

/-- Settles O34: no entry fails, so the first pair in the order of the search is the report. -/
theorem loadtabReportsTheFirstPrefixPair : Obligations.LoadtabReportsTheFirstPrefixPair := by
  rintro s _ j k hart hheader rfl hcount htable hok hsym isPair hpair hrow hcol
  have hiff : ∀ a b, IsPair s.tabEntries a b ↔ isPair a b := s.isPair_tabEntries_iff
  have hentries : entriesError 0 none s.tabEntries = none := by
    refine entriesError_none.2 ⟨fun e he => ?_, fun i hi => ?_, by simp⟩
    · obtain ⟨i, hi, rfl⟩ := List.getElem_of_mem he
      rw [s.tabEntries_getElem]
      exact hok i (by rwa [s.tabEntries_length] at hi)
    · rw [s.tabEntries_getElem, s.tabEntries_getElem]
      exact hsym i (by rwa [s.tabEntries_length] at hi)
  have hfirst : prefixPair s.tabEntries = some (j, k) :=
    prefixPair_first ((hiff j k).2 hpair) (fun a b ha => mt (hiff a b).1 (hrow a b ha))
      fun b hb => mt (hiff j b).1 (hcol b hb)
  have herror := State.loadtabError_of_lengths hart hheader hcount htable
  rw [hentries, hfirst] at herror
  rw [exec_loadtab_of_error herror]
  rfl

/-! ## The outcomes of DECODE (46_decoder.md R221, R222) -/

theorem exec_decode_of_noTable {s : State} (h : s.valid.dtab = false) :
    exec .decode s = .next
      (s.recordError { step := Instr.decode.opc, kind := .missingDtab, info := 0, aux := 0 }).complete := by
  rw [exec_eq, runOf, runDecode, if_neg (by simp [h]), Result.finish]

/-- The state after a loop that ended in an error: the output kept, and the record of the error (46_decoder.md R226). -/
def State.decodeFailed (s : State) (kind : ErrKind) : State :=
  (s.putDecoded s.decoded).recordError
    { step := Instr.decode.opc, kind := kind, info := s.decoded.out.length, aux := s.decoded.bits } |>.complete

section
variable {s : State} (h : s.valid.dtab = true)
include h

theorem exec_decode_of_overflow (hover : s.params.outMax < s.outLen.toNat) :
    exec .decode s = .next
      (s.recordError
        { step := Instr.decode.opc, kind := .overflowOut, info := s.outLen.toNat, aux := s.params.outMax }).complete := by
  rw [exec_eq, runOf, runDecode, if_pos h, if_pos hover, Result.finish]

variable (hout : s.outLen.toNat ≤ s.params.outMax)
include hout

theorem exec_decode_of_complete (hd : s.decoded.how = .complete) : exec .decode s = .next s.afterDecode.complete := by
  rw [exec_eq, runOf, runDecode_done s h hout hd, Result.finish]

theorem exec_decode_of_exhausted (hd : s.decoded.how = .exhausted) : exec .decode s = .next (s.decodeFailed .outOfRange) := by
  rw [exec_eq, runOf, runDecode, if_pos h, if_neg (Nat.not_lt.2 hout), State.decodeResult, hd]
  rfl

theorem exec_decode_of_noLeaf (hd : s.decoded.how = .noLeaf) : exec .decode s = .next (s.decodeFailed .noLeafPath) := by
  rw [exec_eq, runOf, runDecode, if_pos h, if_neg (Nat.not_lt.2 hout), State.decodeResult, hd]
  rfl

end

/-- A loop with nothing to emit reads no bit, whatever the table (46_decoder.md R227). -/
theorem State.decoded_of_outLen_zero {s : State} (h : s.outLen = 0#32) : s.decoded = { how := .complete, out := [], bits := 0 } := by
  rw [State.decoded, h]
  cases unpackBits s.payload <;> rfl

/-- Settles O36: the record of the check that fails, or the loop that has nothing to emit. -/
theorem decodeChecksBeforeTheLoop : Obligations.DecodeChecksBeforeTheLoop := by
  refine fun s => ⟨fun hno => ?_, fun hv hover => ?_, fun hv hzero => ?_⟩
  · rw [exec_decode_of_noTable hno]
    rfl
  · rw [exec_decode_of_overflow hv hover, State.recordError, Raise.record, BitVec.ofNat_toNat, BitVec.setWidth_eq]
    rfl
  · have hd := State.decoded_of_outLen_zero hzero
    have hempty : (s.outLen == 0#32) = true := by rw [hzero]; rfl
    rw [exec_decode_of_complete hv (by simp [hzero]) (by rw [hd]), State.afterDecode, hd, hempty]
    rfl

/-! ## Live entries by index (46_decoder.md R220) -/

section
variable (s : State)

theorem State.mem_liveEntries (e : DEntry) : e ∈ s.liveEntries ↔ ∃ j, j < 256 ∧ j < s.dtabN.toNat ∧ s.dtabAt j = e := by
  rw [State.liveEntries, List.mem_take_iff_getElem]
  constructor
  · rintro ⟨j, hj, rfl⟩
    simp only [Vector.length_toList, Nat.lt_min] at hj
    exact ⟨j, hj.2, hj.1, by simp [State.dtabAt, hj.2]⟩
  · rintro ⟨j, h256, hN, rfl⟩
    exact ⟨j, by simp [h256, hN], by simp [State.dtabAt, h256]⟩

theorem State.dtabAt_mem_liveEntries (hN : s.dtabN.toNat ≤ 256) {j : Nat} (hj : j < s.dtabN.toNat) : s.dtabAt j ∈ s.liveEntries :=
  (s.mem_liveEntries _).2 ⟨j, hj.trans_le hN, hj, rfl⟩

/-- The live entries at a list of indices. -/
theorem State.map_dtabAt_live (hN : s.dtabN.toNat ≤ 256) {js : List Nat} (hjs : ∀ j ∈ js, j < s.dtabN.toNat) :
    ∀ e ∈ js.map s.dtabAt, e ∈ s.liveEntries :=
  List.forall_mem_map.2 fun j hj => s.dtabAt_mem_liveEntries hN (hjs j hj)

/-- A list of live entries is that of some indices. -/
theorem State.exists_indices_of_live {es : List DEntry} (hes : ∀ e ∈ es, e ∈ s.liveEntries) :
    ∃ js : List Nat, (∀ j ∈ js, j < s.dtabN.toNat) ∧ js.map s.dtabAt = es := by
  have hrange : es ∈ Set.range (List.map fun j : Fin s.dtabN.toNat => s.dtabAt j) := by
    rw [Set.range_list_map]
    intro e he
    obtain ⟨j, -, hj, rfl⟩ := (s.mem_liveEntries e).1 (hes e he)
    exact ⟨⟨j, hj⟩, rfl⟩
  obtain ⟨js, rfl⟩ := hrange
  exact ⟨js.map Fin.val, List.forall_mem_map.2 fun j _ => j.isLt, List.map_map⟩

theorem State.flatMap_codes (js : List Nat) :
    (js.flatMap fun j => codeBits (s.dtabAt j).len.toNat (s.dtabAt j).code.toNat) = (js.map s.dtabAt).flatMap DEntry.bits :=
  (List.flatMap_map s.dtabAt DEntry.bits js).symm

end

/-! ## OBUF after DECODE (46_decoder.md R224, R226) -/

section
variable {s : State} {js : List Nat} (hout : s.decoded.out = (js.map s.dtabAt).map DEntry.sym)
include hout

theorem State.decoded_out_length : s.decoded.out.length = js.length := by
  rw [hout, List.length_map, List.length_map]

theorem State.obuf_putDecoded_emitted (i : Nat) (hi : i < js.length) :
    (s.putDecoded s.decoded).byteAt .obuf i = (s.dtabAt js[i]).sym := by
  refine (s.byteAt_putBytes .obuf s.decoded.out i).trans ?_
  rw [dif_pos (by rwa [State.decoded_out_length hout])]
  simp [hout]

theorem State.obuf_putDecoded_above (i : Nat) (hi : js.length ≤ i) :
    (s.putDecoded s.decoded).byteAt .obuf i = s.byteAt .obuf i :=
  (s.byteAt_putBytes .obuf s.decoded.out i).trans
    (dif_neg (by rwa [State.decoded_out_length hout, Nat.not_lt]))

end

/-- Settles O35: the loop reads the codes and emits their symbols, and the state is `afterDecode`, completed. -/
theorem decodeEmitsTheCodedSymbols : Obligations.DecodeEmitsTheCodedSymbols := by
  rintro s js _ hv hout hN hfit hfree hlen hjs rfl hbits
  rw [s.flatMap_codes] at hbits ⊢
  have hd := s.decoded_of_codes (s.tableOk_liveEntries hN hfit hfree) _ (s.map_dtabAt_live hN hjs)
    (by rw [List.length_map, hlen]) hbits
  have hsyms := congrArg Decoded.out hd
  refine ⟨s.afterDecode.complete, exec_decode_of_complete hv hout (by rw [hd]), ?_, State.obuf_putDecoded_emitted hsyms,
    fun i hi => State.obuf_putDecoded_above hsyms i (hlen.trans_le hi)⟩
  have hcnt : BitVec.ofNat 32 s.decoded.out.length = s.outLen := by
    rw [State.decoded_out_length hsyms, hlen, BitVec.ofNat_toNat, BitVec.setWidth_eq]
  have hcount : ((js.map s.dtabAt).flatMap DEntry.bits).length = s.decoded.bits := by rw [hd]
  rw [← Bool.beq_eq_decide_eq, hcount, State.afterDecode, State.putDecoded, hcnt]
  rfl

/-! ## The errors of the loop (46_decoder.md R222, R226) -/

theorem State.unpackBits_payload_length (s : State) : (unpackBits s.payload).length = 8 * s.payBytes.toNat := by
  rw [unpackBits_length, State.payload, State.bytesAt_length]

/-- The frame of a loop error: the output, its counts, the record and the flags (46_decoder.md R226). -/
theorem State.decodeFailed_eq (s : State) (kind : ErrKind) :
    s.decodeFailed kind =
      { s with
        obuf := (s.decodeFailed kind).obuf
        outCnt := BitVec.ofNat 32 s.decoded.out.length
        decBits := BitVec.ofNat 32 s.decoded.bits
        errs :=
          { step := 0x21#8
            sub := kind.sub
            code := kind.code
            info := BitVec.ofNat 32 s.decoded.out.length
            aux := BitVec.ofNat 32 s.decoded.bits }
        phase := .idle
        status := { s.status with done := true, err := true } } := rfl

/-- What the loop emitted, by index of the live entries (46_decoder.md R226). -/
theorem State.decoded_emits (s : State) :
    ∃ js : List Nat, (∀ j ∈ js, j < s.dtabN.toNat) ∧ s.decoded.out = (js.map s.dtabAt).map DEntry.sym ∧
      (js.map s.dtabAt).flatMap DEntry.bits <+: unpackBits s.payload := by
  obtain ⟨es, hes, hout, hbits⟩ := decodeLoop_emits s.liveEntries (unpackBits s.payload) s.outLen.toNat 0 0 0
  obtain ⟨js, hjs, rfl⟩ := s.exists_indices_of_live hes
  exact ⟨js, hjs, hout, by simpa [codeBits] using hbits⟩

/-- A loop that ended in an error emitted fewer symbols than OUT_LEN, and OUT_CNT holds their number (46_decoder.md R226). -/
theorem State.decodeFailed_outCnt_toNat {s : State} (hd : s.decoded.how ≠ .complete) (kind : ErrKind) :
    (s.decodeFailed kind).outCnt.toNat = s.decoded.out.length ∧ s.decoded.out.length < s.outLen.toNat := by
  obtain ⟨hlt, -⟩ := decodeLoop_error s.liveEntries (unpackBits s.payload) s.outLen.toNat 0 0 0 hd
  refine ⟨?_, hlt⟩
  rw [s.decodeFailed_eq, BitVec.toNat_ofNat]
  exact Nat.mod_eq_of_lt (hlt.trans s.outLen.isLt)

/-- A loop that ended at the reader's limit consumed every bit of the payload (46_decoder.md R226). -/
theorem State.decoded_bits_of_exhausted {s : State} (hd : s.decoded.how = .exhausted) : s.decoded.bits = 8 * s.payBytes.toNat := by
  have hne : s.decoded.how ≠ .complete := by rw [hd]; decide
  obtain ⟨-, hbits⟩ := decodeLoop_error s.liveEntries (unpackBits s.payload) s.outLen.toNat 0 0 0 hne
  rw [← s.unpackBits_payload_length, ← Nat.zero_add (unpackBits s.payload).length]
  exact hbits hd

/-- A DECODE that passes its checks and sets ERR ended its loop at the reader's limit or on a path with no leaf. -/
theorem exec_decode_of_err {s t : State} (hv : s.valid.dtab = true) (hmax : s.outLen.toNat ≤ s.params.outMax)
    (hclear : s.status.err = false) (ht : exec .decode s = .next t) (herr : t.status.err = true) :
    ∃ kind, t = s.decodeFailed kind ∧
      ((s.decoded.how = .exhausted ∧ kind = .outOfRange) ∨ (s.decoded.how = .noLeaf ∧ kind = .noLeafPath)) := by
  cases hd : s.decoded.how with
  | complete =>
    rw [exec_decode_of_complete hv hmax hd] at ht
    cases ht
    exact absurd (hclear.symm.trans herr) Bool.false_ne_true
  | exhausted =>
    rw [exec_decode_of_exhausted hv hmax hd] at ht
    cases ht
    exact ⟨_, rfl, .inl ⟨rfl, rfl⟩⟩
  | noLeaf =>
    rw [exec_decode_of_noLeaf hv hmax hd] at ht
    cases ht
    exact ⟨_, rfl, .inr ⟨rfl, rfl⟩⟩

section
variable {s : State} (htab : TableOk s.liveEntries) {es : List DEntry} (hes : ∀ e ∈ es, e ∈ s.liveEntries)
  (hlt : es.length < s.outLen.toNat) {part : List Bool}
  (hpart : part = [] ∨ ∃ e ∈ s.liveEntries, part <+: e.bits ∧ part.length < e.len.toNat)
include htab hes hlt hpart

/-- After the codes of fewer than OUT_LEN live entries and the beginning `part` of a code, the loop has emitted their symbols and
goes on inside that code (46_decoder.md R222). -/
theorem State.decoded_inside {rest : List Bool} (hpay : unpackBits s.payload = es.flatMap DEntry.bits ++ (part ++ rest)) :
    ∃ left acc, codeBits part.length acc = part ∧
      s.decoded =
        (decodeLoop s.liveEntries rest (left + 1) ((es.flatMap DEntry.bits).length + part.length) part.length acc).after es := by
  obtain ⟨acc, hacc, hloop⟩ := decodeLoop_inside htab hpart
  obtain ⟨left, hleft⟩ := Nat.exists_eq_add_of_lt hlt
  refine ⟨left, acc, hacc, ?_⟩
  rw [State.decoded, hpay, hleft, Nat.add_assoc, decodeLoop_codes_append htab es hes, hloop, Nat.zero_add]

/-- Where the payload ends between codewords or inside one, the reader is at its limit (46_decoder.md R222). -/
theorem State.decoded_of_payload_end (hpay : unpackBits s.payload = es.flatMap DEntry.bits ++ part) :
    s.decoded.how = .exhausted ∧ s.decoded.out = es.map DEntry.sym := by
  obtain ⟨left, acc, -, hd⟩ := State.decoded_inside htab hes hlt hpart (rest := []) (by rwa [List.append_nil])
  rw [hd]
  exact ⟨rfl, List.append_nil _⟩

/-- Where one more bit follows with which no live code begins, the loop ends there and counts it (46_decoder.md R222). -/
theorem State.decoded_of_no_path {v : Bool} (hpay : es.flatMap DEntry.bits ++ part ++ [v] <+: unpackBits s.payload)
    (hno : ∀ e ∈ s.liveEntries, ¬ part ++ [v] <+: e.bits) :
    s.decoded.how = .noLeaf ∧ s.decoded.out = es.map DEntry.sym ∧
      s.decoded.bits = (es.flatMap DEntry.bits).length + part.length + 1 := by
  obtain ⟨rest, hrest⟩ := hpay
  obtain ⟨left, acc, hacc, hd⟩ := State.decoded_inside htab hes hlt hpart (rest := v :: rest) (by simp [← hrest])
  rw [hd, decodeLoop_noLeaf hacc hno]
  exact ⟨rfl, List.append_nil _, rfl⟩

end

/-- Settles O37: what the loop emitted is what its error keeps; and after whole codes and the beginning of one, the loop ends as the
next bit says. -/
theorem decodeErrorKeepsPartialOutput : Obligations.DecodeErrorKeepsPartialOutput := by
  refine ⟨fun s t hv hmax hclear ht herr => ?_, fun s js part hv hmax hN hfit hfree hlt hjs hpart => ?_⟩
  · obtain ⟨kind, rfl, hend⟩ := exec_decode_of_err hv hmax hclear ht herr
    have hne : s.decoded.how ≠ .complete := by rcases hend with ⟨hd, -⟩ | ⟨hd, -⟩ <;> rw [hd] <;> decide
    obtain ⟨hcnt, hlt⟩ := State.decodeFailed_outCnt_toNat hne kind
    obtain ⟨js, hjs, hsyms, hbits⟩ := s.decoded_emits
    have hlen : js.length = (s.decodeFailed kind).outCnt.toNat := by rw [hcnt, State.decoded_out_length hsyms]
    refine ⟨hcnt.trans_lt hlt, rfl, rfl, rfl, ?_,
      ⟨js, hlen, hjs, State.obuf_putDecoded_emitted hsyms, by rw [s.flatMap_codes]; exact hbits⟩,
      fun i hi => State.obuf_putDecoded_above hsyms i (hlen.trans_le hi), rfl⟩
    rcases hend with ⟨hd, rfl⟩ | ⟨-, rfl⟩
    · exact .inl ⟨rfl, rfl, congrArg (BitVec.ofNat 32) (State.decoded_bits_of_exhausted hd)⟩
    · exact .inr ⟨rfl, rfl⟩
  · have htab := s.tableOk_liveEntries hN hfit hfree
    have hes := s.map_dtabAt_live hN hjs
    have hlt' : (js.map s.dtabAt).length < s.outLen.toNat := by rwa [List.length_map]
    have hpart' : part = [] ∨ ∃ e ∈ s.liveEntries, part <+: e.bits ∧ part.length < e.len.toNat :=
      hpart.imp_right fun ⟨j, hj, hp⟩ => ⟨s.dtabAt j, s.dtabAt_mem_liveEntries hN hj, hp⟩
    rw [s.flatMap_codes]
    refine ⟨fun hpay => ?_, fun v hpay hno => ?_⟩
    · obtain ⟨hd, hsyms⟩ := State.decoded_of_payload_end htab hes hlt' hpart' hpay
      refine ⟨_, exec_decode_of_exhausted hv hmax hd, ?_, State.obuf_putDecoded_emitted hsyms,
        State.obuf_putDecoded_above hsyms⟩
      rw [← State.decoded_out_length hsyms, ← State.decoded_bits_of_exhausted hd]
      rfl
    · have hno' : ∀ e ∈ s.liveEntries, ¬ part ++ [v] <+: e.bits := by
        intro e he
        obtain ⟨j, -, hj, rfl⟩ := (s.mem_liveEntries e).1 he
        exact hno j hj
      obtain ⟨hd, hsyms, hcount⟩ := State.decoded_of_no_path htab hes hlt' hpart' hpay hno'
      refine ⟨_, exec_decode_of_noLeaf hv hmax hd, ?_, State.obuf_putDecoded_emitted hsyms, State.obuf_putDecoded_above hsyms⟩
      rw [← State.decoded_out_length hsyms, ← hcount]
      rfl

/-! ## DECOMPRESS (46_decoder.md R228) -/

theorem Params.artMax_le_of_wellFormed {p : Params} (h : p.wellFormed = true) : p.artMax ≤ 131072 := by
  simp only [Params.wellFormed, Bool.and_eq_true, decide_eq_true_eq] at h
  omega

/-- The codes that DECODE reads with are those of the stored entries (46_decoder.md R216). -/
theorem State.StoredTableOk.flatMap_codes {s : State} (h : s.StoredTableOk) {js : List Nat} (hjs : ∀ j ∈ js, j < s.headerCount) :
    (js.flatMap fun j => codeBits (s.afterLoadtab.dtabAt j).len.toNat (s.afterLoadtab.dtabAt j).code.toNat) =
      js.flatMap fun j => codeBits (s.tabEntry j).len (s.tabEntry j).code := by
  refine List.flatMap_congr fun j hj => ?_
  rw [h.dtabAt_entry (hjs j hj), TabEntry.toDEntry_len, TabEntry.toDEntry_code]

/-- Settles O38: DECODE emits the coded symbols with the table that LOADTAB committed. -/
theorem decompressEmitsTheStoredSymbols : Obligations.DecompressEmitsTheStoredSymbols := by
  rintro s js _ _ hp h rfl hmax hlen hjs rfl hbits
  obtain ⟨hN, hoff, -, hfit, -, -, hfree⟩ := h.dtabOk rfl
  have hcount := h.dtabN_toNat
  have hL := s.outLen_afterLoadtab_toNat
  have hB := s.payBytes_afterLoadtab_toNat
  have hcodes := h.flatMap_codes hjs
  obtain ⟨t, hrun, ht, hemit, habove⟩ := decodeEmitsTheCodedSymbols s.afterLoadtab js _ rfl (hL.trans_le hmax) hN
    (fun j hj => ⟨(hfit j hj).2.1, (hfit j hj).2.2.2⟩) hfree (hlen.trans hL.symm) (fun j hj => (hjs j hj).trans_eq hcount.symm)
    rfl (by rw [hcodes, h.payOff_toNat, hB]; exact hbits)
  rw [hcodes] at ht
  have hshort : (js.flatMap fun j => codeBits (s.tabEntry j).len (s.tabEntry j).code).length < 2 ^ 32 := by
    obtain ⟨hart, -⟩ := h
    have hart' := hart.trans (Params.artMax_le_of_wellFormed hp)
    have hle := hbits.length_le
    rw [unpackBits_length, State.bytesAt_length] at hle
    omega
  have hempty : s.afterLoadtab.outLen = 0#32 ↔ js = [] := by
    rw [← BitVec.toNat_inj, hL, ← List.length_eq_zero_iff, hlen]
    rfl
  generalize t.obuf = out at ht
  subst ht
  refine ⟨_, (exec_decompress_of_stored h).trans hrun, rfl, rfl, rfl, decide_eq_decide.2 hempty, rfl, rfl, rfl, rfl,
    hL.trans hlen.symm, hL.trans hlen.symm, ?_, h.payOff_toNat, hB, fun i hi => ?_, fun i hi => ?_⟩
  · rw [BitVec.toNat_ofNat]
    exact Nat.mod_eq_of_lt hshort
  · rw [hemit i hi, h.dtabAt_entry (hjs _ (List.getElem_mem hi)), TabEntry.toDEntry_sym]
  · exact habove i ((hL.trans hlen.symm).trans_le hi)

end Sys2Proof.Machine
end

section
/-! SUPPORT. The proofs of the exceptions' statements (60_exceptions.md): the precision of the four pipeline commands, the rows of
the command and error matrix, and the rows of the error registers. -/

namespace Sys2Proof.Machine

/-! ## Precision (60_exceptions.md R251, R255) -/

/-- A pipeline command raises on the state it found, or takes its effect, which reaches neither ERR nor the error registers. -/
theorem runOf_pipeline_cases (s : State) {i : Instr} (hi : i ∈ [Instr.freq, .build, .canon, .encode]) :
    (∃ e, runOf i s = .raised s e) ∨ ∃ u, runOf i s = .done u ∧ u.status.err = s.status.err ∧ u.errs = s.errs := by
  simp only [List.mem_cons, List.not_mem_nil, or_false] at hi
  rcases hi with rfl | rfl | rfl | rfl
  · rcases runFreq_cases s with ⟨_, e, hr, _⟩ | ⟨_, hr⟩
    · exact .inl ⟨e, hr⟩
    · exact .inr ⟨_, hr, rfl, rfl⟩
  · rcases runBuild_cases s with ⟨_, e, hr, _⟩ | ⟨_, hr⟩
    · exact .inl ⟨e, hr⟩
    · exact .inr ⟨_, hr, rfl, rfl⟩
  · rcases runCanon_cases s with ⟨_, e, hr, _⟩ | ⟨_, e, _, _, hr, _⟩ | ⟨_, _, hr⟩
    · exact .inl ⟨e, hr⟩
    · exact .inl ⟨e, hr⟩
    · exact .inr ⟨_, hr, rfl, rfl⟩
  · rcases runEncode_cases s with ⟨e, hr, _⟩ | ⟨_, _, hr⟩
    · exact .inl ⟨e, hr⟩
    · exact .inr ⟨_, hr, rfl, rfl⟩

/-- Settles O27: an error keeps the state that the command found, and its completion writes the rest of the record. -/
theorem pipelineErrorsArePrecise : Obligations.PipelineErrorsArePrecise := by
  intro i s t hi ht
  rw [exec_eq] at ht
  cases ht
  rcases runOf_pipeline_cases s hi with ⟨e, hr⟩ | ⟨u, hr, herr, herrs⟩
  · rw [hr]
    exact .inr rfl
  · rw [hr]
    exact .inl ⟨herr, herrs⟩

/-! ## The command and error matrix (60_exceptions.md R243) -/

/-- Every error that a result raises records one of these (STEP, SUB, CODE). -/
def Result.RaisesIn (r : Result) (rows : List (Byte × Byte × Byte)) : Prop :=
  ∀ u e, r = .raised u e → (e.step, e.kind.sub, e.kind.code) ∈ rows

section
variable {rows : List (Byte × Byte × Byte)}

theorem Result.RaisesIn.mono {r : Result} (h : r.RaisesIn rows) {rows' : List (Byte × Byte × Byte)} (hsub : rows ⊆ rows') :
    r.RaisesIn rows' :=
  fun u e hr => hsub (h u e hr)

theorem Result.raisesIn_done (u : State) : (Result.done u).RaisesIn rows := by
  intro v e h
  cases h

theorem Result.raisesIn_raised {u : State} {e : Raise} {step : Byte} {kind : ErrKind} (hstep : e.step = step) (hkind : e.kind = kind)
    (hrow : (step, kind.sub, kind.code) ∈ rows) : (Result.raised u e).RaisesIn rows := by
  intro v e' h
  cases h
  rwa [hstep, hkind]

end

section
variable (s : State)

theorem runFreq_raisesIn : (runFreq s).RaisesIn (errorsOf .freq) := by
  rcases runFreq_cases s with ⟨_, e, hr, hstep, hkind⟩ | ⟨_, hr⟩
  · rw [hr]; exact Result.raisesIn_raised hstep hkind (by decide)
  · rw [hr]; exact Result.raisesIn_done _

theorem runBuild_raisesIn : (runBuild s).RaisesIn (errorsOf .build) := by
  rcases runBuild_cases s with ⟨_, e, hr, hstep, hkind⟩ | ⟨_, hr⟩
  · rw [hr]; exact Result.raisesIn_raised hstep hkind (by decide)
  · rw [hr]; exact Result.raisesIn_done _

theorem runCanon_raisesIn : (runCanon s).RaisesIn (errorsOf .canon) := by
  rcases runCanon_cases s with ⟨_, e, hr, hstep, hkind⟩ | ⟨_, e, _, _, hr, hstep, hkind⟩ | ⟨_, _, hr⟩
  · rw [hr]; exact Result.raisesIn_raised hstep hkind (by decide)
  · rw [hr]; exact Result.raisesIn_raised hstep hkind (by decide)
  · rw [hr]; exact Result.raisesIn_done _

theorem runEncode_raisesIn : (runEncode s).RaisesIn (errorsOf .encode) := by
  rcases runEncode_cases s with ⟨e, hr, hstep, ⟨_, hkind⟩ | ⟨_, hkind⟩ | ⟨_, hkind⟩ | ⟨_, hkind⟩⟩ | ⟨_, _, hr⟩
  · rw [hr]; exact Result.raisesIn_raised hstep hkind (by decide)
  · rw [hr]; exact Result.raisesIn_raised hstep hkind (by decide)
  · rw [hr]; exact Result.raisesIn_raised hstep hkind (by decide)
  · rw [hr]; exact Result.raisesIn_raised hstep hkind (by decide)
  · rw [hr]; exact Result.raisesIn_done _

/-- Behind FREQ and BUILD every input symbol has a code (42_tree.md R156). -/
theorem State.pipelined_lenAt_ne_zero {b : Byte} (hb : b ∈ s.input) : s.pipelined.lenAt b.toNat ≠ 0#8 := by
  obtain ⟨hpos, -⟩ := s.afterFreq.buildLen_spec
  obtain ⟨hlen, -⟩ := hpos _ (s.mem_afterFreq_present hb)
  rw [← s.afterFreq.lenAt_afterBuild _ b.isLt] at hlen
  intro hzero
  have hzero : s.afterFreq.afterBuild.lenAt b.toNat = 0#8 := hzero
  rw [hzero] at hlen
  exact absurd hlen (by decide)

/-- Inside COMPRESS only the artifact's size can stop ENCODE. -/
theorem runEncode_pipelined_raisesIn (h : s.inputLen ≤ s.params.inMax) : (runEncode s.pipelined).RaisesIn (errorsOf .compress) := by
  rcases runEncode_cases s.pipelined with
    ⟨e, hr, hstep, ⟨hcode, _⟩ | ⟨hover, _⟩ | ⟨⟨b, hb, hzero⟩, _⟩ | ⟨_, hkind⟩⟩ | ⟨_, _, hr⟩
  · simp at hcode
  · exact absurd h (Nat.not_le.2 hover)
  · exact absurd hzero (s.pipelined_lenAt_ne_zero (s.pipelined_input ▸ hb))
  · rw [hr]; exact Result.raisesIn_raised hstep hkind (by decide)
  · rw [hr]; exact Result.raisesIn_done _

theorem runCompress_raisesIn : (runCompress s).RaisesIn (errorsOf .compress) := by
  rcases runFreq_cases s with ⟨_, e, hr, hstep, hkind⟩ | ⟨hfits, _⟩
  · rw [runCompress, hr]
    exact Result.raisesIn_raised hstep hkind (by decide)
  rw [runCompress_of_fits hfits]
  rcases runCanon_cases s.afterFreq.afterBuild with ⟨hno, _⟩ | ⟨_, e, _, _, hr, hstep, hkind⟩ | ⟨_, _, hr⟩
  · cases hno
  · rw [hr]; exact Result.raisesIn_raised hstep hkind (by decide)
  · rw [hr]; exact runEncode_pipelined_raisesIn s hfits

theorem runLoadtab_raisesIn : (runLoadtab s).RaisesIn (errorsOf .loadtab) := by
  have hrows : ∀ k ∈ [ErrKind.overflowArt, .truncHdr, .badCount, .truncTable, .badLen, .badCode, .badOrder, .notPrefixFree],
      (0x20#8, k.sub, k.code) ∈ errorsOf .loadtab := by decide
  rcases runLoadtab_cases s with ⟨_, e, he, hr⟩ | ⟨_, hr⟩
  · obtain ⟨hstep, hkind⟩ := State.loadtabError_kind he
    rw [hr]; exact Result.raisesIn_raised hstep rfl (hrows e.kind hkind)
  · rw [hr]; exact Result.raisesIn_done _

/-- The rows that DECODE and DECOMPRESS share: those of a DECODE that finds its table (60_exceptions.md R243). -/
def decodeRows : List (Byte × Byte × Byte) := [(0x21#8, 0x03#8, 0x06#8), (0x21#8, 0x00#8, 0x01#8), (0x21#8, 0x08#8, 0x02#8)]

theorem runDecode_raisesIn_of_table {s : State} (htable : s.valid.dtab = true) : (runDecode s).RaisesIn decodeRows := by
  rcases runDecode_cases s with ⟨e, hr, hstep, ⟨hno, _⟩ | ⟨_, hkind⟩⟩ |
    ⟨_, _, e, hr, hstep, ⟨_, hkind⟩ | ⟨_, hkind⟩⟩ | ⟨_, _, _, hr⟩
  · exact absurd (hno.symm.trans htable) Bool.false_ne_true
  · rw [hr]; exact Result.raisesIn_raised hstep hkind (by decide)
  · rw [hr]; exact Result.raisesIn_raised hstep hkind (by decide)
  · rw [hr]; exact Result.raisesIn_raised hstep hkind (by decide)
  · rw [hr]; exact Result.raisesIn_done _

theorem runDecode_raisesIn : (runDecode s).RaisesIn (errorsOf .decode) := by
  by_cases htable : s.valid.dtab = true
  · exact (runDecode_raisesIn_of_table htable).mono (List.subset_cons_self _ decodeRows)
  · rw [runDecode, if_neg htable]
    exact Result.raisesIn_raised rfl rfl (by decide)

/-- Inside DECOMPRESS DECODE finds the table that LOADTAB committed. -/
theorem runDecompress_raisesIn : (runDecompress s).RaisesIn (errorsOf .decompress) := by
  rcases runLoadtab_cases s with ⟨_, e, _, hr⟩ | ⟨_, hr⟩
  · have hload : runDecompress s = runLoadtab s := by rw [runDecompress, hr]; rfl
    rw [hload]
    exact (runLoadtab_raisesIn s).mono (List.subset_append_left (errorsOf .loadtab) decodeRows)
  · rw [runDecompress, hr]
    exact (runDecode_raisesIn_of_table (s := s.afterLoadtab) rfl).mono (List.subset_append_right (errorsOf .loadtab) decodeRows)

/-- A command raises only the errors of its row. -/
theorem runOf_raisesIn (i : Instr) : (runOf i s).RaisesIn (errorsOf i) := by
  cases i with
  | nop => exact Result.raisesIn_done _
  | clear => exact Result.raisesIn_done _
  | freq => exact runFreq_raisesIn s
  | build => exact runBuild_raisesIn s
  | canon => exact runCanon_raisesIn s
  | encode => exact runEncode_raisesIn s
  | compress => exact runCompress_raisesIn s
  | loadtab => exact runLoadtab_raisesIn s
  | decode => exact runDecode_raisesIn s
  | decompress => exact runDecompress_raisesIn s

end

/-- No effect of a command sets ERR: only the completion does (60_exceptions.md R250). -/
theorem effectsKeep_err_false : EffectsKeep fun s => s.status.err = false where
  nop _ h := h
  clear _ _ := rfl
  freq _ h := h
  build _ _ h := h
  canon _ _ _ h := h
  encode _ _ h := h
  loadtabError _ h := h
  loadtab _ _ h := h
  decodeError _ _ _ h := h
  decode _ _ _ h := h

/-- A completion that leaves ERR set, on effects that do not, took an error. -/
theorem Result.exists_raised_of_err {r : Result} (hclear : r.state.status.err = false) (herr : r.finish.status.err = true) :
    ∃ u e, r = .raised u e := by
  cases r with
  | done u => exact absurd (hclear.symm.trans herr) Bool.false_ne_true
  | raised u e => exact ⟨u, e, rfl⟩

/-! ## The rows of the error registers (60_exceptions.md R241) -/

theorem State.ErrorOk.congr {s t : State} (h : s.ErrorOk) (herrs : t.errs = s.errs) : t.ErrorOk := by
  rwa [State.ErrorOk, herrs]

/-- Cleared error registers hold the pair of no error. -/
theorem State.errorOk_of_cleared {s : State} (hcode : s.errs.code = 0#8) (hsub : s.errs.sub = 0#8) : s.ErrorOk := by
  rw [State.ErrorOk, hcode, hsub]
  exact List.mem_cons_self

/-- A recorded error is that of its row. -/
theorem State.errorOk_recordError (s : State) (e : Raise) : (s.recordError e).ErrorOk := by
  unfold State.ErrorOk
  show (e.kind.code, e.kind.sub) ∈ _
  cases e.kind <;> decide

/-- No effect of a command writes the error registers, but CLEAR's, which zeroes them (40_control.md R124). -/
theorem effectsKeep_errorOk : EffectsKeep State.ErrorOk where
  nop _ h := h.congr rfl
  clear _ _ := State.errorOk_of_cleared rfl rfl
  freq _ h := h.congr rfl
  build _ _ h := h.congr rfl
  canon _ _ _ h := h.congr rfl
  encode _ _ h := h.congr rfl
  loadtabError _ h := h.congr rfl
  loadtab _ _ h := h.congr rfl
  decodeError _ _ _ h := h.congr rfl
  decode _ _ _ h := h.congr rfl

/-- No transaction of the host reaches the error registers (20_memory.md R63); a reset zeroes them, and an error writes its row. -/
theorem eventsKeep_errorOk : EventsKeep State.ErrorOk where
  agenda _ _ h := h.congr rfl
  read _ _ _ h := h.congr rfl
  w1c _ _ h := h.congr rfl
  ie _ _ h := h.congr rfl
  drop _ _ h := h.congr rfl
  accept _ _ _ h := h.congr rfl
  inLen _ _ _ h := h.congr rfl
  artLen _ _ _ h := h.congr rfl
  write _ _ _ _ _ h := h.congr (by simp)
  reset _ _ _ := State.errorOk_of_cleared rfl rfl
  complete _ h := h.congr rfl
  completeError s e _ := (s.errorOk_recordError e).congr rfl

/-- Settles O59: a command that sets ERR raised, on one of its row's errors; and the step's induction over effects and events. -/
theorem commandsRecordOnlyTheirErrors : Obligations.CommandsRecordOnlyTheirErrors := by
  refine ⟨fun i s t hclear ht herr => ?_, fun s t hs ht => step_keeps effectsKeep_errorOk eventsKeep_errorOk ht hs⟩
  rw [exec_eq] at ht
  cases ht
  obtain ⟨u, e, hr⟩ := Result.exists_raised_of_err (effectsKeep_err_false.runOf i s hclear) herr
  rw [hr]
  exact runOf_raisesIn s i u e hr

end Sys2Proof.Machine
end

section
/-! SUPPORT. The proofs of the statements on reset and hazards (70_reset_and_hazards.md): writes dropped while BUSY, what an aborted
command leaves in the buffers, the reset event, and the finite latency of a command. -/

namespace Sys2Proof.Machine

/-! ## Dropped writes (70_reset_and_hazards.md R280) -/

/-- The full-strobe writes that a register takes only while the core is idle. -/
theorem storesAt_locOf_of_mem {a : Word} (ha : a &&& 0xFFFFFFFC#32 ∈ [0x004#32, 0x020#32, 0x024#32]) (p : Params) :
    storesAt p (locOf (wordAddr a)) 0xF#4 = true := by
  rw [wordAddr]
  simp only [List.mem_cons, List.not_mem_nil, or_false] at ha
  rcases ha with ha | ha | ha <;> rw [ha] <;> rfl

/-- An enabled lane below the capacity makes a write to IBUF or ABUF a storing one. -/
theorem storesAt_buf {p : Params} {b : Buf} (hb : b ≠ .obuf) {i k : Nat} {strb : Strobe} (hk : k < 4)
    (hon : strb.getLsbD k = true) (hcap : i + k < capOf p b) : storesAt p (.buf b i) strb = true := by
  have hany : [0, 1, 2, 3].any (laneOn p b i strb) = true :=
    List.any_eq_true.2 ⟨k, mem_lanes.2 hk, by simp [laneOn, hon, hcap]⟩
  cases b with
  | ibuf => exact hany
  | abuf => exact hany
  | obuf => exact absurd rfl hb

/-- Settles O41: each of the three kinds of write stores while IDLE, so it is dropped while BUSY. -/
theorem busyDropsStoringWrites : Obligations.BusyDropsStoringWrites := by
  intro s w a d strb hbusy h
  refine State.writeLoc_of_busy hbusy ?_ d
  rcases h with ⟨ha, rfl⟩ | ⟨k, hk, hon, h1, h2, hcap⟩ | ⟨k, hk, hon, h1, h2, hcap⟩
  · exact storesAt_locOf_of_mem ha s.params
  · rw [wordAddr, locOf_ibuf h1 h2]
    exact storesAt_buf (by decide) hk hon hcap
  · rw [wordAddr, locOf_abuf h1 h2]
    exact storesAt_buf (by decide) hk hon hcap

/-! ## The reset event (70_reset_and_hazards.md R270, R271) -/

/-- What an aborted command leaves, said once (log entry 7): ENCODE and COMPRESS draws in ABUF, DECODE and DECOMPRESS draws in OBUF,
every other word the state as it was. -/
theorem State.abort_cases (s : State) (w : Word) :
    (w ∈ [0x13#32, 0x1F#32] ∧ ∃ i, decodeWord w = .ok i ∧ s.abort w = s.scramble .abuf (runOf i s).abufBytes) ∨
      (w ∈ [0x21#32, 0x2F#32] ∧ ∃ i ∈ [Instr.decode, .decompress], decodeWord w = .ok i ∧
        s.abort w = s.scramble .obuf (runOf i s).obufBytes) ∨
      (w ∉ [0x13#32, 0x1F#32] ∧ w ∉ [0x21#32, 0x2F#32] ∧ s.abort w = s) := by
  by_cases ha : w ∈ [0x13#32, 0x1F#32]
  · refine .inl ⟨ha, ?_⟩
    simp only [List.mem_cons, List.not_mem_nil, or_false] at ha
    rcases ha with rfl | rfl
    · exact ⟨.encode, rfl, rfl⟩
    · exact ⟨.compress, rfl, rfl⟩
  by_cases ho : w ∈ [0x21#32, 0x2F#32]
  · refine .inr (.inl ⟨ho, ?_⟩)
    simp only [List.mem_cons, List.not_mem_nil, or_false] at ho
    rcases ho with rfl | rfl
    · exact ⟨.decode, by decide, rfl, rfl⟩
    · exact ⟨.decompress, by decide, rfl, rfl⟩
  refine .inr (.inr ⟨ha, ho, ?_⟩)
  unfold State.abort
  split
  · next h => exact absurd ((decodeWord_eq_ok_iff w _).1 h ▸ by decide) ha
  · next h => exact absurd ((decodeWord_eq_ok_iff w _).1 h ▸ by decide) ha
  · next h => exact absurd ((decodeWord_eq_ok_iff w _).1 h ▸ by decide) ho
  · next h => exact absurd ((decodeWord_eq_ok_iff w _).1 h ▸ by decide) ho
  · rfl
  · rfl

/-- The frame of an aborted command: ABUF, OBUF and the draw it used. -/
theorem State.abort_frame (s : State) (w : Word) : ∃ a o n, s.abort w = { s with abuf := a, obuf := o, draws := n } := by
  rcases s.abort_cases w with ⟨_, i, _, h⟩ | ⟨_, i, _, _, h⟩ | ⟨_, _, h⟩
  · rw [h]; exact ⟨_, _, _, rfl⟩
  · rw [h]; exact ⟨_, _, _, rfl⟩
  · rw [h]; exact ⟨_, _, _, rfl⟩

/-- A reset that finds the core idle touches no buffer (70_reset_and_hazards.md R270). -/
theorem State.resetBuffers_of_idle {s : State} (h : s.phase = .idle) : s.resetBuffers false = s := by
  simp [State.resetBuffers, h]

/-- A reset during BUSY leaves the buffers that the abort leaves (70_reset_and_hazards.md R272). -/
theorem State.resetBuffers_of_busy {s : State} {w : Word} (h : s.phase = .busy w) : s.resetBuffers false = s.abort w := by
  simp [State.resetBuffers, h]

/-- A reset that is no power-on leaves the buffers as they were or as an abort leaves them (70_reset_and_hazards.md R270, R272). -/
theorem State.resetBuffers_false_cases (s : State) : s.resetBuffers false = s ∨ ∃ w, s.resetBuffers false = s.abort w := by
  cases hphase : s.phase with
  | idle => exact .inl (State.resetBuffers_of_idle hphase)
  | busy w => exact .inr ⟨w, State.resetBuffers_of_busy hphase⟩

/-- The frame of a reset's buffers: the buffers and the model's own draws; IBUF and the power-on's number only at a power-on. -/
theorem State.resetBuffers_frame (s : State) (p : Bool) :
    ∃ i a o d n, s.resetBuffers p = { s with ibuf := i, abuf := a, obuf := o, powerOnId := d, draws := n } ∧
      (p = false → i = s.ibuf ∧ d = s.powerOnId) := by
  cases p with
  | true => exact ⟨_, _, _, _, _, rfl, fun h => by cases h⟩
  | false =>
    rcases s.resetBuffers_false_cases with h | ⟨w, h⟩
    · exact ⟨_, _, _, _, _, h, fun _ => ⟨rfl, rfl⟩⟩
    · obtain ⟨a, o, n, hframe⟩ := s.abort_frame w
      exact ⟨_, a, o, _, n, h.trans hframe, fun _ => ⟨rfl, rfl⟩⟩

@[simp] theorem State.resetCore_byteAt (s : State) (b : Buf) (i : Nat) : s.resetCore.byteAt b i = s.byteAt b i := by
  cases b <;> rfl

/-- After a power-on every byte is the draw (93_implementation_defined.md I3). -/
theorem State.powerOnBuffers_byteAt (s : State) (b : Buf) (i : Nat) :
    s.powerOnBuffers.byteAt b i = Config.freeByte s.powerOnBuffers.powerOnId b i := by
  cases b <;> rfl

/-- Settles O49: the buffers' frame, and on it the reset of everything else. -/
theorem resetEventResetsTheCore : Obligations.ResetEventResetsTheCore := by
  intro s p
  refine ⟨_, rfl, ?_, ?_, ?_, ?_⟩
  · obtain ⟨i, a, o, d, n, h, -⟩ := s.resetBuffers_frame p
    rw [resetEvent, h]
    rfl
  · rintro rfl hidle
    rw [resetEvent, State.resetBuffers_of_idle hidle]
    exact ⟨rfl, rfl, rfl, rfl⟩
  · intro hp
    obtain ⟨i, a, o, d, n, h, hkeep⟩ := s.resetBuffers_frame p
    rw [resetEvent, h]
    exact hkeep hp
  · rintro rfl
    exact ⟨rfl, Nat.lt_succ_self _, fun b i => (State.resetCore_byteAt _ b i).trans (s.powerOnBuffers_byteAt b i)⟩

/-! ## A reset during a command (70_reset_and_hazards.md R272) -/

/-- Below the end every byte is the draw, from the end on nothing changed. -/
theorem State.byteAt_scramble (s : State) (b : Buf) (n i : Nat) :
    (s.scramble b n).byteAt b i = if i < n then Config.freeByte s.draws b i else s.byteAt b i := by
  have hput : (s.scramble b n).byteAt b i =
      (s.putBytes b 0 ((List.range n).map fun i => Config.freeByte s.draws b i)).byteAt b i := by cases b <;> rfl
  rw [hput, State.byteAt_putBytes]
  by_cases h : i < n <;> simp [h]

/-- A command that would have written nothing leaves its buffer as it is. -/
theorem State.scramble_zero_buf (s : State) (b c : Buf) : (s.scramble b 0).buf c = s.buf c := by
  cases b <;> cases c <;> rfl

/-- With ERR clear, which no command reads (40_control.md R128), the completion is that of the command's own result. -/
theorem completeWord_of_err_clear {s : State} {w : Word} {i : Instr} (hi : decodeWord w = .ok i) :
    completeWord w { s with status := { s.status with err := false } } =
      .next ((runOf i s).withUnread s.agenda s.reads false).finish := by
  have hrun : runOf i { s with status := { s.status with err := false } } =
      (runOf i s).withUnread s.agenda s.reads (errAfter i false) := runOf_withUnread i s s.agenda s.reads false
  have herr : errAfter i false = false := by cases i <;> rfl
  rw [completeWord, hi]
  show exec i _ = _
  rw [exec_eq, hrun, herr]

/-- The errors of the decode loop, in the registers that record them (46_decoder.md R226). -/
def ErrRegs.LoopError (r : ErrRegs) : Prop := r.step = 0x21#8 ∧ (r.code = 0x01#8 ∨ (r.code = 0x02#8 ∧ r.sub = 0x08#8))

/-- The rows of the decode loop's errors are those of its two kinds (60_exceptions.md R241). -/
theorem ErrKind.loop_iff (k : ErrKind) :
    k.code = 0x01#8 ∨ (k.code = 0x02#8 ∧ k.sub = 0x08#8) ↔ k = .outOfRange ∨ k = .noLeafPath := by
  cases k <;> decide

/-- Only DECODE's loop raises the two kinds, so their rows have DECODE's STEP (60_exceptions.md R243). -/
theorem step_of_loop_row {i : Instr} (hi : i ∈ [Instr.decode, .decompress]) :
    ∀ row ∈ errorsOf i, row.2.2 = 0x01#8 ∨ (row.2.2 = 0x02#8 ∧ row.2.1 = 0x08#8) → row.1 = 0x21#8 := by
  simp only [List.mem_cons, List.not_mem_nil, or_false] at hi
  rcases hi with rfl | rfl
  · simp [errorsOf]
  · simp [errorsOf]

/-- A result that sets no error writes ABUF up to its own ART_LEN, and one that does writes nothing. -/
theorem Result.abufBytes_eq (r : Result) (a : List Event) (rd : List Word) :
    r.abufBytes = if (r.withUnread a rd false).finish.status.err then 0 else (r.withUnread a rd false).finish.artLen.toNat := by
  cases r <;> rfl

/-- A result without an error, or with an error of the decode loop, writes OBUF up to its own OUT_CNT. -/
theorem Result.obufBytes_eq_outCnt {r : Result} {a : List Event} {rd : List Word}
    (h : (r.withUnread a rd false).finish.status.err = false ∨ (r.withUnread a rd false).finish.errs.LoopError) :
    r.obufBytes = (r.withUnread a rd false).finish.outCnt.toNat := by
  cases r with
  | done u => rfl
  | raised u e =>
    rcases h with h | ⟨-, h⟩
    · cases h
    · rcases (ErrKind.loop_iff e.kind).1 h with hk | hk <;> simp only [Result.obufBytes, hk] <;> rfl

/-- A result of DECODE or DECOMPRESS with any other error writes nothing. -/
theorem Result.obufBytes_eq_zero {r : Result} {a : List Event} {rd : List Word} {i : Instr}
    (hi : i ∈ [Instr.decode, .decompress]) (hr : r.RaisesIn (errorsOf i))
    (herr : (r.withUnread a rd false).finish.status.err = true)
    (hloop : ¬ (r.withUnread a rd false).finish.errs.LoopError) : r.obufBytes = 0 := by
  cases r with
  | done u => cases herr
  | raised u e =>
    have hkind : ¬ (e.kind = .outOfRange ∨ e.kind = .noLeafPath) := fun hk =>
      have hrow := (ErrKind.loop_iff e.kind).2 hk
      hloop ⟨step_of_loop_row hi _ (hr u e rfl) hrow, hrow⟩
    simp only [Result.obufBytes]
    split
    · next hk => exact absurd (.inl hk) hkind
    · next hk => exact absurd (.inr hk) hkind
    · rfl

/-- Settles O51: the abort's draws end where the completion's own result would have ended. -/
theorem resetDuringCommandTouchesItsOutputOnly : Obligations.ResetDuringCommandTouchesItsOutputOnly := by
  intro s u w hbusy hu
  have hreset : resetEvent s false = (s.abort w).resetCore := by rw [resetEvent, State.resetBuffers_of_busy hbusy]
  have hdisjoint : ∀ v ∈ [0x13#32, 0x1F#32], v ∉ [0x21#32, 0x2F#32] := by simp
  simp only [hreset, State.resetCore_ibuf, State.resetCore_abuf, State.resetCore_obuf, State.resetCore_byteAt]
  rcases s.abort_cases w with ⟨hw, i, hi, h⟩ | ⟨hw, i, hmem, hi, h⟩ | ⟨hwa, hwo, h⟩
  · have hwo := hdisjoint w hw
    rw [completeWord_of_err_clear hi] at hu
    cases hu
    rw [h]
    refine ⟨rfl, fun hn => absurd hw hn, fun _ => rfl, fun _ herr => ?_, fun ho => absurd ho hwo, fun _ herr j => ?_,
      fun ho => absurd ho hwo⟩
    · rw [(runOf i s).abufBytes_eq s.agenda s.reads, if_pos herr]
      exact s.scramble_zero_buf .abuf .abuf
    · rw [s.byteAt_scramble, (runOf i s).abufBytes_eq s.agenda s.reads, herr]
      rfl
  · have hwa : w ∉ [0x13#32, 0x1F#32] := fun ha => hdisjoint w ha hw
    rw [completeWord_of_err_clear hi] at hu
    cases hu
    rw [h]
    refine ⟨rfl, fun _ => rfl, fun hn => absurd hw hn, fun ha => absurd ha hwa, fun _ herr hloop => ?_, fun ha => absurd ha hwa,
      fun _ hend j => ?_⟩
    · rw [Result.obufBytes_eq_zero hmem (runOf_raisesIn s i) herr hloop]
      exact s.scramble_zero_buf .obuf .obuf
    · rw [s.byteAt_scramble, Result.obufBytes_eq_outCnt hend]
  · rw [h]
    exact ⟨rfl, fun _ => rfl, fun _ => rfl, fun ha => absurd ha hwa, fun ho => absurd ho hwo, fun ha => absurd ha hwa,
      fun ho => absurd ho hwo⟩

/-! ## The latency is finite (70_reset_and_hazards.md R290) -/

/-- A host write does not reach the agenda. -/
theorem hostWrite_agenda (s : State) (a d : Word) (strb : Strobe) : (hostWrite s a d strb).agenda = s.agenda := by
  rcases hostWrite_cases s a d strb with h | h | h | ⟨_, h⟩ | ⟨_, h | h | h | ⟨b, i, _, h⟩⟩
  · rw [h]
  · rw [h]
  · rw [h]
  · rw [h]; rfl
  · rw [h]; rfl
  · rw [h]
  · rw [h]
  · rw [h]
    exact writeLanes_keep (P := fun t => t.agenda = s.agenda) b i d strb s rfl fun t j v _ ht => by simpa using ht

/-- While BUSY a host write does not reach the phase (70_reset_and_hazards.md R280). -/
theorem hostWrite_phase_of_busy {s : State} {w : Word} (hbusy : s.phase = .busy w) (a d : Word) (strb : Strobe) :
    (hostWrite s a d strb).phase = .busy w := by
  rcases hostWrite_cases s a d strb with h | h | h | ⟨_, h⟩ | ⟨hidle, _⟩
  · rw [h]; exact hbusy
  · rw [h]; exact hbusy
  · rw [h]; exact hbusy
  · rw [h]; exact hbusy
  · simp [State.busy_busy hbusy] at hidle

/-- A reset leaves the agenda (log entry 3). -/
theorem resetEvent_agenda (s : State) (p : Bool) : (resetEvent s p).agenda = s.agenda := by
  obtain ⟨i, a, o, d, n, h, -⟩ := s.resetBuffers_frame p
  rw [resetEvent, h]
  rfl

theorem completeWord_agenda {s t : State} {w : Word} (h : completeWord w s = .next t) : t.agenda = s.agenda := by
  rcases completeWord_cases w s with ⟨i, _, hi⟩ | ⟨r, _, hr⟩
  · rw [hi] at h
    cases h
    exact runOf_finish_agenda i s
  · rw [hr] at h
    cases h
    rfl

/-- In phase BUSY(w) the core's turn is the completion of w, legal or not (40_control.md R121, R125). -/
theorem coreTurn_eq_completeWord {s : State} {w : Word} (hbusy : s.phase = .busy w) : coreTurn s = completeWord w s := by
  rw [coreTurn, hbusy]

/-- The core's turn ends in an idle core and leaves the agenda. -/
theorem coreTurn_idle (s : State) : ∃ t, coreTurn s = .next t ∧ t.phase = .idle ∧ t.agenda = s.agenda := by
  cases hphase : s.phase with
  | idle => exact ⟨s, coreTurn_of_idle hphase, hphase, rfl⟩
  | busy w =>
    obtain ⟨r, hr⟩ := completeWord_eq_finish w s
    exact ⟨r.finish, (coreTurn_eq_completeWord hphase).trans hr, r.finish_phase, completeWord_agenda hr⟩

/-- No event reaches the agenda behind it. -/
theorem perform_agenda (s : State) (e : Event) : ∃ t, perform s e = .next t ∧ t.agenda = s.agenda := by
  cases e with
  | hostRead a => exact ⟨_, rfl, rfl⟩
  | hostWrite a d strb => exact ⟨_, rfl, hostWrite_agenda s _ d strb⟩
  | reset p => exact ⟨_, rfl, resetEvent_agenda s p⟩
  | coreTurn =>
    obtain ⟨t, ht, -, hagenda⟩ := coreTurn_idle s
    exact ⟨t, ht, hagenda⟩

/-- A read or a write of the host (20_memory.md R60). -/
def Event.IsTransaction (e : Event) : Prop := (∃ a, e = .hostRead a) ∨ ∃ a d strb, e = .hostWrite a d strb

/-- A transaction while BUSY leaves the phase and the agenda. -/
theorem perform_transaction_of_busy {s : State} {w : Word} (hbusy : s.phase = .busy w) {e : Event} (he : e.IsTransaction) :
    ∃ t, perform s e = .next t ∧ t.phase = .busy w ∧ t.agenda = s.agenda := by
  rcases he with ⟨a, rfl⟩ | ⟨a, d, strb, rfl⟩
  · exact ⟨_, rfl, hbusy, rfl⟩
  · exact ⟨_, rfl, hostWrite_phase_of_busy hbusy _ d strb, hostWrite_agenda s _ d strb⟩

/-- What every event of the agenda keeps, under what is known of the events, holds when the agenda is done. -/
theorem run_agenda {P : State → Prop} {Q : Event → Prop} (hagenda : ∀ s r, P s → P { s with agenda := r })
    (hevent : ∀ s e, Q e → P s → ∃ t, perform s e = .next t ∧ P t ∧ t.agenda = s.agenda) {s : State} (hs : P s)
    (hQ : ∀ e ∈ s.agenda, Q e) : ∃ u : State, Sys2Proof.core.run s.agenda.length s = .next u ∧ P u ∧ u.agenda = [] := by
  generalize hes : s.agenda = es at hQ ⊢
  induction es generalizing s with
  | nil => exact ⟨s, rfl, hs, hes⟩
  | cons e rest ih =>
    obtain ⟨t, ht, hPt, hrest⟩ := hevent { s with agenda := rest } e (hQ e List.mem_cons_self) (hagenda s rest hs)
    obtain ⟨u, hu, hPu, hnil⟩ := ih hPt hrest fun e' he' => hQ e' (List.mem_cons_of_mem e he')
    exact ⟨u, (run_cons ((step_of_agenda_cons hes).trans ht) _).trans hu, hPu, hnil⟩

/-- Settles O60: the agenda's events one after the other, then the core's turn. -/
theorem acceptedCommandCompletes : Obligations.AcceptedCommandCompletes := by
  intro s
  constructor
  · intro w hbusy hhost
    obtain ⟨u, hu, hphase, hnil⟩ := run_agenda (P := fun t => t.phase = .busy w) (Q := Event.IsTransaction) (fun _ _ h => h)
      (fun _ _ he h => perform_transaction_of_busy h he) hbusy hhost
    obtain ⟨r, hr⟩ := completeWord_eq_finish w u
    have hstep : step u = .next r.finish := (step_of_agenda_nil hnil).trans ((coreTurn_eq_completeWord hphase).trans hr)
    exact ⟨u, r.finish, hu, hphase, hnil, hr, run_snoc hu hstep, r.finish_phase, r.finish_done⟩
  · obtain ⟨u, hu, -, hnil⟩ := run_agenda (P := fun _ => True) (Q := fun _ => True) (fun _ _ h => h)
      (fun t e _ _ => by
        obtain ⟨v, hv, hagenda⟩ := perform_agenda t e
        exact ⟨v, hv, trivial, hagenda⟩) trivial (s := s) fun _ _ => trivial
    obtain ⟨t, ht, hidle, hagenda⟩ := coreTurn_idle u
    exact ⟨t, run_snoc hu ((step_of_agenda_nil hnil).trans ht), hidle, hagenda.trans hnil⟩

end Sys2Proof.Machine
end
